-- ==== Sys2Proof/Word.lean ====
section
/-! DEFINITION. The register word and the byte of HC-CORE (00_scope.md R7, R11). -/

namespace Sys2Proof

/-- A 32-bit word: every register and every command word (`XW = 32`, 00_scope.md R7). -/
abbrev Word := BitVec 32

/-- A byte of buffer memory, 0 to 255 (00_scope.md R11). -/
abbrev Byte := BitVec 8

/-- A natural number as a register value, truncated to 32 bits (00_scope.md R10). -/
def toWord (n : Nat) : Word := BitVec.ofNat 32 n

end Sys2Proof
end

