-- ==== Sys2Proof/Config.lean ====
section
/-! DEFINITION. The parameters of HC-CORE (00_scope.md R7): the fixed ones as numbers, the open ones as plain data
(`Platform`), and the values that the spec leaves free as opaque constants. -/

namespace Sys2Proof

/-- A run of consecutive byte addresses given by a base and a size (20_memory.md R65). -/
structure Region where
  base : Nat
  size : Nat
deriving DecidableEq, Repr

/-- The OPEN parameters of 00_scope.md R7 and what the platform says of its memory (20_memory.md R64, R69).
No step of the machine changes them. -/
structure Platform where
  /-- `NMAX`, the largest extended length a `SA.*` or `BWT.*` command accepts (R7, read in `CAP0`). -/
  nmax : Nat
  /-- `MMIO_BASE`, where the host sees the register window (R7). -/
  mmioBase : Nat
  /-- The areas where `mem_admit` is false (20_memory.md R69). -/
  unbacked : List Region
  /-- The areas that are not plain memory (20_memory.md R64, 93_implementation_defined.md U5). -/
  devices : List Region
deriving DecidableEq, Repr

/-- `ALPHABET` (00_scope.md R7). -/
def alphabet : Nat := 256

/-- `SENTINEL`, the byte that stands for `$` inside an `L` buffer (00_scope.md R7). -/
def sentinelByte : Byte := 0x00#8

/-- The number of byte addresses, `2^AW` (00_scope.md R7, 20_memory.md R60). -/
def memorySize : Nat := 2 ^ 32

/-- `MAXLEN`, the largest code length the code table can hold (00_scope.md R7). -/
def maxLen : Nat := 32

/-- The upper bound that 00_scope.md R7 puts on `NMAX`. -/
def nmaxLimit : Nat := 2 ^ 30

/-- The value of `ID` (10_state.md R28). -/
def idValue : Word := 0x48430007#32

/-- The value of `CAP1` (10_state.md R30). -/
def cap1Value : Word := 0x00000F20#32

/-- The platform of the reset state. DESIGN CHOICE (logs 1 to 4), unsafe: `NMAX` is 65536, the default of
92_eei_decisions.md; the window base is 0; every address is plain memory (the default of 20_memory.md R69). -/
def defaultPlatform : Platform := ⟨65536, 0, [], []⟩

/-- FREE VALUE (log 6), safe: when the host has an action pending while a command runs, whether the engine's step
comes first. 70_reset_and_hazards.md R305 and vector V67 allow both orders. -/
opaque Config.engineFirst : Nat → Bool

/-- FREE VALUE (log 17), safe: how many reads of a `wait` (30_encoding.md R107) find `BUSY = 1` before the running
command ends. The spec bounds no duration (70_reset_and_hazards.md R311). -/
opaque Config.pollsBefore : Nat → Nat

/-- FREE VALUE (log 7), safe: what a byte of an abandoned command's output region holds after a reset cut the command
short (70_reset_and_hazards.md R301, 93_implementation_defined.md U4), by draw and address. -/
opaque Config.abandonedByte : Nat → Nat → Byte

end Sys2Proof
end

