-- ==== Sys2Proof/Syntax.lean ====
section
/-! DEFINITION. The fifteen commands (30_encoding.md R101), the fields of a command word (R100), and the actions of a
host script (R106, R107). -/

namespace Sys2Proof

/-- The commands of 30_encoding.md R101, one constructor per row of the opcode table. A command word has no operand
field (R100), so no constructor has an argument. -/
inductive Instr where
  | saNaive
  | saPd
  | saIs
  | saDc3
  | bwtEncNaive
  | bwtEncPd
  | bwtEncIs
  | bwtEncDc3
  | bwtDecP
  | bwtDecS
  | hufBuild
  | hufCanon
  | hufEnc
  | hufDec
  | hufLen
deriving DecidableEq, Repr

/-- The three fields of the one format `CMD32` (30_encoding.md R100). -/
structure CommandFields where
  /-- bits 31:12, reserved, must be 0 -/
  zero : BitVec 20
  /-- bits 11:8, strategy or variant -/
  mode : BitVec 4
  /-- bits 7:0, operation -/
  op : BitVec 8
deriving DecidableEq, Repr

/-- One action of the host (30_encoding.md R106, R107), or the reset input (70_reset_and_hazards.md R300). -/
inductive HostAction where
  /-- A write of `width` bytes to the register at a host address; `wr` is the four-byte form. -/
  | regWrite (addr width : Nat) (value : Word)
  /-- A read of `width` bytes of the register at a host address; `rd` is the four-byte form. -/
  | regRead (addr width : Nat)
  /-- Host stores of bytes to buffer memory at ascending addresses (`mem[..] = ..`). -/
  | memStore (addr : Nat) (data : List Byte)
  /-- Host loads of bytes from buffer memory (what an `expect mem[..]` looks at). -/
  | memLoad (addr count : Nat)
  /-- `wait`: read `STATUS` again and again until `BUSY` reads 0 (R107). -/
  | wait
  /-- The model's own (log 10): the host does nothing until no command runs, as one that looks at `IRQ` and reads no
  register (60_exceptions.md R274). -/
  | awaitEnd
  /-- The reset input is asserted and released (70_reset_and_hazards.md R300). -/
  | hardReset
deriving DecidableEq, Repr

/-- What a host read returned. -/
inductive HostRead where
  | word (value : Word)
  | bytes (data : List Byte)
deriving DecidableEq, Repr

end Sys2Proof
end

