-- ==== Sys2Proof/WellFormed.lean ====
section
/-! DEFINITION. What is checked before a term is used: the fields of a command word (30_encoding.md R102, R103), the
platform's parameters (00_scope.md R7), and the shape of a register access (10_state.md R32). -/

namespace Sys2Proof

/-- Is `mode` a legal mode of the operation `op`? (30_encoding.md R102; an unknown `op` has none, R103) -/
def legalMode (op : BitVec 8) (mode : BitVec 4) : Bool :=
  if op = 0x01#8 ∨ op = 0x02#8 then mode.toNat ≤ 3
  else if op = 0x03#8 ∨ op = 0x13#8 then mode.toNat ≤ 1
  else if op = 0x10#8 ∨ op = 0x11#8 ∨ op = 0x12#8 then mode.toNat = 0
  else false

/-- A legal command word: the reserved bits are 0 and the mode is legal for the operation (30_encoding.md R103). -/
def CommandFields.wf (f : CommandFields) : Bool :=
  decide (f.zero = 0#20) && legalMode f.op f.mode

/-- Every term of `Instr` is well-formed: a command has no operand that could be out of range (30_encoding.md R100). -/
def Instr.wf : Instr → Bool
  | .saNaive | .saPd | .saIs | .saDc3 => true
  | .bwtEncNaive | .bwtEncPd | .bwtEncIs | .bwtEncDc3 => true
  | .bwtDecP | .bwtDecS => true
  | .hufBuild | .hufCanon | .hufEnc | .hufDec | .hufLen => true

/-- The ranges of 00_scope.md R7: `1 ≤ NMAX ≤ 2^30`, and `MMIO_BASE` a multiple of 256. -/
def Platform.wf (p : Platform) : Bool :=
  decide (1 ≤ p.nmax) && decide (p.nmax ≤ nmaxLimit) && decide (p.mmioBase % 256 = 0)

/-- A register access of the shape 10_state.md R32 defines: 32 bits wide and aligned to 4 bytes. -/
def registerAccessWf (offset width : Nat) : Bool :=
  decide (width = 4) && decide (offset % 4 = 0)

end Sys2Proof
end

