-- ==== Sys2Proof/Decode.lean ====
section
/-! DEFINITION. Decoding a command word (30_encoding.md R103), total on every 32-bit word, and the encoder (R101). -/

namespace Sys2Proof

/-- Why a word is no command. -/
inductive DecodeError where
  /-- The word is not one of the fifteen (30_encoding.md R103, R104); the engine ends in `IllegalCommand(w)`. -/
  | illegalCommand (w : Word)
deriving DecidableEq, Repr

/-- The fields of a word: `OP` 7:0, `MODE` 11:8, `ZERO` 31:12 (30_encoding.md R100). -/
def fieldsOf (w : Word) : CommandFields :=
  { zero := w.extractLsb' 12 20, mode := w.extractLsb' 8 4, op := w.extractLsb' 0 8 }

/-- The word of the three fields (30_encoding.md R100). -/
def packFields (f : CommandFields) : Word := f.zero ++ f.mode ++ f.op

/-- The four strategy modes of 30_encoding.md R102, in the row order of R101. -/
def byStrategy (a b c d : Instr) (mode : BitVec 4) : Option Instr :=
  match mode.toNat with
  | 0 => some a
  | 1 => some b
  | 2 => some c
  | 3 => some d
  | _ => none

/-- The two variants of an operation (30_encoding.md R102). -/
def byVariant (a b : Instr) (mode : BitVec 4) : Option Instr :=
  match mode.toNat with
  | 0 => some a
  | 1 => some b
  | _ => none

/-- An operation whose only legal mode is 0 (30_encoding.md R102). -/
def onlyMode (a : Instr) (mode : BitVec 4) : Option Instr :=
  match mode.toNat with
  | 0 => some a
  | _ => none

/-- The command of an operation and mode (30_encoding.md R101, R102). -/
def commandOf (op : BitVec 8) (mode : BitVec 4) : Option Instr :=
  match op.toNat with
  | 0x01 => byStrategy .saNaive .saPd .saIs .saDc3 mode
  | 0x02 => byStrategy .bwtEncNaive .bwtEncPd .bwtEncIs .bwtEncDc3 mode
  | 0x03 => byVariant .bwtDecP .bwtDecS mode
  | 0x10 => onlyMode .hufBuild mode
  | 0x11 => onlyMode .hufCanon mode
  | 0x12 => onlyMode .hufEnc mode
  | 0x13 => byVariant .hufDec .hufLen mode
  | _ => none

/-- Decoding: one of the fifteen commands, or illegal (30_encoding.md R103). -/
def decode (w : Word) : Except DecodeError Instr :=
  let f := fieldsOf w
  if f.zero = 0#20 then
    match commandOf f.op f.mode with
    | some i => .ok i
    | none => .error (.illegalCommand w)
  else .error (.illegalCommand w)

/-- The `OP` of a command (30_encoding.md R101). -/
def opOf : Instr → BitVec 8
  | .saNaive | .saPd | .saIs | .saDc3 => 0x01#8
  | .bwtEncNaive | .bwtEncPd | .bwtEncIs | .bwtEncDc3 => 0x02#8
  | .bwtDecP | .bwtDecS => 0x03#8
  | .hufBuild => 0x10#8
  | .hufCanon => 0x11#8
  | .hufEnc => 0x12#8
  | .hufDec | .hufLen => 0x13#8

/-- The `MODE` of a command (30_encoding.md R101). -/
def modeOf : Instr → BitVec 4
  | .saNaive | .bwtEncNaive | .bwtDecP => 0#4
  | .saPd | .bwtEncPd | .bwtDecS => 1#4
  | .saIs | .bwtEncIs => 2#4
  | .saDc3 | .bwtEncDc3 => 3#4
  | .hufBuild | .hufCanon | .hufEnc | .hufDec => 0#4
  | .hufLen => 1#4

/-- The command word of a command (30_encoding.md R101). -/
def encode (i : Instr) : Word := packFields { zero := 0#20, mode := modeOf i, op := opOf i }

/-- The instruction the decoder reads from a word of the opcode table, its bits numbered as the table numbers them.
Every row is one 32-bit command word (30_encoding.md R100), written whole to `CMD`, so no byte order enters. -/
def decodeTableWord (nbits w : Nat) : Option Instr :=
  match decode (BitVec.ofNat 32 (w % 2 ^ nbits)) with
  | .ok i => some i
  | .error _ => none

end Sys2Proof
end

