-- ==== Sys2Proof/Machine/State.lean ====
section
/-! DEFINITION. The state of HC-CORE (10_state.md R20) with the memory it works on, its reasons to stop, and reset. -/

namespace Sys2Proof.Machine

/-- The six causes of 60_exceptions.md R261. -/
inductive Cause where
  | outOfMemory
  | invalidData
  | codeLengthOverflow
  | truncatedStream
  | illegalCommand
  | badOperand
deriving DecidableEq, Repr

/-- The stored fields of `STATUS` (10_state.md R24); its other bits are reserved and read 0. -/
structure Status where
  busy : Bool
  done : Bool
  fault : Bool
  ovr : Bool
  cause : BitVec 4
deriving DecidableEq, Repr

/-- The stored fields of `CTRL` (10_state.md R25); `SRST` and the reserved bits read 0. -/
structure Ctrl where
  /-- done interrupt enable -/
  die : Bool
  /-- fault interrupt enable -/
  fie : Bool
deriving DecidableEq, Repr

/-- Buffer memory (20_memory.md R60) as the bytes that differ from what an unlisted address reads as, by rising
address. -/
abbrev Memory := List Host.Cell

/-- What an address that nothing has written reads as. DESIGN CHOICE (log 5), unsafe: 0x00, the start state of the
programs of 95_test_vectors.md part H. -/
def unlistedByte : Byte := 0x00#8

/-- The canonical form: addresses strictly rising and below `2^32`, and no entry equal to what an unlisted address
reads as. -/
def Memory.wf (m : Memory) : Bool :=
  decide ((m.map Prod.fst).Pairwise (· < ·)) &&
    m.all fun c => decide (c.1 < memorySize) && decide (c.2 ≠ unlistedByte)

/-- The state: the register file of 10_state.md R20, buffer memory, the platform's parameters, and the host's side. -/
structure State where
  /-- `x[0]` to `x[7]` (10_state.md R21) -/
  x : Vector Word 8
  /-- `RES0` (10_state.md R22) -/
  res0 : Word
  /-- `RES1` (10_state.md R22) -/
  res1 : Word
  /-- `CTRL` (10_state.md R25) -/
  ctrl : Ctrl
  /-- `STATUS` (10_state.md R24) -/
  status : Status
  /-- `CMD`, the last accepted command word (10_state.md R26) -/
  cmd : Word
  /-- `ERRINFO` (10_state.md R27) -/
  errinfo : Word
  /-- buffer memory (20_memory.md R60) -/
  mem : Memory
  /-- the parameters of 00_scope.md R7; no step changes them -/
  platform : Platform
  /-- the model's own: the host's actions still to come (30_encoding.md R106; log 10) -/
  script : List HostAction
  /-- the model's own: what the host has read, newest first (log 10) -/
  reads : List HostRead
  /-- the model's own: the draw counter of the free values (log 6) -/
  fresh : Nat
deriving DecidableEq, Repr

/-- Why the machine stops outside the spec's own faults (which are next states, 60_exceptions.md R270). -/
inductive Fault where
  /-- Raised by a host load or store that leaves the `2^32` bytes of 20_memory.md R60 or touches an address the
  platform does not back (R69; log 16). Safe. -/
  | hostAccessOutsideMemory
deriving DecidableEq, Repr

/-- Why a step is refused. -/
inductive Refusal where
  /-- Raised by `exec` for an instruction without a meaning. Safe. -/
  | notModelled (mnemonic : String)
  /-- Raised by a command with a region, or a host access, that touches an address that is not plain memory
  (20_memory.md R64, 93_implementation_defined.md U5: refuse). Safe. -/
  | notPlainMemory
  /-- Raised by a register access that is not 32 bits wide or not aligned (10_state.md R32, U7: refuse;
  log 9). Safe. -/
  | registerAccessShape
  /-- Raised by a host register access outside the 256-byte window (10_state.md R31): another device's
  (log 9). Safe. -/
  | outsideRegisterWindow
  /-- Raised by a host access to the running command's regions while `BUSY = 1` (70_reset_and_hazards.md R306, U3:
  refuse; log 8). Safe. -/
  | regionTouchedWhileBusy
deriving DecidableEq, Repr

/-- `STATUS` after reset (10_state.md R37). -/
def Status.reset : Status := { busy := false, done := false, fault := false, ovr := false, cause := 0#4 }

/-- `CTRL` after reset (10_state.md R37). -/
def Ctrl.reset : Ctrl := { die := false, fie := false }

/-- The machine after a hardware reset on a given platform (70_reset_and_hazards.md R300), with nothing stored in
memory and no host action pending. -/
def State.resetOn (p : Platform) : State :=
  { x := Vector.replicate 8 0#32, res0 := 0#32, res1 := 0#32, ctrl := Ctrl.reset, status := Status.reset,
    cmd := 0#32, errinfo := 0#32, mem := [], platform := p, script := [], reads := [], fresh := 0 }

/-- The machine right after reset (70_reset_and_hazards.md R300). The platform is that of logs 1 to 4. -/
def State.reset : State := State.resetOn defaultPlatform

end Sys2Proof.Machine
end

