-- ==== Sys2Proof/Machine/Flags.lean ====
section
/-! DEFINITION. `STATUS`, `CTRL` and the interrupt line: their words, what a host write does to them, and the flag
changes of a command's life (10_state.md R24 to R26, R33; 60_exceptions.md R261, R270, R274; 70_reset_and_hazards.md
R304). -/

namespace Sys2Proof.Machine

/-- The cause codes of 60_exceptions.md R261. -/
def causeCode : Cause → BitVec 4
  | .outOfMemory => 1#4
  | .invalidData => 2#4
  | .codeLengthOverflow => 3#4
  | .truncatedStream => 4#4
  | .illegalCommand => 5#4
  | .badOperand => 6#4

/-- `STATUS` as the host reads it (10_state.md R24): `BUSY` 0, `DONE` 1, `FAULT` 2, `OVR` 3, `CAUSE` 11:8, the rest 0. -/
def statusWord (t : Status) : Word :=
  0#20 ++ t.cause ++ 0#4 ++ BitVec.ofBool t.ovr ++ BitVec.ofBool t.fault ++ BitVec.ofBool t.done ++
    BitVec.ofBool t.busy

/-- `CTRL` as the host reads it (10_state.md R25): `DIE` 0, `FIE` 1, the rest 0. -/
def ctrlWord (c : Ctrl) : Word := 0#30 ++ BitVec.ofBool c.fie ++ BitVec.ofBool c.die

/-- The enables that a host write of `w` to `CTRL` without `SRST` leaves (10_state.md R25). -/
def ctrlOf (w : Word) : Ctrl := { die := w.getLsbD 0, fie := w.getLsbD 1 }

/-- The flags when a command is accepted (10_state.md R26): `BUSY <- 1`, `DONE <- 0`. -/
def flagsAccepted (t : Status) : Status := { t with busy := true, done := false }

/-- The flags when a command completes (70_reset_and_hazards.md R304). -/
def flagsCompleted (t : Status) : Status := { t with busy := false, done := true, cause := 0#4 }

/-- The flags at fault entry (60_exceptions.md R270). -/
def flagsFaulted (c : Cause) (t : Status) : Status := { t with busy := false, fault := true, cause := causeCode c }

/-- The flags after a dropped register write (10_state.md R34). -/
def flagsOverrun (t : Status) : Status := { t with ovr := true }

/-- The three run states of 10_state.md R33, and the combination that never occurs. -/
inductive RunState where
  | idle
  | busy
  | faulted
  | impossible
deriving DecidableEq, Repr

/-- The run state as a function of `BUSY` and `FAULT` (10_state.md R33). -/
def runState (s : State) : RunState :=
  match s.status.busy, s.status.fault with
  | false, false => .idle
  | true, false => .busy
  | false, true => .faulted
  | true, true => .impossible

/-- The interrupt output (60_exceptions.md R274): `(DIE and DONE) or (FIE and FAULT)`. -/
def irq (s : State) : Bool := (s.ctrl.die && s.status.done) || (s.ctrl.fie && s.status.fault)

end Sys2Proof.Machine
end

