-- ==== Sys2Proof/Machine/Operands.lean ====
section
/-! DEFINITION. Operand registers as numbers (10_state.md R21), regions and their checks (20_memory.md R65, R67), what
the platform says of a region (R64, R69), and the regions each command names by its registers (30_encoding.md R105). -/

namespace Sys2Proof.Machine

/-- `x[i]` as the unsigned number a command reads (10_state.md R21). -/
def State.operand (s : State) (i : Fin 8) : Nat := (s.x[i]).toNat

/-- The region of `size` bytes whose base is in `x[i]` (20_memory.md R65). -/
def State.regionAt (s : State) (i : Fin 8) (size : Nat) : Region := ⟨s.operand i, size⟩

/-- Is address `a` in the region? (20_memory.md R65) -/
def inRegion (r : Region) (a : Nat) : Bool := decide (r.base ≤ a) && decide (a < r.base + r.size)

/-- In range: `b + s ≤ 2^32` without wrap-around (20_memory.md R65). -/
def inRange (r : Region) : Bool := decide (r.base + r.size ≤ memorySize)

/-- Two regions share an address (20_memory.md R65); an empty region overlaps nothing. -/
def overlaps (r q : Region) : Bool :=
  decide (0 < r.size) && decide (0 < q.size) && decide (r.base < q.base + q.size) && decide (q.base < r.base + r.size)

/-- No two regions of the list overlap. -/
def pairwiseDisjoint : List Region → Bool
  | [] => true
  | r :: rs => rs.all (fun q => !overlaps r q) && pairwiseDisjoint rs

/-- The region check of 20_memory.md R67: (a) all in range, (b) no output overlaps an input, (c) no two outputs overlap. -/
def regionCheck (ins outs : List Region) : Bool :=
  ins.all inRange && outs.all inRange && outs.all (fun o => ins.all fun i => !overlaps o i) && pairwiseDisjoint outs

/-- What the platform says of a set of regions. -/
inductive Backing where
  /-- every address is plain memory -/
  | memory
  /-- some address is not admitted (20_memory.md R69) -/
  | unbacked
  /-- some address is not plain memory (20_memory.md R64) -/
  | device
deriving DecidableEq, Repr

/-- Does some region touch some area? -/
def touchesAny (areas rs : List Region) : Bool := rs.any fun r => areas.any fun d => overlaps r d

/-- The backing of a set of regions; a device address decides before an unbacked one (log 4). -/
def backing (p : Platform) (rs : List Region) : Backing :=
  if touchesAny p.devices rs then .device
  else if touchesAny p.unbacked rs then .unbacked
  else .memory

/-- `floor((m + 7)/8)`, the bytes a stream of `m` bits takes (43_bitstream.md R254). -/
def bytesForBits (m : Nat) : Nat := (m + 7) / 8

/-- `SA.*`: the text `Reg(x[0], n)` (40_suffix_sorter.md R137). -/
def saIn (s : State) : Region := s.regionAt 0 (s.operand 1)
/-- `SA.*`: the suffix array `Reg(x[2], 4*N)` (40_suffix_sorter.md R137). -/
def saOut (s : State) : Region := s.regionAt 2 (4 * (s.operand 1 + 1))
/-- `BWT.ENC.*`: the text `Reg(x[0], n)` (41_bwt_codec.md R172). -/
def bwtEncIn (s : State) : Region := s.regionAt 0 (s.operand 1)
/-- `BWT.ENC.*`: the buffer `L`, `Reg(x[2], N)` (41_bwt_codec.md R172). -/
def bwtEncOut (s : State) : Region := s.regionAt 2 (s.operand 1 + 1)
/-- `BWT.DEC.*`: the buffer `L`, `Reg(x[0], N)` (41_bwt_codec.md R183). -/
def bwtDecIn (s : State) : Region := s.regionAt 0 (s.operand 1)
/-- `BWT.DEC.*`: the text with its sentinel, `Reg(x[2], N)` (41_bwt_codec.md R183). -/
def bwtDecOut (s : State) : Region := s.regionAt 2 (s.operand 1)
/-- `HUF.BUILD`: `freq[]`, `Reg(x[0], 1024)` (42_huffman_codec.md R208). -/
def buildIn (s : State) : Region := s.regionAt 0 1024
/-- `HUF.BUILD`: `length[]`, `Reg(x[2], 256)` (42_huffman_codec.md R208). -/
def buildOutLengths (s : State) : Region := s.regionAt 2 256
/-- `HUF.BUILD`: `code[]`, `Reg(x[3], 1024)` (42_huffman_codec.md R208). -/
def buildOutCodes (s : State) : Region := s.regionAt 3 1024
/-- `HUF.CANON`: `length[]`, `Reg(x[0], 256)` (42_huffman_codec.md R209). -/
def canonIn (s : State) : Region := s.regionAt 0 256
/-- `HUF.CANON`: `code[]`, `Reg(x[2], 1024)` (42_huffman_codec.md R209). -/
def canonOut (s : State) : Region := s.regionAt 2 1024
/-- `HUF.ENC`: the symbols, `length[]` and `code[]` (42_huffman_codec.md R210). -/
def encIns (s : State) : List Region := [s.regionAt 0 (s.operand 1), s.regionAt 3 256, s.regionAt 4 1024]
/-- `HUF.ENC`: the bit stream of `m` bits, `Reg(x[2], ceil(m/8))` (42_huffman_codec.md R210). -/
def encOut (s : State) (m : Nat) : Region := s.regionAt 2 (bytesForBits m)
/-- `HUF.DEC`, `HUF.LEN`: the bit stream and `length[]` (42_huffman_codec.md R213, R214). -/
def decIns (s : State) : List Region := [s.regionAt 0 (bytesForBits (s.operand 1)), s.regionAt 3 256]
/-- `HUF.DEC`: the `cnt` decoded symbols, `Reg(x[2], cnt)` (42_huffman_codec.md R213). -/
def decOut (s : State) (cnt : Nat) : Region := s.regionAt 2 cnt

end Sys2Proof.Machine
end

