-- ==== Sys2Proof/Machine/Ops.lean ====
section
/-! DEFINITION. The operations over memory (20_memory.md R61, R62, R66) and registers, how a command ends
(70_reset_and_hazards.md R304, 60_exceptions.md R270), and the acknowledge (R272). -/

namespace Sys2Proof.Machine

/-- `MemRead(a, 1)` (20_memory.md R61). -/
def Memory.read : Memory → Nat → Byte
  | [], _ => unlistedByte
  | (k, v) :: m, a => if k = a then v else Memory.read m a

/-- `MemWrite(a, 1, v)` (20_memory.md R61), keeping the canonical form. -/
def Memory.write : Memory → Nat → Byte → Memory
  | [], a, v => if v = unlistedByte then [] else [(a, v)]
  | (k, w) :: m, a, v =>
    if a < k then (if v = unlistedByte then (k, w) :: m else (a, v) :: (k, w) :: m)
    else if a = k then (if v = unlistedByte then m else (a, v) :: m)
    else (k, w) :: Memory.write m a v

/-- The bytes at `base .. base + n - 1` (20_memory.md R66). -/
def Memory.readBytes (m : Memory) (base n : Nat) : List Byte := (List.range n).map fun i => m.read (base + i)

/-- Bytes stored at ascending addresses from `base` (20_memory.md R66). -/
def Memory.writeBytes : Memory → Nat → List Byte → Memory
  | m, _, [] => m
  | m, base, b :: bs => Memory.writeBytes (m.write base b) (base + 1) bs

/-- The little-endian number of four bytes (20_memory.md R62). -/
def wordOfBytes (b0 b1 b2 b3 : Byte) : Nat :=
  b0.toNat + 2 ^ 8 * b1.toNat + 2 ^ 16 * b2.toNat + 2 ^ 24 * b3.toNat

/-- `MemRead(a, 4)`, little-endian (20_memory.md R62). -/
def Memory.readWord (m : Memory) (a : Nat) : Nat :=
  wordOfBytes (m.read a) (m.read (a + 1)) (m.read (a + 2)) (m.read (a + 3))

/-- The `n` words of a word array at `base` (20_memory.md R66). -/
def Memory.readWords (m : Memory) (base n : Nat) : List Nat := (List.range n).map fun i => m.readWord (base + 4 * i)

/-- The four bytes that `MemWrite(a, 4, v)` stores, in ascending address order (20_memory.md R62). -/
def bytesOfWord (v : Nat) : List Byte :=
  [BitVec.ofNat 8 v, BitVec.ofNat 8 (v / 2 ^ 8), BitVec.ofNat 8 (v / 2 ^ 16), BitVec.ofNat 8 (v / 2 ^ 24)]

/-- The bytes of a word array (20_memory.md R66). -/
def bytesOfWords (ws : List Nat) : List Byte := ws.flatMap bytesOfWord

/-- Bytes to store at a base address: one output region's contents. -/
structure Store where
  base : Nat
  data : List Byte
deriving DecidableEq, Repr

/-- The output regions stored one after the other. -/
def storeAll (m : Memory) (stores : List Store) : Memory := stores.foldl (fun m t => m.writeBytes t.base t.data) m

/-- `complete` (70_reset_and_hazards.md R304), with the results and the memory the command wrote. -/
def completeWith (m : Memory) (r0 r1 : Word) (s : State) : State :=
  { s with mem := m, res0 := r0, res1 := r1, errinfo := 0#32, status := flagsCompleted s.status }

/-- Fault entry, `raise <Cause>(info)` (60_exceptions.md R270): nothing else is saved and control goes nowhere. -/
def raiseFault (c : Cause) (info r0 r1 : Word) (s : State) : State :=
  { s with res0 := r0, res1 := r1, errinfo := info, status := flagsFaulted c s.status }

/-- The return from a fault: the host's write of 1 to `STATUS.FAULT` (60_exceptions.md R272); nothing is restored. -/
def acknowledgeFault (s : State) : State := { s with status := { s.status with fault := false } }

/-- The host's write of 1 to `STATUS.DONE` (10_state.md R24). -/
def clearDone (s : State) : State := { s with status := { s.status with done := false } }

/-- The host's write of 1 to `STATUS.OVR` (10_state.md R24). -/
def clearOverrun (s : State) : State := { s with status := { s.status with ovr := false } }

/-- How a command's procedure ends. -/
inductive Ending where
  /-- `complete` with the output regions and `RES0`, `RES1` (70_reset_and_hazards.md R304). -/
  | completes (stores : List Store) (r0 r1 : Word)
  /-- `raise` of a cause other than `TruncatedStream`: nothing is written, `RES0 = RES1 = 0` (60_exceptions.md R270, R271). -/
  | faults (c : Cause) (info : Word)
  /-- `raise TruncatedStream(start)` after the partial output (60_exceptions.md R270, R271). -/
  | truncates (stores : List Store) (cnt start : Word)
  /-- A region touches an address the platform does not admit: the engine takes no step (20_memory.md R69). -/
  | stuck
  /-- A region touches an address that is not plain memory (20_memory.md R64). -/
  | notPlain
deriving DecidableEq, Repr

/-- The outcome of an ending. A stuck engine stays BUSY in the state it is in (20_memory.md R69; log 14). -/
def conclude (s : State) : Ending → Host.Outcome State Fault Refusal
  | .completes stores r0 r1 => .next (completeWith (storeAll s.mem stores) r0 r1 s)
  | .faults c info => .next (raiseFault c info 0#32 0#32 s)
  | .truncates stores cnt start =>
    .next (raiseFault .truncatedStream start cnt start { s with mem := storeAll s.mem stores })
  | .stuck => .next s
  | .notPlain => .refused .notPlainMemory

/-- The rest of a procedure, if the platform backs the regions with plain memory (20_memory.md R64, R69; log 3). -/
def onBacked (s : State) (rs : List Region) (e : Ending) : Ending :=
  match backing s.platform rs with
  | .device => .notPlain
  | .unbacked => .stuck
  | .memory => e

/-- `raise InvalidData(sub)` with a sub-code of 60_exceptions.md R268. -/
def invalidData (sub : Nat) : Ending := .faults .invalidData (toWord sub)

end Sys2Proof.Machine
end

