-- ==== Sys2Proof/Machine/SuffixMethods.lean ====
section
/-! DEFINITION. The extended text and its suffix order (00_scope.md R13; 40_suffix_sorter.md R130 to R132), and the four
methods that compute the suffix array (R141 to R145). -/

namespace Sys2Proof.Machine

/-- The symbol domain: the 256 byte values and the sentinel `$` (00_scope.md R13). -/
inductive Sym where
  | sentinel
  | byte (b : Byte)
deriving DecidableEq, Repr

/-- `key($) = 0`, `key(b) = b + 1`: the order of the symbols as numbers (00_scope.md R13). -/
def symKey : Sym → Nat
  | .sentinel => 0
  | .byte b => b.toNat + 1

/-- `T[0..N)`: the text followed by one `$` (40_suffix_sorter.md R130). -/
def extendedText (text : List Byte) : List Sym := text.map Sym.byte ++ [Sym.sentinel]

/-- Strict lexicographic order of two symbol sequences: the first index where they differ decides, and a sequence that
ends first is below (00_scope.md R13, 40_suffix_sorter.md R131). -/
def symsLt : List Sym → List Sym → Bool
  | [], [] => false
  | [], _ :: _ => true
  | _ :: _, [] => false
  | a :: as, b :: bs => if symKey a = symKey b then symsLt as bs else decide (symKey a < symKey b)

/-- `suffix(i) < suffix(j)` (40_suffix_sorter.md R131). -/
def suffixLt (T : List Sym) (i j : Nat) : Bool := symsLt (T.drop i) (T.drop j)

/-- `sa` is the suffix array of `T` (40_suffix_sorter.md R132): a permutation of `0 .. N-1` in strictly ascending suffix
order. -/
def IsSuffixArray (T : List Sym) (sa : List Nat) : Prop :=
  sa.Perm (List.range T.length) ∧ sa.Pairwise fun i j => suffixLt T i j = true

/-- Method NaiveComparison (40_suffix_sorter.md R141): the offsets sorted by direct comparison of their suffixes. -/
def naiveSort (T : List Sym) : List Nat :=
  (List.range T.length).insertionSort fun i j => suffixLt T j i = false

/-- The suffix array of `T` (40_suffix_sorter.md R132), which every strategy computes (R138). R146 lets a model use one
method for all four commands; this one uses R141's (log 11). -/
def suffixArray (T : List Sym) : List Nat := naiveSort T

/-- `CountingSort(list, key, K)` (40_suffix_sorter.md R142): the stable sort of `list` by a key in `0..K`, bucket by
bucket. An element whose key has no bucket is lost (R143). -/
def countingSort (list : List Nat) (key : Nat → Nat) (K : Nat) : List Nat :=
  (List.range (K + 1)).flatMap fun c => list.filter fun i => key i = c

/-- Position and rank along a sorted list: the rank grows by one wherever a neighbour differs (R142). -/
def rankPairs (same : Nat → Nat → Bool) : Nat → Nat → List Nat → List (Nat × Nat)
  | _, _, [] => []
  | prev, r, p :: ps =>
    let r' := if same prev p then r else r + 1
    (p, r') :: rankPairs same p r' ps

/-- The table `rank[0..N)` of a sorted list of positions, ranks from 1 (40_suffix_sorter.md R142). -/
def rankTable (N : Nat) (sa : List Nat) (same : Nat → Nat → Bool) : List Nat :=
  match sa with
  | [] => []
  | p :: ps =>
    let pairs := (p, 1) :: rankPairs same p 1 ps
    (List.range N).map fun i => (List.lookup i pairs).getD 0

/-- The doubling rounds of 40_suffix_sorter.md R142 with window `k`; `fuel` bounds their number. -/
def doublingRounds (N : Nat) : Nat → Nat → List Nat → List Nat → List Nat
  | 0, _, sa, _ => sa
  | fuel + 1, k, sa, rank =>
    if rank.getD (sa.getD (N - 1) 0) 0 = N then sa
    else
      let key1 := fun i => rank.getD i 0
      let key2 := fun i => if i + k < N then rank.getD (i + k) 0 else 0
      let sa' := countingSort (countingSort sa key2 N) key1 N
      let rank' := rankTable N sa' fun a b => key1 a = key1 b && key2 a = key2 b
      doublingRounds N fuel (2 * k) sa' rank'

/-- Method PrefixDoubling (40_suffix_sorter.md R142, key domains R143). -/
def prefixDoublingSort (T : List Sym) : List Nat :=
  let N := T.length
  let key0 := fun i => symKey (T.getD i Sym.sentinel)
  let sa := countingSort (List.range N) key0 256
  let rank := rankTable N sa fun a b => key0 a = key0 b
  doublingRounds N (N + 1) 1 sa rank

/-- The types of the positions of `S`, `true` for S-type (40_suffix_sorter.md R144 step 1); the last is S-type. -/
def suffixTypes : List Nat → List Bool
  | [] => []
  | [_] => [true]
  | a :: b :: S =>
    let ts := suffixTypes (b :: S)
    (decide (a < b) || (decide (a = b) && ts.headD true)) :: ts

/-- `isLMS(i)` (40_suffix_sorter.md R144). -/
def isLms (t : List Bool) (i : Nat) : Bool := decide (1 ≤ i) && t.getD i false && !t.getD (i - 1) true

/-- The bucket heads `head(c)`, `c` in `0..K-1` (40_suffix_sorter.md R144). -/
def bucketHeads (S : List Nat) (K : Nat) : List Nat := (List.range K).map fun c => S.countP fun d => d < c

/-- The bucket tails `tail(c)` (40_suffix_sorter.md R144); the value of an empty bucket is never used. -/
def bucketTails (S : List Nat) (K : Nat) : List Nat :=
  (List.range K).map fun c => (S.countP fun d => d < c) + S.count c - 1

/-- The slots of the array under construction (`none` is EMPTY) and the running bucket positions. -/
structure Buckets where
  slots : List (Option Nat)
  next : List Nat
deriving DecidableEq, Repr

/-- `A[h[S[p]]] <- p; h[S[p]] <- h[S[p]] + 1` (40_suffix_sorter.md R144). -/
def placeAtHead (S : List Nat) (a : Buckets) (p : Nat) : Buckets :=
  let c := S.getD p 0
  let at_ := a.next.getD c 0
  { slots := a.slots.set at_ (some p), next := a.next.set c (at_ + 1) }

/-- `A[e[S[p]]] <- p; e[S[p]] <- e[S[p]] - 1` (40_suffix_sorter.md R144). -/
def placeAtTail (S : List Nat) (a : Buckets) (p : Nat) : Buckets :=
  let c := S.getD p 0
  let at_ := a.next.getD c 0
  { slots := a.slots.set at_ (some p), next := a.next.set c (at_ - 1) }

/-- The positions seeded at the bucket tails of an empty array, in the given order (40_suffix_sorter.md R144). -/
def seedTails (S : List Nat) (K : Nat) (ps : List Nat) : List (Option Nat) :=
  (ps.foldl (placeAtTail S) { slots := List.replicate S.length none, next := bucketTails S K }).slots

/-- One slot of the left-to-right scan: places the L-type predecessor (40_suffix_sorter.md R144). -/
def induceLStep (S : List Nat) (t : List Bool) (a : Buckets) (j : Nat) : Buckets :=
  match a.slots.getD j none with
  | none => a
  | some p => if 1 ≤ p ∧ t.getD (p - 1) true = false then placeAtHead S a (p - 1) else a

/-- One slot of the right-to-left scan: places the S-type predecessor (40_suffix_sorter.md R144). -/
def induceSStep (S : List Nat) (t : List Bool) (a : Buckets) (j : Nat) : Buckets :=
  match a.slots.getD j none with
  | none => a
  | some p => if 1 ≤ p ∧ t.getD (p - 1) false = true then placeAtTail S a (p - 1) else a

/-- `Induce(A)` (40_suffix_sorter.md R144). -/
def induce (S : List Nat) (K : Nat) (t : List Bool) (slots : List (Option Nat)) : List (Option Nat) :=
  let js := List.range S.length
  let l := js.foldl (induceLStep S t) { slots := slots, next := bucketHeads S K }
  (js.reverse.foldl (induceSStep S t) { slots := l.slots, next := bucketTails S K }).slots

/-- The end of the LMS substring of `p`: the next LMS position (40_suffix_sorter.md R144). -/
def lmsEnd (lms : List Nat) (p : Nat) : Nat := (lms.find? fun q => p < q).getD p

/-- `SameLMS(a, b)` (40_suffix_sorter.md R144). -/
def sameLms (S : List Nat) (t : List Bool) (lms : List Nat) (a b : Nat) : Bool :=
  let last := S.length - 1
  if a = last ∨ b = last then decide (a = b)
  else
    decide (lmsEnd lms a - a = lmsEnd lms b - b) &&
      (List.range (lmsEnd lms a - a + 1)).all fun d =>
        decide (S.getD (a + d) 0 = S.getD (b + d) 0) && decide (t.getD (a + d) true = t.getD (b + d) true)

/-- Position and name along the LMS positions in sorted order, names from 0 (40_suffix_sorter.md R144 step 3). -/
def lmsNames (same : Nat → Nat → Bool) : List Nat → List (Nat × Nat)
  | [] => []
  | p :: ps => (p, 0) :: rankPairs same p 0 ps

/-- `SAIS(S, N, K)` (40_suffix_sorter.md R144); `fuel` bounds the recursion depth. -/
def inducedSort : Nat → List Nat → Nat → List Nat
  | 0, S, _ => List.range S.length
  | fuel + 1, S, K =>
    if S.length = 1 then [0]
    else
      let t := suffixTypes S
      let lms := (List.range S.length).filter (isLms t)
      let sorted := ((induce S K t (seedTails S K lms.reverse)).filterMap id).filter (isLms t)
      let names := lmsNames (sameLms S t lms) sorted
      let S1 := lms.map fun p => (List.lookup p names).getD 0
      let nameCount := S1.foldl Nat.max 0 + 1
      let SA1 :=
        if nameCount = lms.length then (List.range lms.length).map fun r => S1.idxOf r
        else inducedSort fuel S1 nameCount
      let ordered := SA1.map fun q => lms.getD q 0
      (induce S K t (seedTails S K ordered.reverse)).filterMap id

/-- Method InducedSort (SA-IS) at the top level: `S[i] = key(T[i])`, `K = 257` (40_suffix_sorter.md R144). -/
def inducedSortText (T : List Sym) : List Nat := inducedSort T.length (T.map symKey) 257

/-- `pos(j)` of 40_suffix_sorter.md R145. -/
def samplePos (n0 j : Nat) : Nat := if j < n0 then 3 * j + 1 else 3 * (j - n0) + 2

/-- The index in `R` of the sample position `i` (40_suffix_sorter.md R145). -/
def sampleIndex (n0 i : Nat) : Nat := if i % 3 = 1 then i / 3 else i / 3 + n0

/-- The merge of two sorted lists, taking the first list's head when `less` says so (40_suffix_sorter.md R145). -/
def mergeBy (less : Nat → Nat → Bool) : Nat → List Nat → List Nat → List Nat
  | 0, as, bs => as ++ bs
  | _ + 1, [], bs => bs
  | _ + 1, as, [] => as
  | fuel + 1, a :: as, b :: bs =>
    if less a b then a :: mergeBy less fuel as (b :: bs) else b :: mergeBy less fuel (a :: as) bs

/-- Lexicographic order of a pair. -/
def pairLt (a b c d : Nat) : Bool := decide (a < c) || (decide (a = c) && decide (b < d))

/-- `DC3(s, n, K)` (40_suffix_sorter.md R145), `s` read as 0 past its end; `fuel` bounds the recursion depth. -/
def skewSort : Nat → List Nat → Nat → List Nat
  | 0, s, _ => List.range s.length
  | fuel + 1, s, K =>
    let n := s.length
    if n = 0 then []
    else if n = 1 then [0]
    else
      let S := fun i => s.getD i 0
      let n0 := (n + 2) / 3
      let n1 := (n + 1) / 3
      let n02 := n0 + n / 3
      let bound := n + (n0 - n1)
      let s12 := (List.range bound).filter fun i => decide (i % 3 ≠ 0)
      let a := countingSort (countingSort (countingSort s12 (fun i => S (i + 2)) K) (fun i => S (i + 1)) K) S K
      let same := fun p q => decide (S p = S q) && decide (S (p + 1) = S (q + 1)) && decide (S (p + 2) = S (q + 2))
      let names :=
        match a with
        | [] => []
        | p :: ps => (p, 1) :: rankPairs same p 1 ps
      let R := (List.range n02).map fun j => (List.lookup (samplePos n0 j) names).getD 0
      let nameCount := R.foldl Nat.max 0
      let SAR :=
        if nameCount < n02 then skewSort fuel R nameCount
        else (List.range n02).map fun r => R.idxOf (r + 1)
      let rankPairsOfSamples := SAR.zipIdx.map fun c => (samplePos n0 c.1, c.2 + 1)
      let rk := fun i => (List.lookup i rankPairsOfSamples).getD 0
      let s0 := countingSort ((SAR.filter fun j => decide (j < n0)).map fun j => samplePos n0 j - 1) S K
      let sa12 := (SAR.map (samplePos n0)).filter fun p => decide (p < n)
      let less := fun i j =>
        if i % 3 = 1 then pairLt (S i) (rk (i + 1)) (S j) (rk (j + 1))
        else decide (S i < S j) || (decide (S i = S j) && pairLt (S (i + 1)) (rk (i + 2)) (S (j + 1)) (rk (j + 2)))
      mergeBy less n sa12 s0

/-- Method Skew/DC3 at the top level: `s[i] = key(T[i]) + 1`, `K = 257` (40_suffix_sorter.md R145). -/
def skewSortText (T : List Sym) : List Nat := skewSort T.length (T.map fun c => symKey c + 1) 257

end Sys2Proof.Machine
end

