-- ==== Sys2Proof/Machine/SuffixSorter.lean ====
section
/-! DEFINITION. The commands `SA.NAIVE`, `SA.PD`, `SA.IS`, `SA.DC3` (40_suffix_sorter.md R133 to R137). -/

namespace Sys2Proof.Machine

/-- The text a `SA.*` or `BWT.ENC.*` command reads: `n` bytes at `x[0]` (40_suffix_sorter.md R137). -/
def textOf (s : State) : List Byte := s.mem.readBytes (s.operand 0) (s.operand 1)

/-- `SAExec(M)` (40_suffix_sorter.md R137). -/
def saEnding (s : State) : Ending :=
  if s.operand 1 + 1 > s.platform.nmax then .faults .outOfMemory s.x[1]
  else if !regionCheck [saIn s] [saOut s] then .faults .badOperand 0#32
  else onBacked s [saIn s, saOut s]
    (.completes [⟨s.operand 2, bytesOfWords (suffixArray (extendedText (textOf s)))⟩] (toWord (s.operand 1 + 1)) 0#32)

/-- `SA.NAIVE` (40_suffix_sorter.md R133). -/
def execSaNaive (s : State) : Host.Outcome State Fault Refusal := conclude s (saEnding s)

/-- `SA.PD` (40_suffix_sorter.md R134). -/
def execSaPd (s : State) : Host.Outcome State Fault Refusal := conclude s (saEnding s)

/-- `SA.IS` (40_suffix_sorter.md R135). -/
def execSaIs (s : State) : Host.Outcome State Fault Refusal := conclude s (saEnding s)

/-- `SA.DC3` (40_suffix_sorter.md R136). -/
def execSaDc3 (s : State) : Host.Outcome State Fault Refusal := conclude s (saEnding s)

end Sys2Proof.Machine
end

