-- ==== Sys2Proof/Machine/BWTCodec.lean ====
section
/-! DEFINITION. The forward transform `BWT.ENC.*` (41_bwt_codec.md R170 to R176) and the LF-mapping inverse
`BWT.DEC.*` (R178 to R183). -/

namespace Sys2Proof.Machine

/-- `L` from a suffix array (41_bwt_codec.md R170, R172): the byte before each suffix, and the sentinel byte at row
`primary`. -/
def bwtBytes (text : List Byte) (sa : List Nat) : List Byte :=
  sa.map fun p => if p = 0 then sentinelByte else text.getD (p - 1) 0#8

/-- The primary index: the row with `SA[i] = 0` (41_bwt_codec.md R170). -/
def primaryIndex (sa : List Nat) : Nat := sa.idxOf 0

/-- `BWTEncExec(M)` (41_bwt_codec.md R172). -/
def bwtEncEnding (s : State) : Ending :=
  if s.operand 1 + 1 > s.platform.nmax then .faults .outOfMemory s.x[1]
  else if !regionCheck [bwtEncIn s] [bwtEncOut s] then .faults .badOperand 0#32
  else onBacked s [bwtEncIn s, bwtEncOut s]
    (if (textOf s).contains sentinelByte then invalidData 1
     else
      let sa := suffixArray (extendedText (textOf s))
      .completes [⟨s.operand 2, bwtBytes (textOf s) sa⟩] (toWord (s.operand 1 + 1)) (toWord (primaryIndex sa)))

/-- `BWT.ENC.NAIVE` (41_bwt_codec.md R173). -/
def execBwtEncNaive (s : State) : Host.Outcome State Fault Refusal := conclude s (bwtEncEnding s)

/-- `BWT.ENC.PD` (41_bwt_codec.md R174). -/
def execBwtEncPd (s : State) : Host.Outcome State Fault Refusal := conclude s (bwtEncEnding s)

/-- `BWT.ENC.IS` (41_bwt_codec.md R175). -/
def execBwtEncIs (s : State) : Host.Outcome State Fault Refusal := conclude s (bwtEncEnding s)

/-- `BWT.ENC.DC3` (41_bwt_codec.md R176). -/
def execBwtEncDc3 (s : State) : Host.Outcome State Fault Refusal := conclude s (bwtEncEnding s)

/-- `count[c]` (41_bwt_codec.md R178). -/
def byteCount (L : List Byte) (c : Byte) : Nat := L.count c

/-- `C[c] = count[0] + ... + count[c-1]` (41_bwt_codec.md R178). -/
def firstRow (L : List Byte) (c : Byte) : Nat :=
  ((List.range c.toNat).map fun d => byteCount L (BitVec.ofNat 8 d)).sum

/-- `LF[0..N)` in one left-to-right pass with a running tally `occ[]` of 256 entries (41_bwt_codec.md R178). -/
def lfPass (L : List Byte) : List Nat → List Byte → List Nat
  | _, [] => []
  | occ, c :: cs =>
    (firstRow L c + occ.getD c.toNat 0) :: lfPass L (occ.set c.toNat (occ.getD c.toNat 0 + 1)) cs

/-- `LF[]` (41_bwt_codec.md R178). -/
def lfMapping (L : List Byte) : List Nat := lfPass L (List.replicate alphabet 0) L

/-- The backward walk of 41_bwt_codec.md R179 from row `p`: `left` steps to go, at `row`, with what has been emitted so
far in place at the end of the output; `none` if the walk is back at `p` before its last step (R180 (e)). -/
def walkBack (L : List Byte) (lf : List Nat) (p : Nat) : Nat → Nat → List Byte → Option (List Byte)
  | 0, _, out => some out
  | left + 1, row, out =>
    if out ≠ [] ∧ row = p then none
    else walkBack L lf p left (lf.getD row 0) (L.getD row 0#8 :: out)

/-- The decoded text with its sentinel (41_bwt_codec.md R179). -/
def inverseBwt (L : List Byte) (p : Nat) : Option (List Byte) := walkBack L (lfMapping L) p L.length p []

/-- The buffer `L` that a `BWT.DEC.*` command reads: `N` bytes at `x[0]` (41_bwt_codec.md R183). -/
def bwtOf (s : State) : List Byte := s.mem.readBytes (s.operand 0) (s.operand 1)

/-- The walk and the end of `BWTDecExec` (41_bwt_codec.md R183), once the start row is known. -/
def bwtDecWalk (s : State) (p : Nat) : Ending :=
  match inverseBwt (bwtOf s) p with
  | none => invalidData 6
  | some out => .completes [⟨s.operand 2, out⟩] (toWord (s.operand 1)) (toWord p)

/-- The data checks and the walk of `BWTDecExec(P)`, in the order of 41_bwt_codec.md R180: the start row is `x[3]`. -/
def bwtDecPData (s : State) : Ending :=
  if s.operand 1 = 0 then invalidData 2
  else if s.operand 3 ≥ s.operand 1 then invalidData 3
  else if byteCount (bwtOf s) sentinelByte ≠ 1 then invalidData 4
  else if (bwtOf s).getD (s.operand 3) 0#8 ≠ sentinelByte then invalidData 5
  else bwtDecWalk s (s.operand 3)

/-- The data checks and the walk of `BWTDecExec(S)`: the start row is the one row that holds the sentinel
(41_bwt_codec.md R180, R183). -/
def bwtDecSData (s : State) : Ending :=
  if s.operand 1 = 0 then invalidData 2
  else if byteCount (bwtOf s) sentinelByte ≠ 1 then invalidData 4
  else bwtDecWalk s ((bwtOf s).idxOf sentinelByte)

/-- The checks that both variants of `BWTDecExec` make first (41_bwt_codec.md R183). -/
def bwtDecChecked (s : State) (e : Ending) : Ending :=
  if s.operand 1 > s.platform.nmax then .faults .outOfMemory s.x[1]
  else if !regionCheck [bwtDecIn s] [bwtDecOut s] then .faults .badOperand 0#32
  else onBacked s [bwtDecIn s, bwtDecOut s] e

/-- `BWTDecExec(P)` (41_bwt_codec.md R183). -/
def bwtDecPEnding (s : State) : Ending := bwtDecChecked s (bwtDecPData s)

/-- `BWTDecExec(S)` (41_bwt_codec.md R183). -/
def bwtDecSEnding (s : State) : Ending := bwtDecChecked s (bwtDecSData s)

/-- `BWT.DEC.P` (41_bwt_codec.md R181). -/
def execBwtDecP (s : State) : Host.Outcome State Fault Refusal := conclude s (bwtDecPEnding s)

/-- `BWT.DEC.S` (41_bwt_codec.md R182). -/
def execBwtDecS (s : State) : Host.Outcome State Fault Refusal := conclude s (bwtDecSEnding s)

end Sys2Proof.Machine
end

