-- ==== Sys2Proof/Machine/BitStream.lean ====
section
/-! DEFINITION. The bit packer and unpacker (43_bitstream.md R250 to R254). -/

namespace Sys2Proof.Machine

/-- The bit position of stream bit `i` in its byte: `7 - (i mod 8)` (43_bitstream.md R251). -/
def bitPosition (i : Nat) : Nat := 7 - i % 8

/-- `BitGet(bytes, i)` (43_bitstream.md R252). -/
def bitGet (bytes : List Byte) (i : Nat) : Bool := (bytes.getD (i / 8) 0#8).getLsbD (bitPosition i)

/-- A byte with one bit set to a value and the other seven as they were (43_bitstream.md R253). -/
def setBit (b : Byte) (pos : Nat) (v : Bool) : Byte :=
  if v then b ||| BitVec.twoPow 8 pos else b &&& ~~~(BitVec.twoPow 8 pos)

/-- `BitPut(buf, i, v)` (43_bitstream.md R253). -/
def bitPut (buf : List Byte) (i : Nat) (v : Bool) : List Byte :=
  buf.set (i / 8) (setBit (buf.getD (i / 8) 0#8) (bitPosition i) v)

/-- Bits put one after the other from stream position `pos` on (43_bitstream.md R253). -/
def putBits : List Byte → Nat → List Bool → List Byte
  | buf, _, [] => buf
  | buf, pos, v :: vs => putBits (bitPut buf pos v) (pos + 1) vs

/-- The stream of a bit sequence: `ceil(m/8)` bytes, packed into a zeroed buffer, pad bits 0 (43_bitstream.md R253, R254). -/
def packBits (bits : List Bool) : List Byte := putBits (List.replicate (bytesForBits bits.length) 0#8) 0 bits

/-- The bits `len-1` down to 0 of a code, the order in which they are put (43_bitstream.md R253). -/
def codeBits (code len : Nat) : List Bool := (List.range len).map fun k => code.testBit (len - 1 - k)

end Sys2Proof.Machine
end

