-- ==== Sys2Proof/Machine/HuffmanCodec.lean ====
section
/-! DEFINITION. `HUF.BUILD`, `HUF.CANON`, `HUF.ENC`, `HUF.DEC`, `HUF.LEN` (42_huffman_codec.md R200 to R214). -/

namespace Sys2Proof.Machine

/-- The Huffman tree: leaves hold a symbol, internal nodes none (42_huffman_codec.md R201). -/
inductive HuffTree where
  | leaf (symbol : Nat)
  | node (left right : HuffTree)
deriving DecidableEq, Repr

/-- A node of the queue with its frequency and its sequence number (42_huffman_codec.md R201). -/
structure HuffNode where
  freq : Nat
  seq : Nat
  tree : HuffTree
deriving DecidableEq, Repr

/-- `a` comes before `b`: the order of `(frequency, seq)` (42_huffman_codec.md R202). -/
def nodeBefore (a b : HuffNode) : Bool := decide (a.freq < b.freq) || (decide (a.freq = b.freq) && decide (a.seq < b.seq))

/-- Insertion into a queue kept in the order of 42_huffman_codec.md R202, so that its head is the minimum. -/
def insertNode (a : HuffNode) : List HuffNode → List HuffNode
  | [] => [a]
  | b :: q => if nodeBefore a b then a :: b :: q else b :: insertNode a q

/-- The merges of 42_huffman_codec.md R203, the next internal node being number `k`; `fuel` bounds their number. -/
def mergeNodes : Nat → Nat → List HuffNode → List HuffNode
  | fuel + 1, k, a :: b :: q =>
    mergeNodes fuel (k + 1) (insertNode ⟨a.freq + b.freq, 256 + k, .node a.tree b.tree⟩ q)
  | _, _, q => q

/-- Each leaf's symbol with its number of edges from the root (42_huffman_codec.md R203). -/
def leafDepths : HuffTree → Nat → List (Nat × Nat)
  | .leaf s, d => [(s, d)]
  | .node l r, d => leafDepths l (d + 1) ++ leafDepths r (d + 1)

/-- The set `P` of symbols with `freq[s] > 0`, ascending (42_huffman_codec.md R203). -/
def presentSymbols (freq : List Nat) : List Nat := (List.range alphabet).filter fun s => decide (0 < freq.getD s 0)

/-- The queue of the leaves (42_huffman_codec.md R203). -/
def leafQueue (freq : List Nat) : List HuffNode :=
  (presentSymbols freq).foldl (fun q s => insertNode ⟨freq.getD s 0, s, .leaf s⟩ q) []

/-- `HuffLengths(freq)` in its three cases (42_huffman_codec.md R203). -/
def huffLengths (freq : List Nat) : List Nat :=
  match presentSymbols freq with
  | [] => List.replicate alphabet 0
  | [s0] => (List.range alphabet).map fun s => if s = s0 then 1 else 0
  | _ =>
    match mergeNodes alphabet 0 (leafQueue freq) with
    | [] => List.replicate alphabet 0
    | root :: _ =>
      let depths := leafDepths root.tree 0
      (List.range alphabet).map fun s => (List.lookup s depths).getD 0

/-- `LenCheck`: the smallest symbol whose length exceeds `MAXLEN`, if any (42_huffman_codec.md R204). -/
def lengthOverflow (lens : List Nat) : Option Nat := lens.findIdx? fun l => decide (maxLen < l)

/-- `bl_count[L]`, with `bl_count[0]` taken as 0 (42_huffman_codec.md R205, 90_conflicts.md C3). -/
def blCount (lens : List Nat) (L : Nat) : Nat := if L = 0 then 0 else lens.count L

/-- `first_code[L]`, with `first_code[0] = 0` (42_huffman_codec.md R205). -/
def firstCode (lens : List Nat) : Nat → Nat
  | 0 => 0
  | L + 1 => (firstCode lens L + blCount lens L) * 2

/-- The codes in ascending symbol order, `next[L]` being the running `next_code[L]` (42_huffman_codec.md R205). -/
def assignCodes : List Nat → List Nat → List Nat
  | _, [] => []
  | next, l :: lens =>
    if l = 0 then 0 :: assignCodes next lens
    else next.getD l 0 :: assignCodes (next.set l (next.getD l 0 + 1)) lens

/-- `Canon(length)`: the table `code[]` (42_huffman_codec.md R205). -/
def canonicalCodes (lens : List Nat) : List Nat :=
  assignCodes ((List.range (maxLen + 1)).map (firstCode lens)) lens

/-- The Kraft sum `K`, the sum of `2^(MAXLEN - length[s])` over the present symbols (42_huffman_codec.md R206). -/
def kraftSum (lens : List Nat) : Nat := ((lens.filter fun l => decide (l ≠ 0)).map fun l => 2 ^ (maxLen - l)).sum

/-- `KraftCheck` fails: the table is over-subscribed (42_huffman_codec.md R206). -/
def oversubscribed (lens : List Nat) : Bool := decide (2 ^ maxLen < kraftSum lens)

/-- The number of present symbols (42_huffman_codec.md R208, R209: `RES0`). -/
def presentCount (lens : List Nat) : Nat := lens.countP fun l => decide (l ≠ 0)

/-- The largest length, 0 if no symbol is present (42_huffman_codec.md R208, R211: `RES1`, `LMAX`). -/
def maxLength (lens : List Nat) : Nat := lens.foldl Nat.max 0

/-- The 256 bytes of a length table in memory (20_memory.md R68). -/
def lengthTableAt (s : State) (base : Nat) : List Nat := (s.mem.readBytes base alphabet).map BitVec.toNat

/-- The bytes of a length table (20_memory.md R68). -/
def lengthBytes (lens : List Nat) : List Byte := lens.map (BitVec.ofNat 8)

/-- `raise CodeLengthOverflow(s)` where `LenCheck` fails, else the rest of the procedure (42_huffman_codec.md R204). -/
def lenChecked (lens : List Nat) (e : Ending) : Ending :=
  match lengthOverflow lens with
  | some sym => .faults .codeLengthOverflow (toWord sym)
  | none => e

/-- The frequency table `HUF.BUILD` reads (42_huffman_codec.md R208). -/
def freqOf (s : State) : List Nat := s.mem.readWords (s.operand 0) alphabet

/-- The procedure of `HUF.BUILD` (42_huffman_codec.md R208). -/
def buildEnding (s : State) : Ending :=
  if !regionCheck [buildIn s] [buildOutLengths s, buildOutCodes s] then .faults .badOperand 0#32
  else onBacked s [buildIn s, buildOutLengths s, buildOutCodes s]
    (let lens := huffLengths (freqOf s)
     lenChecked lens
      (.completes [⟨s.operand 2, lengthBytes lens⟩, ⟨s.operand 3, bytesOfWords (canonicalCodes lens)⟩]
        (toWord (presentCount lens)) (toWord (maxLength lens))))

/-- `HUF.BUILD` (42_huffman_codec.md R208). -/
def execHufBuild (s : State) : Host.Outcome State Fault Refusal := conclude s (buildEnding s)

/-- The procedure of `HUF.CANON` (42_huffman_codec.md R209). -/
def canonEnding (s : State) : Ending :=
  if !regionCheck [canonIn s] [canonOut s] then .faults .badOperand 0#32
  else onBacked s [canonIn s, canonOut s]
    (let lens := lengthTableAt s (s.operand 0)
     lenChecked lens
      (if oversubscribed lens then invalidData 8
       else .completes [⟨s.operand 2, bytesOfWords (canonicalCodes lens)⟩]
        (toWord (presentCount lens)) (toWord (maxLength lens))))

/-- `HUF.CANON` (42_huffman_codec.md R209). -/
def execHufCanon (s : State) : Host.Outcome State Fault Refusal := conclude s (canonEnding s)

/-- The symbols `HUF.ENC` reads (42_huffman_codec.md R210). -/
def symbolsOf (s : State) : List Byte := s.mem.readBytes (s.operand 0) (s.operand 1)

/-- The code word `HUF.ENC` finds for symbol `b`, `MemRead(x[4] + 4*b, 4)` (42_huffman_codec.md R210). -/
def encCode (s : State) (b : Byte) : Nat := s.mem.readWord (s.operand 4 + 4 * b.toNat)

/-- The length table of `HUF.ENC`, `HUF.DEC` and `HUF.LEN`, at `x[3]` (42_huffman_codec.md R210, R213). -/
def lengthsOf (s : State) : List Nat := lengthTableAt s (s.operand 3)

/-- The valid bit count `m` (42_huffman_codec.md R210). -/
def bitCount (lens : List Nat) (symbols : List Byte) : Nat := (symbols.map fun b => lens.getD b.toNat 0).sum

/-- The bits of the encoded symbols, in stream order (42_huffman_codec.md R210, 43_bitstream.md R253). -/
def encodedBits (code : Byte → Nat) (lens : List Nat) (symbols : List Byte) : List Bool :=
  symbols.flatMap fun b => codeBits (code b) (lens.getD b.toNat 0)

/-- Some symbol is absent from the code (42_huffman_codec.md R210). -/
def someAbsent (lens : List Nat) (symbols : List Byte) : Bool := symbols.any fun b => decide (lens.getD b.toNat 0 = 0)

/-- The output region of `HUF.ENC` checked and written, once `m` is known (42_huffman_codec.md R210, 20_memory.md R67). -/
def encWrite (s : State) (m : Nat) : Ending :=
  if !regionCheck (encIns s) [encOut s m] then .faults .badOperand 0#32
  else onBacked s [encOut s m]
    (.completes [⟨s.operand 2, packBits (encodedBits (encCode s) (lengthsOf s) (symbolsOf s))⟩]
      (toWord m) (toWord (bytesForBits m)))

/-- The data checks of `HUF.ENC` and what follows them (42_huffman_codec.md R210). -/
def encData (s : State) : Ending :=
  if someAbsent (lengthsOf s) (symbolsOf s) then invalidData 7
  else if bitCount (lengthsOf s) (symbolsOf s) > 2 ^ 32 - 1 then .faults .badOperand 0#32
  else encWrite s (bitCount (lengthsOf s) (symbolsOf s))

/-- The procedure of `HUF.ENC` (42_huffman_codec.md R210). -/
def encEnding (s : State) : Ending :=
  if !(encIns s).all inRange then .faults .badOperand 0#32
  else onBacked s (encIns s) (lenChecked (lengthsOf s) (encData s))

/-- `HUF.ENC` (42_huffman_codec.md R210). -/
def execHufEnc (s : State) : Host.Outcome State Fault Refusal := conclude s (encEnding s)

/-- `order[]`: the present symbols by `(length, symbol)` (42_huffman_codec.md R211). -/
def symbolOrder (lens : List Nat) : List Nat :=
  (List.range maxLen).flatMap fun k => (List.range alphabet).filter fun s => decide (lens.getD s 0 = k + 1)

/-- `sym_base[L] = bl_count[1] + ... + bl_count[L-1]` (42_huffman_codec.md R211). -/
def symBase (lens : List Nat) (L : Nat) : Nat := ((List.range L).map (blCount lens)).sum

/-- The derived tables of the decoder, entry `L` of each list for code length `L` (42_huffman_codec.md R211). -/
structure DecodeTables where
  order : List Nat
  count : List Nat
  minCode : List Nat
  symBase : List Nat
  lmax : Nat
deriving DecidableEq, Repr

/-- The decode tables of a length table (42_huffman_codec.md R211); `max_code[L]` is `minCode + count - 1`. -/
def decodeTables (lens : List Nat) : DecodeTables :=
  { order := symbolOrder lens
    count := (List.range (maxLen + 1)).map (blCount lens)
    minCode := (List.range (maxLen + 1)).map (firstCode lens)
    symBase := (List.range (maxLen + 1)).map (symBase lens)
    lmax := maxLength lens }

/-- The symbol that candidate `cur` of length `clen` resolves to, if it is in `[min_code[clen], max_code[clen]]`
(42_huffman_codec.md R211, R212). -/
def resolve (t : DecodeTables) (cur clen : Nat) : Option Byte :=
  let cnt := t.count.getD clen 0
  let lo := t.minCode.getD clen 0
  if 0 < cnt ∧ lo ≤ cur ∧ cur ≤ lo + cnt - 1 then
    some (BitVec.ofNat 8 (t.order.getD (t.symBase.getD clen 0 + (cur - lo)) 0))
  else none

/-- What the decode loop returns: the resolved symbols, and for `truncated(start)` the position (42_huffman_codec.md R212). -/
structure Decoded where
  symbols : List Byte
  truncatedAt : Option Nat
deriving DecidableEq, Repr

/-- The loop of 42_huffman_codec.md R212 with `left = nbits - pos` bits to go; `out` is newest first. -/
def decodeFrom (t : DecodeTables) (bits : List Byte) : Nat → Nat → Nat → Nat → Nat → List Byte → Decoded
  | 0, _, _, clen, start, out => ⟨out.reverse, if 0 < clen then some start else none⟩
  | left + 1, pos, cur, clen, start, out =>
    let cur' := 2 * cur + (bitGet bits pos).toNat
    let clen' := clen + 1
    match resolve t cur' clen' with
    | some sym => decodeFrom t bits left (pos + 1) 0 0 (pos + 1) (sym :: out)
    | none =>
      if t.lmax ≤ clen' then ⟨out.reverse, some start⟩
      else decodeFrom t bits left (pos + 1) cur' clen' start out

/-- `DecodeLoop(bits, nbits)` (42_huffman_codec.md R212). -/
def decodeLoop (lens : List Nat) (bits : List Byte) (nbits : Nat) : Decoded :=
  decodeFrom (decodeTables lens) bits nbits 0 0 0 0 []

/-- The stream bytes `HUF.DEC` and `HUF.LEN` read (42_huffman_codec.md R213). -/
def streamOf (s : State) : List Byte := s.mem.readBytes (s.operand 0) (bytesForBits (s.operand 1))

/-- The decoded symbols and verdict of a `HUF.DEC` or `HUF.LEN` command (42_huffman_codec.md R213, R214). -/
def decodedOf (s : State) : Decoded := decodeLoop (lengthsOf s) (streamOf s) (s.operand 1)

/-- The checks that `HUF.DEC` and `HUF.LEN` share, before the rest of the procedure (42_huffman_codec.md R213, R214). -/
def decChecked (s : State) (e : Ending) : Ending :=
  if !(decIns s).all inRange then .faults .badOperand 0#32
  else onBacked s (decIns s)
    (lenChecked (lengthsOf s) (if oversubscribed (lengthsOf s) then invalidData 8 else e))

/-- The end of a decode that stores `stores`: completion, or `TruncatedStream` (42_huffman_codec.md R213, R214). -/
def decEnd (s : State) (d : Decoded) (stores : List Store) : Ending :=
  match d.truncatedAt with
  | some start => .truncates stores (toWord d.symbols.length) (toWord start)
  | none => .completes stores (toWord d.symbols.length) s.x[1]

/-- The output region of `HUF.DEC` checked and written, once the count is known (42_huffman_codec.md R213). -/
def decWrite (s : State) (d : Decoded) : Ending :=
  if !regionCheck (decIns s) [decOut s d.symbols.length] then .faults .badOperand 0#32
  else onBacked s [decOut s d.symbols.length] (decEnd s d [⟨s.operand 2, d.symbols⟩])

/-- The procedure of `HUF.DEC` (42_huffman_codec.md R213). -/
def decEnding (s : State) : Ending := decChecked s (decWrite s (decodedOf s))

/-- `HUF.DEC` (42_huffman_codec.md R213). -/
def execHufDec (s : State) : Host.Outcome State Fault Refusal := conclude s (decEnding s)

/-- The procedure of `HUF.LEN` (42_huffman_codec.md R214): no output region, nothing written. -/
def lenEnding (s : State) : Ending := decChecked s (decEnd s (decodedOf s) [])

/-- `HUF.LEN` (42_huffman_codec.md R214). -/
def execHufLen (s : State) : Host.Outcome State Fault Refusal := conclude s (lenEnding s)

end Sys2Proof.Machine
end

