-- ==== Sys2Proof/Machine/Dispatch.lean ====
section
/-! DEFINITION. The meaning of every command: one arm per constructor (30_encoding.md R101). -/

namespace Sys2Proof.Machine

def exec (i : Instr) (s : State) : Host.Outcome State Fault Refusal :=
  match i with
  | .saNaive => Sys2Proof.Machine.execSaNaive s
  | .saPd => Sys2Proof.Machine.execSaPd s
  | .saIs => Sys2Proof.Machine.execSaIs s
  | .saDc3 => Sys2Proof.Machine.execSaDc3 s
  | .bwtEncNaive => Sys2Proof.Machine.execBwtEncNaive s
  | .bwtEncPd => Sys2Proof.Machine.execBwtEncPd s
  | .bwtEncIs => Sys2Proof.Machine.execBwtEncIs s
  | .bwtEncDc3 => Sys2Proof.Machine.execBwtEncDc3 s
  | .bwtDecP => Sys2Proof.Machine.execBwtDecP s
  | .bwtDecS => Sys2Proof.Machine.execBwtDecS s
  | .hufBuild => Sys2Proof.Machine.execHufBuild s
  | .hufCanon => Sys2Proof.Machine.execHufCanon s
  | .hufEnc => Sys2Proof.Machine.execHufEnc s
  | .hufDec => Sys2Proof.Machine.execHufDec s
  | .hufLen => Sys2Proof.Machine.execHufLen s

end Sys2Proof.Machine
end

