-- ==== Sys2Proof/Machine/Regions.lean ====
section
/-! DEFINITION. The input and output regions of a command (30_encoding.md R105, 20_memory.md R67), for the two rules that
speak of a running command's regions from outside it: 70_reset_and_hazards.md R301 and R306. -/

namespace Sys2Proof.Machine

/-- The input regions of a command (30_encoding.md R105). -/
def inputRegions (i : Instr) (s : State) : List Region :=
  match i with
  | .saNaive | .saPd | .saIs | .saDc3 => [saIn s]
  | .bwtEncNaive | .bwtEncPd | .bwtEncIs | .bwtEncDc3 => [bwtEncIn s]
  | .bwtDecP | .bwtDecS => [bwtDecIn s]
  | .hufBuild => [buildIn s]
  | .hufCanon => [canonIn s]
  | .hufEnc => encIns s
  | .hufDec | .hufLen => decIns s

/-- The output region of `HUF.ENC`, where its procedure gets as far as to know `m` (42_huffman_codec.md R210; log 7). -/
def encOutputs (s : State) : List Region :=
  let lens := lengthsOf s
  if (encIns s).all inRange ∧ lengthOverflow lens = none ∧ someAbsent lens (symbolsOf s) = false then
    [encOut s (bitCount lens (symbolsOf s))]
  else []

/-- The output region of `HUF.DEC`, where its procedure gets as far as to decode (42_huffman_codec.md R213; log 7). -/
def decOutputs (s : State) : List Region :=
  if (decIns s).all inRange ∧ lengthOverflow (lengthsOf s) = none ∧ oversubscribed (lengthsOf s) = false then
    [decOut s (decodedOf s).symbols.length]
  else []

/-- The output regions of a command (30_encoding.md R105). -/
def outputRegions (i : Instr) (s : State) : List Region :=
  match i with
  | .saNaive | .saPd | .saIs | .saDc3 => [saOut s]
  | .bwtEncNaive | .bwtEncPd | .bwtEncIs | .bwtEncDc3 => [bwtEncOut s]
  | .bwtDecP | .bwtDecS => [bwtDecOut s]
  | .hufBuild => [buildOutLengths s, buildOutCodes s]
  | .hufCanon => [canonOut s]
  | .hufEnc => encOutputs s
  | .hufDec => decOutputs s
  | .hufLen => []

/-- The input regions of the command in `CMD`; an illegal word has none (30_encoding.md R103). -/
def runningInputs (s : State) : List Region :=
  match decode s.cmd with
  | .ok i => inputRegions i s
  | .error _ => []

/-- The output regions of the command in `CMD`; an illegal word has none (30_encoding.md R103). -/
def runningOutputs (s : State) : List Region :=
  match decode s.cmd with
  | .ok i => outputRegions i s
  | .error _ => []

end Sys2Proof.Machine
end

