-- ==== Sys2Proof/Machine/Registers.lean ====
section
/-! DEFINITION. The register window (10_state.md R31): which register an offset names, host reads (R20 to R32) and host
writes (R24 to R26, R34), and reset (70_reset_and_hazards.md R300, R301). -/

namespace Sys2Proof.Machine

/-- The registers of the window (10_state.md R31). -/
inductive RegName where
  | id
  | cap0
  | cap1
  | ctrl
  | status
  | cmd
  | errinfo
  | res0
  | res1
  | x (i : Fin 8)
deriving DecidableEq, Repr

/-- The byte offset of a register (10_state.md R31). -/
def regOffset : RegName → Nat
  | .id => 0x00
  | .cap0 => 0x04
  | .cap1 => 0x08
  | .ctrl => 0x0C
  | .status => 0x10
  | .cmd => 0x14
  | .errinfo => 0x18
  | .res0 => 0x20
  | .res1 => 0x24
  | .x i => 0x40 + 4 * i.val

/-- The register at an offset; `none` is a reserved offset (10_state.md R31). -/
def registerAt (off : Nat) : Option RegName :=
  match off with
  | 0x00 => some .id
  | 0x04 => some .cap0
  | 0x08 => some .cap1
  | 0x0C => some .ctrl
  | 0x10 => some .status
  | 0x14 => some .cmd
  | 0x18 => some .errinfo
  | 0x20 => some .res0
  | 0x24 => some .res1
  | 0x40 => some (.x 0)
  | 0x44 => some (.x 1)
  | 0x48 => some (.x 2)
  | 0x4C => some (.x 3)
  | 0x50 => some (.x 4)
  | 0x54 => some (.x 5)
  | 0x58 => some (.x 6)
  | 0x5C => some (.x 7)
  | _ => none

/-- The size of the register window (10_state.md R31). -/
def windowSize : Nat := 256

/-- The window offset of a host address, if it lies in the window at `MMIO_BASE` (10_state.md R31). -/
def windowOffset (p : Platform) (addr : Nat) : Option Nat :=
  if p.mmioBase ≤ addr ∧ addr < p.mmioBase + windowSize then some (addr - p.mmioBase) else none

/-- The value a host read of an offset returns (10_state.md R21 to R31); reserved offsets read 0, no side effect (R32). -/
def readRegister (s : State) (off : Nat) : Word :=
  match registerAt off with
  | some .id => idValue
  | some .cap0 => toWord s.platform.nmax
  | some .cap1 => cap1Value
  | some .ctrl => ctrlWord s.ctrl
  | some .status => statusWord s.status
  | some .cmd => s.cmd
  | some .errinfo => s.errinfo
  | some .res0 => s.res0
  | some .res1 => s.res1
  | some (.x i) => s.x[i]
  | none => 0#32

/-- `n` bytes from an address on get free values (70_reset_and_hazards.md R301; log 7). -/
def scrambleBytes (draw : Nat) : Nat → Nat → Memory → Memory
  | 0, _, m => m
  | n + 1, a, m => scrambleBytes draw n (a + 1) (m.write a (Config.abandonedByte draw a))

/-- The part of a region that lies in memory gets free values. -/
def scrambleRegion (draw : Nat) (m : Memory) (r : Region) : Memory :=
  scrambleBytes draw (min (r.base + r.size) memorySize - r.base) r.base m

/-- The output regions of the command that a reset cuts short; none if no command runs (70_reset_and_hazards.md R301). -/
def abandonedRegions (s : State) : List Region := if s.status.busy then runningOutputs s else []

/-- Reset, hard or soft (70_reset_and_hazards.md R300 to R302): every register at its reset value, a running command
abandoned with its output regions left with free values, all other memory as it was (log 15). -/
def resetEngine (s : State) : State :=
  { s with
    x := Vector.replicate 8 0#32
    res0 := 0#32
    res1 := 0#32
    ctrl := Ctrl.reset
    status := Status.reset
    cmd := 0#32
    errinfo := 0#32
    mem := (abandonedRegions s).foldl (scrambleRegion s.fresh) s.mem }

/-- A write that is dropped: `OVR <- 1` and nothing else (10_state.md R34). -/
def dropWrite (s : State) : State := { s with status := flagsOverrun s.status }

/-- A host write to `CTRL` (10_state.md R25). -/
def writeCtrl (w : Word) (s : State) : State :=
  if w.getLsbD 31 then resetEngine s else { s with ctrl := ctrlOf w }

/-- A host write to `STATUS` (10_state.md R24): write-1-to-clear on bits 1, 2, 3; every other bit is ignored. -/
def writeStatus (w : Word) (s : State) : State :=
  let s1 := if w.getLsbD 1 then clearDone s else s
  let s2 := if w.getLsbD 2 then acknowledgeFault s1 else s1
  if w.getLsbD 3 then clearOverrun s2 else s2

/-- An accepted doorbell (10_state.md R26). -/
def acceptCommand (w : Word) (s : State) : State := { s with cmd := w, status := flagsAccepted s.status }

/-- A host write to `CMD` (10_state.md R26): accepted when IDLE, else dropped. -/
def writeCmd (w : Word) (s : State) : State :=
  if s.status.busy || s.status.fault then dropWrite s else acceptCommand w s

/-- A host write to `x[i]` (10_state.md R21, R34): dropped while BUSY. -/
def writeOperand (i : Fin 8) (w : Word) (s : State) : State :=
  if s.status.busy then dropWrite s else { s with x := s.x.set i w }

/-- A host write to an offset (10_state.md R31): read-only and reserved offsets ignore it. -/
def writeRegister (off : Nat) (w : Word) (s : State) : State :=
  match registerAt off with
  | some .ctrl => writeCtrl w s
  | some .status => writeStatus w s
  | some .cmd => writeCmd w s
  | some (.x i) => writeOperand i w s
  | some .id | some .cap0 | some .cap1 | some .errinfo | some .res0 | some .res1 => s
  | none => s

end Sys2Proof.Machine
end

