-- ==== Sys2Proof/Machine/HostPort.lean ====
section
/-! DEFINITION. What one action of the host does (30_encoding.md R106, R107; 10_state.md R31, R32;
70_reset_and_hazards.md R300, R306). -/

namespace Sys2Proof.Machine

/-- The region of a host access (20_memory.md R65). -/
def accessRegion (addr count : Nat) : Region := ⟨addr, count⟩

/-- Does a host store to `r` touch a region of the running command? (70_reset_and_hazards.md R306) -/
def storeDisturbs (s : State) (r : Region) : Bool :=
  s.status.busy && (runningInputs s ++ runningOutputs s).any fun q => overlaps r q

/-- Does a host load of `r` touch an output region of the running command? (70_reset_and_hazards.md R306: reading an
input region is harmless) -/
def loadDisturbs (s : State) (r : Region) : Bool := s.status.busy && (runningOutputs s).any fun q => overlaps r q

/-- A host access to the region `r`: `next` if it lies in plain memory and disturbs no running command. -/
def hostAccess (s : State) (r : Region) (disturbs : Bool) (next : State) : Host.Outcome State Fault Refusal :=
  if !inRange r then .fault .hostAccessOutsideMemory
  else
    match backing s.platform [r] with
    | .device => .refused .notPlainMemory
    | .unbacked => .fault .hostAccessOutsideMemory
    | .memory => if disturbs then .refused .regionTouchedWhileBusy else .next next

/-- A host access of `width` bytes to the register at `addr`: `next` of its offset, if it has the shape of 10_state.md
R32 and lies in the window (R31). -/
def registerAccess (s : State) (addr width : Nat) (next : Nat → State) : Host.Outcome State Fault Refusal :=
  match windowOffset s.platform addr with
  | none => .refused .outsideRegisterWindow
  | some off => if registerAccessWf off width then .next (next off) else .refused .registerAccessShape

/-- The host has read the register at an offset; nothing else changes (10_state.md R32). -/
def recordRead (off : Nat) (s : State) : State := { s with reads := .word (readRegister s off) :: s.reads }

/-- One `rd STATUS` of a `wait` (30_encoding.md R107). -/
def pollStatus (s : State) : State := recordRead (regOffset .status) s

/-- That many reads of `STATUS` one after the other (30_encoding.md R107). -/
def pollTimes : Nat → State → State
  | 0, s => s
  | n + 1, s => pollTimes n (pollStatus s)

/-- One action of the host (30_encoding.md R106, R107), or the reset input (70_reset_and_hazards.md R300). `wait` is here
the read of `STATUS` that finds `BUSY = 0` and ends it; the step makes the reads before it. -/
def hostAct (a : HostAction) (s : State) : Host.Outcome State Fault Refusal :=
  match a with
  | .regWrite addr width w => registerAccess s addr width fun off => writeRegister off w s
  | .regRead addr width =>
    registerAccess s addr width fun off => recordRead off s
  | .memStore addr data =>
    hostAccess s (accessRegion addr data.length) (storeDisturbs s (accessRegion addr data.length))
      { s with mem := s.mem.writeBytes addr data }
  | .memLoad addr count =>
    hostAccess s (accessRegion addr count) (loadDisturbs s (accessRegion addr count))
      { s with reads := .bytes (s.mem.readBytes addr count) :: s.reads }
  | .wait => .next (pollStatus s)
  | .awaitEnd => .next s
  | .hardReset => .next (resetEngine s)

/-- `wr <reg>, <value>` (30_encoding.md R106). -/
def wr (p : Platform) (r : RegName) (w : Word) : HostAction := .regWrite (p.mmioBase + regOffset r) 4 w

/-- `rd <reg>` (30_encoding.md R106). -/
def rd (p : Platform) (r : RegName) : HostAction := .regRead (p.mmioBase + regOffset r) 4

/-- `cmd <mnemonic>` (30_encoding.md R106): `wr CMD, <command word>`. -/
def cmdAction (p : Platform) (i : Instr) : HostAction := wr p .cmd (encode i)

/-- `ack`, `wr STATUS, 0x0000000E` (30_encoding.md R107). -/
def ackAction (p : Platform) : HostAction := wr p .status 0x0000000E#32

/-- `ackf`, `wr STATUS, 0x00000004` (30_encoding.md R107). -/
def ackfAction (p : Platform) : HostAction := wr p .status 0x00000004#32

/-- `reset`, `wr CTRL, 0x80000000` (30_encoding.md R107). -/
def resetAction (p : Platform) : HostAction := wr p .ctrl 0x80000000#32

/-- `SA <k>`: the mnemonic of strategy `k` (30_encoding.md R102, R107). -/
def saOfStrategy (k : Fin 4) : Instr :=
  match k with
  | 0 => .saNaive
  | 1 => .saPd
  | 2 => .saIs
  | 3 => .saDc3

/-- `BWT.ENC <k>`: the mnemonic of strategy `k` (30_encoding.md R102, R107). -/
def bwtEncOfStrategy (k : Fin 4) : Instr :=
  match k with
  | 0 => .bwtEncNaive
  | 1 => .bwtEncPd
  | 2 => .bwtEncIs
  | 3 => .bwtEncDc3

/-- `run <mnemonic>`: `cmd <mnemonic>` followed by `wait` (30_encoding.md R107). -/
def runActions (p : Platform) (i : Instr) : List HostAction := [cmdAction p i, .wait]

/-- `memw[<addr>..] = <words>`: host stores of little-endian words (30_encoding.md R106). -/
def storeWords (addr : Nat) (ws : List Nat) : HostAction := .memStore addr (bytesOfWords ws)

end Sys2Proof.Machine
end

