-- ==== Sys2Proof/Machine/Engine.lean ====
section
/-! DEFINITION. The engine's step on the accepted command word, the choice between host and engine, and the state in
which a given word is the next to run (30_encoding.md R103; 20_memory.md R74; 70_reset_and_hazards.md R304, R305). -/

namespace Sys2Proof.Machine

/-- The engine runs the accepted word (30_encoding.md R103) as one atomic step (20_memory.md R74): its command, or the
fault `IllegalCommand(w)` (60_exceptions.md R266). -/
def engineStep (s : State) : Host.Outcome State Fault Refusal :=
  match decode s.cmd with
  | .ok i => exec i s
  | .error (.illegalCommand w) => .next (raiseFault .illegalCommand w 0#32 0#32 s)

/-- The draw counter moves on. -/
def tick (s : State) : State := { s with fresh := s.fresh + 1 }

/-- The host takes its next action off the script and performs it. -/
def hostTurn (a : HostAction) (rest : List HostAction) (s : State) : Host.Outcome State Fault Refusal :=
  hostAct a { s with script := rest, fresh := s.fresh + 1 }

/-- The engine comes before the host's next action; an engine that is stuck (20_memory.md R69) ends no command, so the
host's action happens instead. -/
def engineBeforeHost (a : HostAction) (rest : List HostAction) (s : State) : Host.Outcome State Fault Refusal :=
  match engineStep (tick s) with
  | .next t => if t.status.busy then hostTurn a rest s else .next t
  | .fault r => .fault r
  | .refused r => .refused r

/-- The engine's step while the host has nothing to do (70_reset_and_hazards.md R304: a BUSY engine eventually takes its
step). An engine with no command waits. -/
def engineOrIdle (s : State) : Host.Outcome State Fault Refusal :=
  if s.status.busy then engineStep s else .next s

/-- The engine's step while the host polls `STATUS` (30_encoding.md R107): a free number of reads find `BUSY = 1` first, and
the `wait` stays pending until a read finds `BUSY = 0` (log 17). -/
def engineWhilePolled (s : State) : Host.Outcome State Fault Refusal :=
  engineStep (tick (pollTimes (Config.pollsBefore s.fresh) s))

/-- A pending host action that does not wait: it happens now, or after the engine's step if a command runs and the free
choice says so (70_reset_and_hazards.md R305, vector V67; log 6). -/
def hostOrEngine (a : HostAction) (rest : List HostAction) (s : State) : Host.Outcome State Fault Refusal :=
  if s.status.busy && Config.engineFirst s.fresh then engineBeforeHost a rest s else hostTurn a rest s

/-- One step of host and engine. -/
def stepBody (s : State) : Host.Outcome State Fault Refusal :=
  match s.script with
  | [] => engineOrIdle s
  | .wait :: rest => if s.status.busy then engineWhilePolled s else hostTurn .wait rest s
  | .awaitEnd :: rest => if s.status.busy then engineStep s else hostTurn .awaitEnd rest s
  | a :: rest => hostOrEngine a rest s

/-- The host lets the running command end before any action it has pending. -/
def holdHost : List HostAction → List HostAction
  | [] => []
  | a :: as => .awaitEnd :: a :: as

/-- `s` with the word accepted as the command that the very next step runs: what an accepted doorbell does (10_state.md
R26), with a fault acknowledged first (60_exceptions.md R272) and the host letting it run. -/
def fetchState (s : State) (w : Word) : State :=
  { acceptCommand w (acknowledgeFault s) with script := holdHost s.script }

end Sys2Proof.Machine
end

