-- ==== Sys2Proof/Machine/Step.lean ====
section
/-! DEFINITION. The step of the machine, and the state in which a given word is the next to run. -/

namespace Sys2Proof.Machine

/-- One step of the machine: the host's next action, or the running command as one atomic step (20_memory.md R74). -/
def step (s : State) : Host.Outcome State Fault Refusal := stepBody s

/-- `s` with the command word `w` where the next step runs it: latched in `CMD` with `BUSY = 1` (10_state.md R26). -/
def State.withFetchWord (s : State) (nbits w : Nat) : State := fetchState s (BitVec.ofNat 32 (w % 2 ^ nbits))

end Sys2Proof.Machine
end

