-- ==== Sys2Proof/Safety.lean ====
section
/-! DEFINITION. What holds in every reachable state of HC-CORE, in the terms the statements use. -/

namespace Sys2Proof

/-- Every address the platform speaks of is plain memory: the default of 20_memory.md R69. -/
def Platform.allMemory (p : Platform) : Bool := decide (p.devices = []) && decide (p.unbacked = [])

namespace Machine

/-- The flags of `STATUS` agree: `BUSY` excludes `FAULT` (10_state.md R33) and `DONE` (R24, cleared at acceptance);
`DONE` excludes `FAULT` and goes with `CAUSE = 0` (R24, 70_reset_and_hazards.md R304); `FAULT` goes with a cause; codes
7 to 15 are never written (60_exceptions.md R261). -/
def Status.consistent (t : Status) : Bool :=
  !(t.busy && t.fault) && !(t.busy && t.done) && !(t.done && t.fault) && (!t.done || decide (t.cause = 0#4)) &&
    (!t.fault || decide (t.cause ≠ 0#4)) && decide (t.cause.toNat ≤ 6)

/-- The invariant of the machine: the flags agree, `CAUSE = 0` goes with `ERRINFO = 0` (10_state.md R27), memory is in
its canonical form, and the platform's parameters are in range (00_scope.md R7). -/
def State.inv (s : State) : Bool :=
  s.status.consistent && (decide (s.status.cause ≠ 0#4) || decide (s.errinfo = 0#32)) && s.mem.wf && s.platform.wf

/-- A command went from `s` to `t` by completion (70_reset_and_hazards.md R304) with these results: the end-of-command
fields, and `FAULT` as it was. -/
def completedWith (s t : State) (r0 r1 : Nat) : Prop :=
  t.res0.toNat = r0 ∧ t.res1.toNat = r1 ∧ t.errinfo = 0#32 ∧ t.status.busy = false ∧ t.status.done = true ∧
    t.status.cause = 0#4 ∧ t.status.fault = s.status.fault

/-- A command went from `s` to `t` by fault entry (60_exceptions.md R270) with this code, detail and results. -/
def faultedWith (s t : State) (code : BitVec 4) (info r0 r1 : Word) : Prop :=
  t.res0 = r0 ∧ t.res1 = r1 ∧ t.errinfo = info ∧ t.status.busy = false ∧ t.status.fault = true ∧
    t.status.cause = code ∧ t.status.done = s.status.done

/-- What no command changes (10_state.md R21, R22, R24 to R26, 60_exceptions.md R270): the operand registers, `CTRL`,
`CMD`, `OVR`, the platform's parameters and the host's side. -/
def sameOutside (s t : State) : Prop :=
  t.x = s.x ∧ t.ctrl = s.ctrl ∧ t.cmd = s.cmd ∧ t.status.ovr = s.status.ovr ∧ t.platform = s.platform ∧
    t.script = s.script ∧ t.reads = s.reads ∧ t.fresh = s.fresh

/-- Every byte outside the given regions reads as before (20_memory.md R70). -/
def memoryKeptOutside (rs : List Region) (s t : State) : Prop :=
  ∀ a, (∀ r ∈ rs, inRegion r a = false) → t.mem.read a = s.mem.read a

/-- A word is illegal, spelled out (30_encoding.md R103): a reserved bit is set, or `OP` is none of the seven, or `MODE`
is no legal mode of that `OP` (R102). -/
def illegalWord (w : Word) : Prop :=
  let op := w.toNat % 2 ^ 8
  let mode := w.toNat / 2 ^ 8 % 2 ^ 4
  w.toNat / 2 ^ 12 ≠ 0 ∨ op ∉ [0x01, 0x02, 0x03, 0x10, 0x11, 0x12, 0x13] ∨
    (op ∈ [0x01, 0x02] ∧ 4 ≤ mode) ∨ (op ∈ [0x03, 0x13] ∧ 2 ≤ mode) ∨ (op ∈ [0x10, 0x11, 0x12] ∧ 1 ≤ mode)

/-- The commands of the suffix sorter (40_suffix_sorter.md R133 to R136). -/
def saCommands : List Instr := [.saNaive, .saPd, .saIs, .saDc3]

/-- The forward transforms (41_bwt_codec.md R173 to R176). -/
def bwtEncCommands : List Instr := [.bwtEncNaive, .bwtEncPd, .bwtEncIs, .bwtEncDc3]

/-- `LF[i] = C[L[i]] + (number of j < i with L[j] = L[i])` (41_bwt_codec.md R178), `C[c]` being the number of bytes of
`L` below `c`. -/
def lfRow (L : List Byte) (i : Nat) : Nat :=
  (L.countP fun c => decide (c.toNat < (L.getD i 0#8).toNat)) + (L.take i).count (L.getD i 0#8)

/-- The walk from row `p` does not come back to `p` before its `N`-th step (41_bwt_codec.md R180 (e)). -/
def singleCycle (L : List Byte) (p : Nat) : Bool :=
  (List.range L.length).all fun k => decide (k = 0) || decide ((lfRow L)^[k] p ≠ p)

/-- How often each byte value occurs in a buffer: the table `freq[]` a host makes of it (42_huffman_codec.md R215). -/
def byteCounts (b : List Byte) : List Nat := (List.range alphabet).map fun c => b.count (BitVec.ofNat 8 c)

/-- The canonical code word of a symbol (42_huffman_codec.md R205). -/
def canonicalCodeOf (lens : List Nat) (b : Byte) : Nat := (canonicalCodes lens).getD b.toNat 0

/-- `t` is `s` with `OVR` set and nothing else changed (10_state.md R34). -/
def onlyOverrunSet (s t : State) : Prop := t = { s with status := { s.status with ovr := true } }

/-- Every register of the engine holds its reset value (10_state.md R37, 70_reset_and_hazards.md R300). -/
def registersReset (t : State) : Prop :=
  t.x = Vector.replicate 8 0#32 ∧ t.res0 = 0#32 ∧ t.res1 = 0#32 ∧ readRegister t (regOffset .ctrl) = 0#32 ∧
    readRegister t (regOffset .status) = 0#32 ∧ t.cmd = 0#32 ∧ t.errinfo = 0#32 ∧
    readRegister t (regOffset .id) = 0x48430007#32 ∧ readRegister t (regOffset .cap0) = toWord t.platform.nmax ∧
    readRegister t (regOffset .cap1) = 0x00000F20#32 ∧ runState t = .idle ∧ irq t = false

end Machine

end Sys2Proof
end

