-- ==== Sys2Proof/Certificates/Slice0/Obligations.lean ====
section
/-! DEFINITION. The statements about HC-CORE that are to be proved. Each docstring names the rules of spec/ it comes from. -/

open Sys2Proof Sys2Proof.Machine

/-! ### Encoding -/

/-- 30_encoding.md R101: the fifteen command words, each with its command, decoded and encoded. -/
def Obligations.CommandWordsOfTheTable : Prop :=
  [(0x00000001#32, Instr.saNaive), (0x00000101#32, .saPd), (0x00000201#32, .saIs), (0x00000301#32, .saDc3),
    (0x00000002#32, .bwtEncNaive), (0x00000102#32, .bwtEncPd), (0x00000202#32, .bwtEncIs),
    (0x00000302#32, .bwtEncDc3), (0x00000003#32, .bwtDecP), (0x00000103#32, .bwtDecS), (0x00000010#32, .hufBuild),
    (0x00000011#32, .hufCanon), (0x00000012#32, .hufEnc), (0x00000013#32, .hufDec), (0x00000113#32, .hufLen)].all
    (fun p => decide (encode p.2 = p.1) && decide (decodeTableWord 32 p.1.toNat = some p.2)) = true

/-- 30_encoding.md R101, R103: decoding gives a command exactly for its own command word, with every one of the `2^32`
words considered. -/
def Obligations.DecodeAcceptsExactlyTheEncodings : Prop :=
  ∀ (w : Word) (i : Instr), decode w = .ok i ↔ w = encode i

/-- 30_encoding.md R103, 60_exceptions.md R266: an accepted word that is illegal as spelled out there ends in
`IllegalCommand(w)` with `ERRINFO` the word and nothing else touched; every other word is a command and runs. -/
def Obligations.IllegalWordsFaultAndTheOthersRun : Prop :=
  ∀ s : State,
    (illegalWord s.cmd → ∃ t, engineStep s = .next t ∧ faultedWith s t 5#4 s.cmd 0#32 0#32 ∧ sameOutside s t ∧
      t.mem = s.mem) ∧
    (¬ illegalWord s.cmd → ∃ i, s.cmd = encode i ∧ engineStep s = exec i s)

/-! ### The step -/

/-- 30_encoding.md R103, R107: with a command accepted and the host with nothing to do, or letting the command end, one
step is the engine's step on the word in `CMD`, legal or not, which runs the decoded command; while the host polls
`STATUS` in a `wait` it is the same after some reads that found `BUSY = 1`. That the very next step is the engine's is the
model's choice (logs 6, 10, 12, 17): 70_reset_and_hazards.md R304 says that it comes eventually. -/
def Obligations.StepRunsTheAcceptedCommand : Prop :=
  ∀ s : State, s.status.busy = true →
    ((s.script = [] ∨ ∃ rest, s.script = .awaitEnd :: rest) →
      step s = engineStep s ∧ ∀ i, decode s.cmd = .ok i → step s = exec i s) ∧
    (∀ rest, s.script = .wait :: rest →
      let polled : State := { s with
        reads := List.replicate (Config.pollsBefore s.fresh) (.word (readRegister s 0x10)) ++ s.reads
        fresh := s.fresh + 1 }
      step s = engineStep polled ∧ ∀ i, decode s.cmd = .ok i → step s = exec i polled)

/-- While a command runs, a pending host action that does not wait comes before it or after it, by a free choice; an engine
that is stuck does not hold it up. 70_reset_and_hazards.md R305 allows both orders for register writes; that one choice
covers every pending action, and the counter it is drawn with, are the model's (log 6, with logs 10 and 14). -/
def Obligations.PendingHostActionComesBeforeOrAfter : Prop :=
  ∀ (s : State) (a : HostAction) (rest : List HostAction), s.status.busy = true → s.script = a :: rest → a ≠ .wait →
    a ≠ .awaitEnd →
    ((∀ t, engineStep (tick s) = .next t → t.status.busy = false) →
      step s = if Config.engineFirst s.fresh then engineStep (tick s) else hostTurn a rest s) ∧
    ((∃ t, engineStep (tick s) = .next t ∧ t.status.busy = true) → step s = hostTurn a rest s)

/-- With no command running, a step performs the host's next action, a `wait` being then one `rd STATUS` (30_encoding.md
R107), and with none pending the machine stays as it is. The list of pending actions, one a step, and the draw counter are
the model's choice (logs 6, 10, 17); 00_scope.md R8 and 10_state.md R23 name the host and rule out a fetch. -/
def Obligations.IdleStepFollowsTheHost : Prop :=
  ∀ s : State, s.status.busy = false →
    (s.script = [] → step s = .next s) ∧
    (∀ a rest, s.script = a :: rest → step s = hostAct a { s with script := rest, fresh := s.fresh + 1 }) ∧
    (∀ rest, s.script = .wait :: rest →
      step s = hostAct (rd s.platform .status) { s with script := rest, fresh := s.fresh + 1 })

/-! ### Registers -/

/-- 10_state.md R26, R34: a host write to `CMD` is accepted exactly when `BUSY = 0` and `FAULT = 0`, whatever the word;
otherwise it is dropped and sets `OVR` alone. A read of `CMD` returns the accepted word. -/
def Obligations.DoorbellAcceptedExactlyWhenIdle : Prop :=
  ∀ (s : State) (w : Word), ∃ t, hostAct (wr s.platform .cmd w) s = .next t ∧
    (s.status.busy = false → s.status.fault = false →
      t = { s with cmd := w, status := { s.status with busy := true, done := false } } ∧
      readRegister t 0x14 = w) ∧
    (s.status.busy = true ∨ s.status.fault = true → onlyOverrunSet s t ∧ readRegister t 0x14 = readRegister s 0x14)

/-- 10_state.md R34: write gating. `x[i]` is written exactly when `BUSY = 0`, in particular while `FAULT = 1`; a write
while `BUSY = 1` is dropped and sets `OVR`; `CMD` needs `FAULT = 0` too; `CTRL` and `STATUS` take effect in every run
state and change nothing else (R24, R25); read-only and reserved offsets are ignored and never set `OVR`; `OVR` raises no interrupt. -/
def Obligations.WriteGating : Prop :=
  ∀ (s : State) (w : Word),
    (∀ i : Fin 8, s.status.busy = false → writeRegister (0x40 + 4 * i.val) w s = { s with x := s.x.set i w }) ∧
    (∀ i : Fin 8, s.status.busy = true → onlyOverrunSet s (writeRegister (0x40 + 4 * i.val) w s)) ∧
    (s.status.busy = true ∨ s.status.fault = true → onlyOverrunSet s (writeRegister 0x14 w s)) ∧
    (w.getLsbD 31 = false →
      writeRegister 0x0C w s = { s with ctrl := { die := w.getLsbD 0, fie := w.getLsbD 1 } }) ∧
    (writeRegister 0x10 w s = { s with status := { s.status with
      done := s.status.done && !w.getLsbD 1
      fault := s.status.fault && !w.getLsbD 2
      ovr := s.status.ovr && !w.getLsbD 3 } }) ∧
    (∀ off < 256, off ∉ [0x0C, 0x10, 0x14] → (∀ i : Fin 8, off ≠ 0x40 + 4 * i.val) → writeRegister off w s = s) ∧
    (∀ t, onlyOverrunSet s t → irq t = irq s)

/-- 10_state.md R24 to R31: what a host read of each offset returns, bit by bit for `STATUS` and `CTRL`, and
0 for every offset the table does not list. -/
def Obligations.RegisterReadValues : Prop :=
  ∀ s : State,
    readRegister s 0x00 = 0x48430007#32 ∧ readRegister s 0x04 = toWord s.platform.nmax ∧
    readRegister s 0x08 = 0x00000F20#32 ∧ readRegister s 0x14 = s.cmd ∧ readRegister s 0x18 = s.errinfo ∧ readRegister s 0x20 = s.res0 ∧
    readRegister s 0x24 = s.res1 ∧ (∀ i : Fin 8, readRegister s (0x40 + 4 * i.val) = s.x[i]) ∧
    (readRegister s 0x0C).toNat = s.ctrl.die.toNat + 2 * s.ctrl.fie.toNat ∧
    (readRegister s 0x10).toNat = s.status.busy.toNat + 2 * s.status.done.toNat + 4 * s.status.fault.toNat +
      8 * s.status.ovr.toNat + 256 * s.status.cause.toNat ∧
    (∀ off < 256, off ∉ [0x00, 0x04, 0x08, 0x0C, 0x10, 0x14, 0x18, 0x20, 0x24] →
      (∀ i : Fin 8, off ≠ 0x40 + 4 * i.val) → readRegister s off = 0#32)

/-- 10_state.md R31, R32: a host access of 32 bits aligned to 4 bytes in the window reaches its offset, a read without
side effect on the engine or the memory; an access of another width or alignment is refused. -/
def Obligations.WindowAccesses : Prop :=
  ∀ (s : State) (off : Nat) (w : Word), off < 256 →
    (off % 4 = 0 →
      hostAct (.regWrite (s.platform.mmioBase + off) 4 w) s = .next (writeRegister off w s) ∧
      hostAct (.regRead (s.platform.mmioBase + off) 4) s =
        .next { s with reads := .word (readRegister s off) :: s.reads }) ∧
    (∀ width, width ≠ 4 ∨ off % 4 ≠ 0 →
      hostAct (.regWrite (s.platform.mmioBase + off) width w) s = .refused .registerAccessShape ∧
      hostAct (.regRead (s.platform.mmioBase + off) width) s = .refused .registerAccessShape)

/-- 60_exceptions.md R272: the host's write of 1 to bit 2 of `STATUS` ends the FAULTED state; `CAUSE`, `ERRINFO`,
`RES0`, `RES1` and everything else keep their values; nothing is restored; the engine is then IDLE and accepts any
command, while before it every doorbell was ignored. -/
def Obligations.AcknowledgeEndsTheFaultedState : Prop :=
  ∀ (s : State) (w : Word), runState s = .faulted →
    onlyOverrunSet s (writeRegister 0x14 w s) ∧
    ∃ t, hostAct (ackfAction s.platform) s = .next t ∧
      t = { s with status := { s.status with fault := false } } ∧ runState t = .idle ∧
      runState (writeRegister 0x14 w t) = .busy ∧ (writeRegister 0x14 w t).cmd = w

/-- 60_exceptions.md R274: when an accepted word ends, as a command or as an illegal one, `IRQ` is high exactly if the
matching enable is 1. -/
def Obligations.InterruptLineAtCommandEnd : Prop :=
  ∀ s t : State, s.inv = true → s.status.busy = true → engineStep s = .next t → t.status.busy = false →
    irq t = (if t.status.fault then s.ctrl.fie else s.ctrl.die)

/-- 10_state.md R22, R27, 70_reset_and_hazards.md R308: a host action that is neither the reset input nor a
write of `CTRL` with `SRST = 1` leaves `RES0`, `RES1`,
`ERRINFO`, `CAUSE` and the platform as they are, and one that is no store leaves every byte of memory. -/
def Obligations.HostActionFrame : Prop :=
  ∀ (a : HostAction) (s t : State), hostAct a s = .next t → a ≠ .hardReset →
    (∀ width w, a = .regWrite (s.platform.mmioBase + 0x0C) width w → w.getLsbD 31 = false) →
    t.res0 = s.res0 ∧ t.res1 = s.res1 ∧ t.errinfo = s.errinfo ∧ t.status.cause = s.status.cause ∧
      t.platform = s.platform ∧ ((∀ addr data, a ≠ .memStore addr data) → t.mem = s.mem)

/-! ### Reset -/

/-- 10_state.md R37, 70_reset_and_hazards.md R300: the reset state, on every platform, has every register at its reset
value and is IDLE. -/
def Obligations.RegistersAfterReset : Prop :=
  registersReset State.reset ∧ ∀ p : Platform, registersReset (State.resetOn p)

/-- 70_reset_and_hazards.md R300 to R302: the soft reset (with any other bits in the word written) and the reset input
put every register at its reset value in every run state; memory outside the output regions of a command cut short is
unchanged, all of it if none was running. R301 says this of the soft reset and R302 of both; which regions of a command
cut short count, and that the reset input leaves them free too, is read by the model (logs 7, 15). -/
def Obligations.ResetAbandonsTheRunningCommand : Prop :=
  ∀ (s : State) (w : Word), w.getLsbD 31 = true →
    ∀ a ∈ [HostAction.hardReset, wr s.platform .ctrl w],
      ∃ t, hostAct a s = .next t ∧ registersReset t ∧ t.platform = s.platform ∧
        (s.status.busy = false → t.mem = s.mem) ∧
        (s.status.busy = true → ∀ i, decode s.cmd = .ok i → memoryKeptOutside (outputRegions i s) s t) ∧
        (s.status.busy = true → illegalWord s.cmd → t.mem = s.mem)

/-! ### Memory and regions -/

/-- 20_memory.md R62, R63: a stored word is the four bytes of its number, least significant first, at any alignment,
and reads back as its low 32 bits; no other byte changes. -/
def Obligations.WordsAreLittleEndian : Prop :=
  ∀ (m : Memory) (a v : Nat), m.wf = true → a + 4 ≤ 2 ^ 32 →
    (∀ k < 4, ((m.writeBytes a (bytesOfWord v)).read (a + k)).toNat = v / 2 ^ (8 * k) % 2 ^ 8) ∧
    (m.writeBytes a (bytesOfWord v)).readWord a = v % 2 ^ 32 ∧
    (∀ b, b < a ∨ a + 4 ≤ b → (m.writeBytes a (bytesOfWord v)).read b = m.read b)

/-- 20_memory.md R65, R67: the region check passes exactly when every region ends at or below `2^32`, no output shares
an address with an input, and no two outputs share one. -/
def Obligations.RegionCheckIsDisjointnessInRange : Prop :=
  ∀ ins outs : List Region, regionCheck ins outs = true ↔
    (∀ r ∈ ins ++ outs, r.base + r.size ≤ 2 ^ 32) ∧
    (∀ o ∈ outs, ∀ r ∈ ins, ∀ a, ¬ (inRegion o a = true ∧ inRegion r a = true)) ∧
    outs.Pairwise (fun o q => ∀ a, ¬ (inRegion o a = true ∧ inRegion q a = true))

/-- 20_memory.md R70: outside the output regions of a command the engine changes no byte of buffer memory, neither on
completion nor on a fault. -/
def Obligations.CommandsWriteOnlyTheirOutputRegions : Prop :=
  ∀ (i : Instr) (s t : State), exec i s = .next t → memoryKeptOutside (outputRegions i s) s t

/-- 30_encoding.md R106, 70_reset_and_hazards.md R306, 93_implementation_defined.md U3: a host store in plain memory writes
its bytes and nothing else, and a host load reads them, while no command runs, while an illegal word is in `CMD`, or where
they touch no region (a load: no output region) of the running command; else they are refused, the first treatment of U3
(log 8). -/
def Obligations.RegionsOfARunningCommandAreTheEngines : Prop :=
  ∀ (s : State) (addr : Nat) (data : List Byte), addr + data.length ≤ 2 ^ 32 →
    backing s.platform [⟨addr, data.length⟩] = .memory →
    let touches := fun rs : List Region => ∃ r ∈ rs, ∃ k < data.length, inRegion r (addr + k) = true
    let storeDone := ∃ t, hostAct (.memStore addr data) s = .next t ∧ t = { s with mem := t.mem } ∧
      (s.mem.wf = true → ∀ k < data.length, t.mem.read (addr + k) = data.getD k 0#8) ∧
      (∀ b, b < addr ∨ addr + data.length ≤ b → t.mem.read b = s.mem.read b)
    let loadDone := hostAct (.memLoad addr data.length) s =
      .next { s with reads := .bytes (s.mem.readBytes addr data.length) :: s.reads }
    (s.status.busy = false ∨ illegalWord s.cmd → storeDone ∧ loadDone) ∧
    (s.status.busy = true → ∀ i, decode s.cmd = .ok i →
      (touches (inputRegions i s ++ outputRegions i s) →
        hostAct (.memStore addr data) s = .refused .regionTouchedWhileBusy) ∧
      (¬ touches (inputRegions i s ++ outputRegions i s) → storeDone) ∧
      (touches (outputRegions i s) →
        hostAct (.memLoad addr data.length) s = .refused .regionTouchedWhileBusy) ∧
      (¬ touches (outputRegions i s) → loadDone))

/-! ### How every command ends -/

/-- 60_exceptions.md R260, R270, R271, 70_reset_and_hazards.md R304, 20_memory.md R69: a command that answers a next
state has completed, or has entered a fault with memory untouched (but for the partial output of `TruncatedStream` in
`HUF.DEC`) and `RES0 = RES1 = 0` (but for `TruncatedStream`), or is stuck on an address the platform does not admit;
the operand registers, `CTRL`, `CMD`, `OVR`, the platform and the host's side are unchanged in every case. -/
def Obligations.EveryCommandCompletesFaultsOrIsStuck : Prop :=
  ∀ (i : Instr) (s t : State), exec i s = .next t →
    sameOutside s t ∧
    ((∃ r0 r1, completedWith s t r0 r1) ∨
     (∃ code info, faultedWith s t code info 0#32 0#32 ∧ code ∈ [1#4, 2#4, 3#4, 6#4] ∧ t.mem = s.mem) ∨
     (∃ cnt start, faultedWith s t 4#4 start cnt start ∧ (i = .hufLen ∧ t.mem = s.mem ∨ i = .hufDec)) ∨
     (t = s ∧ touchesAny s.platform.unbacked (inputRegions i s ++ outputRegions i s) = true))

/-! ### Suffix sorter -/

/-- 40_suffix_sorter.md R132, R131: the suffix array of every text exists and is unique; it is the array that the
`SA.*` and `BWT.ENC.*` commands use. -/
def Obligations.SuffixArrayExistsAndIsUnique : Prop :=
  ∀ text : List Byte, IsSuffixArray (extendedText text) (suffixArray (extendedText text)) ∧
    ∀ sa, IsSuffixArray (extendedText text) sa → sa = suffixArray (extendedText text)

/-- 40_suffix_sorter.md R142, R143, R146: PrefixDoubling computes the suffix array. -/
def Obligations.PrefixDoublingComputesTheSuffixArray : Prop :=
  ∀ text : List Byte, prefixDoublingSort (extendedText text) = suffixArray (extendedText text)

/-- 40_suffix_sorter.md R144, R146: InducedSort (SA-IS) computes the suffix array. -/
def Obligations.InducedSortComputesTheSuffixArray : Prop :=
  ∀ text : List Byte, inducedSortText (extendedText text) = suffixArray (extendedText text)

/-- 40_suffix_sorter.md R145, R146: Skew/DC3 computes the suffix array. -/
def Obligations.SkewComputesTheSuffixArray : Prop :=
  ∀ text : List Byte, skewSortText (extendedText text) = suffixArray (extendedText text)

/-- 40_suffix_sorter.md R139: the suffix of the sentinel is first; a text of `k` equal bytes has the array
`k, k-1, ..., 0`. -/
def Obligations.SuffixArrayFacts : Prop :=
  (∀ text : List Byte, (suffixArray (extendedText text)).head? = some text.length) ∧
  (∀ (k : Nat) (c : Byte), suffixArray (extendedText (List.replicate k c)) = (List.range (k + 1)).reverse)

/-- 40_suffix_sorter.md R133 to R137, R132: each `SA.*` command completes whenever its capacity and region checks pass,
with the suffix array of its text at `x[2]`, `RES0 = n + 1`, `RES1 = 0`; every other byte and register is unchanged. -/
def Obligations.SaCommandsComplete : Prop :=
  ∀ i ∈ saCommands, ∀ s : State, s.mem.wf = true → s.platform.wf = true → s.operand 1 + 1 ≤ s.platform.nmax →
    regionCheck [saIn s] [saOut s] = true → backing s.platform [saIn s, saOut s] = .memory →
    ∃ t, exec i s = .next t ∧
      IsSuffixArray (extendedText (textOf s)) (t.mem.readWords (s.operand 2) (s.operand 1 + 1)) ∧
      completedWith s t (s.operand 1 + 1) 0 ∧ sameOutside s t ∧ memoryKeptOutside [saOut s] s t

/-- 40_suffix_sorter.md R137, 60_exceptions.md R262, R267, R269: the faults of the `SA.*` commands, in their order. -/
def Obligations.SaCommandsFaultInOrder : Prop :=
  ∀ i ∈ saCommands, ∀ s : State,
    (s.operand 1 + 1 > s.platform.nmax →
      ∃ t, exec i s = .next t ∧ faultedWith s t 1#4 s.x[1] 0#32 0#32 ∧ sameOutside s t ∧ t.mem = s.mem) ∧
    (s.operand 1 + 1 ≤ s.platform.nmax → regionCheck [saIn s] [saOut s] = false →
      ∃ t, exec i s = .next t ∧ faultedWith s t 6#4 0#32 0#32 0#32 ∧ sameOutside s t ∧ t.mem = s.mem)

/-! ### BWT codec -/

/-- 41_bwt_codec.md R170 to R176: each `BWT.ENC.*` command completes whenever its checks pass and its text holds no
0x00, with `L[r]` the byte before suffix `SA[r]` (the sentinel 0x00 where `SA[r] = 0`), `RES0 = n + 1` and `RES1` the row
`p` with `SA[p] = 0`; every other byte and register is unchanged. -/
def Obligations.BwtEncCommandsComplete : Prop :=
  ∀ i ∈ bwtEncCommands, ∀ s : State, s.mem.wf = true → s.platform.wf = true → s.operand 1 + 1 ≤ s.platform.nmax →
    regionCheck [bwtEncIn s] [bwtEncOut s] = true → backing s.platform [bwtEncIn s, bwtEncOut s] = .memory →
    0x00#8 ∉ textOf s →
    ∃ t sa p, exec i s = .next t ∧ IsSuffixArray (extendedText (textOf s)) sa ∧ sa[p]? = some 0 ∧
      (∀ r < s.operand 1 + 1, t.mem.read (s.operand 2 + r) =
        if sa.getD r 0 = 0 then 0x00#8 else (textOf s).getD (sa.getD r 0 - 1) 0#8) ∧
      completedWith s t (s.operand 1 + 1) p ∧ sameOutside s t ∧ memoryKeptOutside [bwtEncOut s] s t

/-- 41_bwt_codec.md R172, 60_exceptions.md R262, R263, R267 to R269: the faults of the `BWT.ENC.*` commands, in order. -/
def Obligations.BwtEncCommandsFaultInOrder : Prop :=
  ∀ i ∈ bwtEncCommands, ∀ s : State,
    (s.operand 1 + 1 > s.platform.nmax →
      ∃ t, exec i s = .next t ∧ faultedWith s t 1#4 s.x[1] 0#32 0#32 ∧ sameOutside s t ∧ t.mem = s.mem) ∧
    (s.operand 1 + 1 ≤ s.platform.nmax → regionCheck [bwtEncIn s] [bwtEncOut s] = false →
      ∃ t, exec i s = .next t ∧ faultedWith s t 6#4 0#32 0#32 0#32 ∧ sameOutside s t ∧ t.mem = s.mem) ∧
    (s.operand 1 + 1 ≤ s.platform.nmax → regionCheck [bwtEncIn s] [bwtEncOut s] = true →
      backing s.platform [bwtEncIn s, bwtEncOut s] = .memory → 0x00#8 ∈ textOf s →
      ∃ t, exec i s = .next t ∧ faultedWith s t 2#4 1#32 0#32 0#32 ∧ sameOutside s t ∧ t.mem = s.mem)

/-- 41_bwt_codec.md R177: (a) the four `BWT.ENC.*` commands end alike; (b) `L` is a permutation of the extended text's
bytes; (c) `L` holds 0x00 at the primary row and nowhere else; (d) `L[0] = text[n-1]`. -/
def Obligations.BwtEncodeProperties : Prop :=
  (∀ i ∈ bwtEncCommands, ∀ j ∈ bwtEncCommands, ∀ s : State, exec i s = exec j s) ∧
  ∀ text : List Byte, 0x00#8 ∉ text →
    let sa := suffixArray (extendedText text)
    let L := bwtBytes text sa
    L.Perm (text ++ [0x00#8]) ∧ (∀ r < L.length, L.getD r 1#8 = 0x00#8 ↔ r = primaryIndex sa) ∧
      primaryIndex sa < L.length ∧ (text ≠ [] → L.head? = text.getLast?)

/-- 41_bwt_codec.md R178: the left-to-right pass computes `LF[i] = C[L[i]] + (number of j < i with L[j] = L[i])`, which
is a permutation of the rows for every `L`. -/
def Obligations.LfMappingIsAPermutation : Prop :=
  ∀ L : List Byte, (∀ i < L.length, (lfMapping L).getD i 0 = lfRow L i) ∧
    (lfMapping L).Perm (List.range L.length)

/-- 41_bwt_codec.md R179, R181, R183: `BWT.DEC.P` completes whenever its checks pass, with `out[N-1-k]` the byte of `L`
at the row after `k` steps of the LF-mapping from `x[3]`; `RES0 = N`, `RES1 = x[3]`; every other byte and register is
unchanged. -/
def Obligations.BwtDecPCompletes : Prop :=
  ∀ s : State, s.mem.wf = true → s.operand 1 ≤ s.platform.nmax →
    regionCheck [bwtDecIn s] [bwtDecOut s] = true → backing s.platform [bwtDecIn s, bwtDecOut s] = .memory →
    s.operand 3 < s.operand 1 → (bwtOf s).count 0x00#8 = 1 → (bwtOf s)[s.operand 3]? = some 0x00#8 →
    singleCycle (bwtOf s) (s.operand 3) = true →
    ∃ t, exec .bwtDecP s = .next t ∧
      (∀ k < s.operand 1, t.mem.read (s.operand 2 + (s.operand 1 - 1 - k)) =
        (bwtOf s).getD ((lfRow (bwtOf s))^[k] (s.operand 3)) 0#8) ∧
      completedWith s t (s.operand 1) (s.operand 3) ∧ sameOutside s t ∧ memoryKeptOutside [bwtDecOut s] s t

/-- 41_bwt_codec.md R179, R182, R183: `BWT.DEC.S` completes whenever its checks pass, walking from the row `p` that holds
the one sentinel; `RES0 = N`, `RES1 = p`; every other byte and register is unchanged. -/
def Obligations.BwtDecSCompletes : Prop :=
  ∀ (s : State) (p : Nat), s.mem.wf = true → s.operand 1 ≤ s.platform.nmax →
    regionCheck [bwtDecIn s] [bwtDecOut s] = true → backing s.platform [bwtDecIn s, bwtDecOut s] = .memory →
    (bwtOf s).count 0x00#8 = 1 → (bwtOf s)[p]? = some 0x00#8 → singleCycle (bwtOf s) p = true →
    ∃ t, exec .bwtDecS s = .next t ∧
      (∀ k < s.operand 1, t.mem.read (s.operand 2 + (s.operand 1 - 1 - k)) =
        (bwtOf s).getD ((lfRow (bwtOf s))^[k] p) 0#8) ∧
      completedWith s t (s.operand 1) p ∧ sameOutside s t ∧ memoryKeptOutside [bwtDecOut s] s t

/-- 60_exceptions.md R262, R267, R269, 41_bwt_codec.md R183: the capacity and region faults of the `BWT.DEC.*` commands. -/
def Obligations.BwtDecCommandsFaultOnOperands : Prop :=
  ∀ i ∈ [Instr.bwtDecP, Instr.bwtDecS], ∀ s : State,
    (s.operand 1 > s.platform.nmax →
      ∃ t, exec i s = .next t ∧ faultedWith s t 1#4 s.x[1] 0#32 0#32 ∧ sameOutside s t ∧ t.mem = s.mem) ∧
    (s.operand 1 ≤ s.platform.nmax → regionCheck [bwtDecIn s] [bwtDecOut s] = false →
      ∃ t, exec i s = .next t ∧ faultedWith s t 6#4 0#32 0#32 0#32 ∧ sameOutside s t ∧ t.mem = s.mem)

/-- 41_bwt_codec.md R180, 60_exceptions.md R268, R269: the validity checks of the inverse in their order, with the
sub-code of each; no output byte is written. -/
def Obligations.BwtDecValidityChecks : Prop :=
  ∀ s : State, s.operand 1 ≤ s.platform.nmax → regionCheck [bwtDecIn s] [bwtDecOut s] = true →
    backing s.platform [bwtDecIn s, bwtDecOut s] = .memory →
    let L := bwtOf s
    let N := s.operand 1
    let p := s.operand 3
    let fails := fun (i : Instr) (sub : Word) =>
      ∃ t, exec i s = .next t ∧ faultedWith s t 2#4 sub 0#32 0#32 ∧ sameOutside s t ∧ t.mem = s.mem
    (N = 0 → fails .bwtDecP 2#32 ∧ fails .bwtDecS 2#32) ∧
    (0 < N → N ≤ p → fails .bwtDecP 3#32) ∧
    (p < N → L.count 0x00#8 ≠ 1 → fails .bwtDecP 4#32) ∧
    (0 < N → L.count 0x00#8 ≠ 1 → fails .bwtDecS 4#32) ∧
    (p < N → L.count 0x00#8 = 1 → L[p]? ≠ some 0x00#8 → fails .bwtDecP 5#32) ∧
    (p < N → L.count 0x00#8 = 1 → L[p]? = some 0x00#8 → singleCycle L p = false → fails .bwtDecP 6#32) ∧
    (L.count 0x00#8 = 1 → ∀ q, L[q]? = some 0x00#8 → singleCycle L q = false → fails .bwtDecS 6#32)

/-- 41_bwt_codec.md R182: where `BWT.DEC.S` completes with `RES1 = p`, `BWT.DEC.P` completes exactly for `x[3] = p`, and
then in the same state. -/
def Obligations.SentinelScanFindsTheStoredPrimary : Prop :=
  ∀ s t : State, s.status.done = false → exec .bwtDecS s = .next t → t.status.done = true →
    (s.x[3] = t.res1 → exec .bwtDecP s = .next t) ∧
    (s.x[3] ≠ t.res1 → ∃ u, exec .bwtDecP s = .next u ∧ u.status.done = false ∧ u.status.fault = true)

/-- 41_bwt_codec.md R184: for every text without 0x00 that a `BWT.ENC.*` command encodes, both `BWT.DEC.*` commands on
that `L` give back the text followed by 0x00, `BWT.DEC.P` with `x[3]` the primary index that was returned. -/
def Obligations.BwtRoundTrip : Prop :=
  ∀ i ∈ bwtEncCommands, ∀ s t u : State, s.mem.wf = true → u.mem.wf = true → s.platform.wf = true →
    s.status.done = false → exec i s = .next t → t.status.done = true →
    u.operand 1 = s.operand 1 + 1 → u.operand 1 ≤ u.platform.nmax →
    bwtOf u = t.mem.readBytes (s.operand 2) (s.operand 1 + 1) →
    regionCheck [bwtDecIn u] [bwtDecOut u] = true → backing u.platform [bwtDecIn u, bwtDecOut u] = .memory →
    (∃ v, exec .bwtDecS u = .next v ∧ v.status.done = true ∧
      v.mem.readBytes (u.operand 2) (u.operand 1) = textOf s ++ [0x00#8]) ∧
    (u.x[3] = t.res1 → ∃ v, exec .bwtDecP u = .next v ∧ v.status.done = true ∧
      v.mem.readBytes (u.operand 2) (u.operand 1) = textOf s ++ [0x00#8])

/-- 41_bwt_codec.md R184, the other direction: where the inverse of `L` from its one sentinel row completes, the forward
transform of the decoded text gives back `L` and the same primary row. R184 marks this direction as from general
knowledge, not in its source (93_implementation_defined.md G4). -/
def Obligations.BwtDecodeThenEncodeGivesBack : Prop :=
  ∀ (L out : List Byte) (p : Nat), L.count 0x00#8 = 1 → L[p]? = some 0x00#8 → inverseBwt L p = some out →
    bwtBytes out.dropLast (suffixArray (extendedText out.dropLast)) = L ∧
      primaryIndex (suffixArray (extendedText out.dropLast)) = p

/-! ### Huffman codec -/

/-- 42_huffman_codec.md R203, R206: the lengths of a frequency table. A symbol has a length exactly if its frequency is
not 0; one present symbol has length 1; with two or more the lengths are below their number and meet Kraft's inequality
with equality. It says nothing of the order of merges (R202). -/
def Obligations.HuffmanLengthsFormAFullTree : Prop :=
  ∀ freq : List Nat, freq.length = 256 →
    let lens := huffLengths freq
    let present := (List.range 256).filter fun s => decide (0 < freq.getD s 0)
    lens.length = 256 ∧ (∀ s < 256, lens.getD s 0 ≠ 0 ↔ 0 < freq.getD s 0) ∧
    (present.length = 1 → ∀ s ∈ present, lens.getD s 0 = 1) ∧
    (2 ≤ present.length →
      (∀ s ∈ present, lens.getD s 0 ≤ present.length - 1) ∧
      (present.map fun s => 2 ^ (255 - lens.getD s 0)).sum = 2 ^ 255)

/-- 42_huffman_codec.md R207: for a table that passed both checks, (a) the codes of one length are consecutive from
`first_code` in ascending symbol order, (b) no code is a prefix of another, (c) a shorter code is below the equally long
prefix of every longer one; and every code fits its length (R206). -/
def Obligations.CanonicalCodesArePrefixFree : Prop :=
  ∀ lens : List Nat, (∀ l ∈ lens, l ≤ 32) → oversubscribed lens = false →
    let len := fun s => lens.getD s 0
    let code := fun s => (canonicalCodes lens).getD s 0
    (∀ s < lens.length, len s ≠ 0 → code s = firstCode lens (len s) + (lens.take s).count (len s)) ∧
    (∀ s < lens.length, len s ≠ 0 → code s < 2 ^ len s) ∧
    (∀ s < lens.length, ∀ t < lens.length, s ≠ t → len s ≠ 0 → len s ≤ len t →
      code t / 2 ^ (len t - len s) ≠ code s) ∧
    (∀ s < lens.length, ∀ t < lens.length, len s ≠ 0 → len s < len t → code s < code t / 2 ^ (len t - len s))

/-- 42_huffman_codec.md R204, R208: `HUF.BUILD` completes whenever its region check passes and no length exceeds 32, with
the length table at `x[2]` and the code table at `x[3]`; `RES0` counts the present symbols, `RES1` is the largest
length; every other byte and register is unchanged. -/
def Obligations.HufBuildCompletes : Prop :=
  ∀ s : State, s.mem.wf = true → regionCheck [buildIn s] [buildOutLengths s, buildOutCodes s] = true →
    backing s.platform [buildIn s, buildOutLengths s, buildOutCodes s] = .memory →
    (∀ l ∈ huffLengths (freqOf s), l ≤ 32) →
    let lens := huffLengths (freqOf s)
    ∃ t, exec .hufBuild s = .next t ∧ (t.mem.readBytes (s.operand 2) 256).map BitVec.toNat = lens ∧
      t.mem.readWords (s.operand 3) 256 = (canonicalCodes lens).map (· % 2 ^ 32) ∧
      completedWith s t (lens.filter fun l => decide (l ≠ 0)).length (lens.foldl Nat.max 0) ∧ sameOutside s t ∧
      memoryKeptOutside [buildOutLengths s, buildOutCodes s] s t

/-- 42_huffman_codec.md R204, R208, 60_exceptions.md R264, R267, R269: the faults of `HUF.BUILD`, in their order;
`ERRINFO` of `CodeLengthOverflow` is the smallest symbol whose length exceeds 32. -/
def Obligations.HufBuildFaultsInOrder : Prop :=
  ∀ s : State,
    (regionCheck [buildIn s] [buildOutLengths s, buildOutCodes s] = false →
      ∃ t, exec .hufBuild s = .next t ∧ faultedWith s t 6#4 0#32 0#32 0#32 ∧ sameOutside s t ∧ t.mem = s.mem) ∧
    (∀ sym < 256, regionCheck [buildIn s] [buildOutLengths s, buildOutCodes s] = true →
      backing s.platform [buildIn s, buildOutLengths s, buildOutCodes s] = .memory →
      32 < (huffLengths (freqOf s)).getD sym 0 → (∀ r < sym, (huffLengths (freqOf s)).getD r 0 ≤ 32) →
      ∃ t, exec .hufBuild s = .next t ∧ faultedWith s t 3#4 (toWord sym) 0#32 0#32 ∧ sameOutside s t ∧
        t.mem = s.mem)

/-- 42_huffman_codec.md R205, R209: `HUF.CANON` completes whenever its region, length and Kraft checks pass, with the
canonical codes of the table at `x[2]`; `RES0` counts the present symbols, `RES1` is the largest length; every other byte
and register is unchanged. -/
def Obligations.HufCanonCompletes : Prop :=
  ∀ s : State, s.mem.wf = true → regionCheck [canonIn s] [canonOut s] = true →
    backing s.platform [canonIn s, canonOut s] = .memory →
    (∀ l ∈ lengthTableAt s (s.operand 0), l ≤ 32) → oversubscribed (lengthTableAt s (s.operand 0)) = false →
    let lens := lengthTableAt s (s.operand 0)
    ∃ t, exec .hufCanon s = .next t ∧
      t.mem.readWords (s.operand 2) 256 = (canonicalCodes lens).map (· % 2 ^ 32) ∧
      completedWith s t (lens.filter fun l => decide (l ≠ 0)).length (lens.foldl Nat.max 0) ∧ sameOutside s t ∧
      memoryKeptOutside [canonOut s] s t

/-- 42_huffman_codec.md R204, R206, R209, 60_exceptions.md R269: the faults of `HUF.CANON`, in their order, the Kraft sum
of R206 spelled out. -/
def Obligations.HufCanonFaultsInOrder : Prop :=
  ∀ s : State,
    let lens := lengthTableAt s (s.operand 0)
    let fails := fun (code : BitVec 4) (info : Word) =>
      ∃ t, exec .hufCanon s = .next t ∧ faultedWith s t code info 0#32 0#32 ∧ sameOutside s t ∧ t.mem = s.mem
    (regionCheck [canonIn s] [canonOut s] = false → fails 6#4 0#32) ∧
    (regionCheck [canonIn s] [canonOut s] = true → backing s.platform [canonIn s, canonOut s] = .memory →
      (∀ sym < 256, 32 < lens.getD sym 0 → (∀ r < sym, lens.getD r 0 ≤ 32) → fails 3#4 (toWord sym)) ∧
      ((∀ l ∈ lens, l ≤ 32) → (lens.map fun l => if l = 0 then 0 else 2 ^ (32 - l)).sum > 2 ^ 32 → fails 2#4 8#32))

/-- 42_huffman_codec.md R210, 43_bitstream.md R251, R253, R254: `HUF.ENC` completes whenever its checks pass, with stream
bit `k` at `x[2]` the `k`-th bit of the symbols' codes and every pad bit 0; `RES0 = m`, `RES1 = ceil(m/8)`; every other
byte and register is unchanged. -/
def Obligations.HufEncCompletes : Prop :=
  ∀ s : State, s.mem.wf = true →
    let lens := lengthsOf s
    let m := ((symbolsOf s).map fun b => lens.getD b.toNat 0).sum
    regionCheck (encIns s) [encOut s m] = true → backing s.platform (encIns s) = .memory →
    backing s.platform [encOut s m] = .memory → (∀ l ∈ lens, l ≤ 32) →
    (∀ b ∈ symbolsOf s, lens.getD b.toNat 0 ≠ 0) → m < 2 ^ 32 →
    ∃ t, exec .hufEnc s = .next t ∧
      (∀ k < m, bitGet (t.mem.readBytes (s.operand 2) ((m + 7) / 8)) k =
        ((symbolsOf s).flatMap fun b => codeBits (encCode s b) (lens.getD b.toNat 0)).getD k false) ∧
      (∀ k < 8 * ((m + 7) / 8), m ≤ k → bitGet (t.mem.readBytes (s.operand 2) ((m + 7) / 8)) k = false) ∧
      completedWith s t m ((m + 7) / 8) ∧ sameOutside s t ∧ memoryKeptOutside [encOut s m] s t

/-- 42_huffman_codec.md R210, 60_exceptions.md R269: the faults of `HUF.ENC`, in their order: input regions, the length
table (whole), an absent symbol, a bit count above `2^32 - 1`, the output region. -/
def Obligations.HufEncFaultsInOrder : Prop :=
  ∀ s : State,
    let lens := lengthsOf s
    let m := ((symbolsOf s).map fun b => lens.getD b.toNat 0).sum
    let fails := fun (code : BitVec 4) (info : Word) =>
      ∃ t, exec .hufEnc s = .next t ∧ faultedWith s t code info 0#32 0#32 ∧ sameOutside s t ∧ t.mem = s.mem
    ((∃ r ∈ encIns s, r.base + r.size > 2 ^ 32) → fails 6#4 0#32) ∧
    ((∀ r ∈ encIns s, r.base + r.size ≤ 2 ^ 32) → backing s.platform (encIns s) = .memory →
      (∀ sym < 256, 32 < lens.getD sym 0 → (∀ r < sym, lens.getD r 0 ≤ 32) → fails 3#4 (toWord sym)) ∧
      ((∀ l ∈ lens, l ≤ 32) →
        ((∃ b ∈ symbolsOf s, lens.getD b.toNat 0 = 0) → fails 2#4 7#32) ∧
        ((∀ b ∈ symbolsOf s, lens.getD b.toNat 0 ≠ 0) → 2 ^ 32 ≤ m → fails 6#4 0#32) ∧
        ((∀ b ∈ symbolsOf s, lens.getD b.toNat 0 ≠ 0) → m < 2 ^ 32 →
          regionCheck (encIns s) [encOut s m] = false → fails 6#4 0#32)))

/-- 42_huffman_codec.md R212, R213: `HUF.DEC` completes whenever its checks pass and the decode loop resolves every bit,
with the resolved symbols at `x[2]`; `RES0` is their number, `RES1 = nbits`; every other byte and register is
unchanged. -/
def Obligations.HufDecCompletes : Prop :=
  ∀ s : State, s.mem.wf = true →
    let d := decodedOf s
    regionCheck (decIns s) [decOut s d.symbols.length] = true → backing s.platform (decIns s) = .memory →
    backing s.platform [decOut s d.symbols.length] = .memory → (∀ l ∈ lengthsOf s, l ≤ 32) →
    oversubscribed (lengthsOf s) = false → d.truncatedAt = none →
    ∃ t, exec .hufDec s = .next t ∧ t.mem.readBytes (s.operand 2) d.symbols.length = d.symbols ∧
      completedWith s t d.symbols.length (s.operand 1) ∧ sameOutside s t ∧
      memoryKeptOutside [decOut s d.symbols.length] s t

/-- 42_huffman_codec.md R214: `HUF.LEN` completes whenever its checks pass and the decode loop resolves every bit; `RES0`
is the number of symbols, `RES1 = nbits`; memory and every other register are unchanged. -/
def Obligations.HufLenCompletes : Prop :=
  ∀ s : State, (∀ r ∈ decIns s, r.base + r.size ≤ 2 ^ 32) → backing s.platform (decIns s) = .memory →
    (∀ l ∈ lengthsOf s, l ≤ 32) → oversubscribed (lengthsOf s) = false → (decodedOf s).truncatedAt = none →
    ∃ t, exec .hufLen s = .next t ∧ completedWith s t (decodedOf s).symbols.length (s.operand 1) ∧
      sameOutside s t ∧ t.mem = s.mem

/-- 42_huffman_codec.md R212, R213, R214, 60_exceptions.md R265, R271: a stream that does not resolve ends both commands
in `TruncatedStream` with `RES0` the number of resolved symbols and `RES1 = ERRINFO` the position of the unresolved
code; `HUF.DEC` has written the resolved symbols and nothing else, `HUF.LEN` nothing. -/
def Obligations.TruncatedStreamReportsPartialOutput : Prop :=
  ∀ (s : State) (start : Nat), s.mem.wf = true →
    let d := decodedOf s
    (∀ r ∈ decIns s, r.base + r.size ≤ 2 ^ 32) → backing s.platform (decIns s) = .memory →
    (∀ l ∈ lengthsOf s, l ≤ 32) → oversubscribed (lengthsOf s) = false → d.truncatedAt = some start →
    (∃ t, exec .hufLen s = .next t ∧
      faultedWith s t 4#4 (toWord start) (toWord d.symbols.length) (toWord start) ∧ sameOutside s t ∧
      t.mem = s.mem) ∧
    (regionCheck (decIns s) [decOut s d.symbols.length] = true →
      backing s.platform [decOut s d.symbols.length] = .memory →
      ∃ t, exec .hufDec s = .next t ∧
        faultedWith s t 4#4 (toWord start) (toWord d.symbols.length) (toWord start) ∧ sameOutside s t ∧
        t.mem.readBytes (s.operand 2) d.symbols.length = d.symbols ∧
        memoryKeptOutside [decOut s d.symbols.length] s t)

/-- 42_huffman_codec.md R213, R214, 60_exceptions.md R269: the faults of `HUF.DEC` and `HUF.LEN` before the stream is
looked at, in their order, and the output region's `BadOperand` of `HUF.DEC`, which comes before `TruncatedStream`. -/
def Obligations.HufDecodeFaultsInOrder : Prop :=
  ∀ s : State,
    let lens := lengthsOf s
    let fails := fun (i : Instr) (code : BitVec 4) (info : Word) =>
      ∃ t, exec i s = .next t ∧ faultedWith s t code info 0#32 0#32 ∧ sameOutside s t ∧ t.mem = s.mem
    (∀ i ∈ [Instr.hufDec, Instr.hufLen],
      ((∃ r ∈ decIns s, r.base + r.size > 2 ^ 32) → fails i 6#4 0#32) ∧
      ((∀ r ∈ decIns s, r.base + r.size ≤ 2 ^ 32) → backing s.platform (decIns s) = .memory →
        (∀ sym < 256, 32 < lens.getD sym 0 → (∀ r < sym, lens.getD r 0 ≤ 32) → fails i 3#4 (toWord sym)) ∧
        ((∀ l ∈ lens, l ≤ 32) → oversubscribed lens = true → fails i 2#4 8#32))) ∧
    ((∀ r ∈ decIns s, r.base + r.size ≤ 2 ^ 32) → backing s.platform (decIns s) = .memory →
      (∀ l ∈ lens, l ≤ 32) → oversubscribed lens = false →
      regionCheck (decIns s) [decOut s (decodedOf s).symbols.length] = false → fails .hufDec 6#4 0#32)

/-- 42_huffman_codec.md R214: `HUF.LEN` ends with the `RES0`, `RES1`, `ERRINFO` and `STATUS` of `HUF.DEC` on the same
registers and memory, unless `HUF.DEC` ends in its output region's `BadOperand`, that is, unless every earlier check
passes and its output region fails; memory is unchanged by `HUF.LEN` in every outcome. -/
def Obligations.LengthProbeAgreesWithDecode : Prop :=
  ∀ s : State, s.platform.allMemory = true →
    ∃ t u, exec .hufDec s = .next t ∧ exec .hufLen s = .next u ∧ u.mem = s.mem ∧
      (((∀ r ∈ decIns s, r.base + r.size ≤ 2 ^ 32) → (∀ l ∈ lengthsOf s, l ≤ 32) →
          oversubscribed (lengthsOf s) = false →
          regionCheck (decIns s) [decOut s (decodedOf s).symbols.length] = true) →
        u.res0 = t.res0 ∧ u.res1 = t.res1 ∧ u.errinfo = t.errinfo ∧ u.status = t.status)

/-- 43_bitstream.md R256: after the bits of a stream are put into a zeroed buffer of `ceil(m/8)` bytes, each reads back,
and every pad bit is 0. -/
def Obligations.BitPackingRoundTrip : Prop :=
  ∀ bits : List Bool, (packBits bits).length = (bits.length + 7) / 8 ∧
    (∀ k < bits.length, bitGet (packBits bits) k = bits.getD k false) ∧
    (∀ k < 8 * ((bits.length + 7) / 8), bits.length ≤ k → bitGet (packBits bits) k = false)

/-- 43_bitstream.md R255: a decode depends on the bits below `nbits` alone, not on pad bits or later bytes. -/
def Obligations.DecodingIgnoresPadBits : Prop :=
  ∀ (lens : List Nat) (bytes bytes' : List Byte) (nbits : Nat),
    (∀ k < nbits, bitGet bytes k = bitGet bytes' k) → decodeLoop lens bytes nbits = decodeLoop lens bytes' nbits

/-- 42_huffman_codec.md R207, R211, R212: decoding inverts encoding. A stream whose bits are the canonical codes of a
symbol sequence decodes to that sequence, with no bit left over, for every table that passes the checks. -/
def Obligations.DecodingInvertsCanonicalEncoding : Prop :=
  ∀ (lens : List Nat) (symbols bytes : List Byte), lens.length = 256 → (∀ l ∈ lens, l ≤ 32) →
    oversubscribed lens = false → (∀ b ∈ symbols, lens.getD b.toNat 0 ≠ 0) →
    let bits := symbols.flatMap fun b => codeBits (canonicalCodeOf lens b) (lens.getD b.toNat 0)
    (∀ k < bits.length, bitGet bytes k = bits.getD k false) →
    decodeLoop lens bytes bits.length = { symbols := symbols, truncatedAt := none }

/-- 42_huffman_codec.md R215: a symbol buffer encoded by `HUF.ENC` with the code that its own byte counts give decodes by
`HUF.DEC` to the same bytes, and `HUF.LEN` returns their number. -/
def Obligations.HuffmanRoundTrip : Prop :=
  ∀ s t u : State, s.mem.wf = true → u.mem.wf = true →
    lengthsOf s = huffLengths (byteCounts (symbolsOf s)) →
    (∀ b ∈ symbolsOf s, encCode s b = canonicalCodeOf (lengthsOf s) b) →
    s.status.done = false → exec .hufEnc s = .next t → t.status.done = true →
    u.x[1] = t.res0 → streamOf u = t.mem.readBytes (s.operand 2) (bytesForBits t.res0.toNat) →
    lengthsOf u = lengthsOf s → regionCheck (decIns u) [decOut u (s.operand 1)] = true →
    backing u.platform (decIns u ++ [decOut u (s.operand 1)]) = .memory →
    (∃ v, exec .hufDec u = .next v ∧ v.status.done = true ∧ v.res0.toNat = s.operand 1 ∧
      v.mem.readBytes (u.operand 2) (s.operand 1) = symbolsOf s) ∧
    (∃ v, exec .hufLen u = .next v ∧ v.status.done = true ∧ v.res0.toNat = s.operand 1)

/-! ### The whole machine -/

/-- 70_reset_and_hazards.md R312, 40_suffix_sorter.md R138: on a platform of plain memory a command's outcome is a function
of its operand registers and its input regions: two states that agree on them end with the same results, `ERRINFO`,
`CAUSE`, `DONE`, `BUSY` and, if it was the same before, `FAULT`, and on completion with the same bytes in the output
regions. -/
def Obligations.CommandsHoldNoStateBetweenCalls : Prop :=
  ∀ (i : Instr) (s u t : State), s.mem.wf = true → u.mem.wf = true → s.platform.allMemory = true → s.x = u.x →
    s.platform = u.platform → s.status.done = false → u.status.done = false →
    (∀ r ∈ inputRegions i s, ∀ a, inRegion r a = true → s.mem.read a = u.mem.read a) → exec i s = .next t →
    ∃ v, exec i u = .next v ∧ v.res0 = t.res0 ∧ v.res1 = t.res1 ∧ v.errinfo = t.errinfo ∧
      v.status.cause = t.status.cause ∧ v.status.done = t.status.done ∧ v.status.busy = t.status.busy ∧
      (s.status.fault = u.status.fault → v.status.fault = t.status.fault) ∧
      (t.status.done = true → ∀ r ∈ outputRegions i s, ∀ a, inRegion r a = true → v.mem.read a = t.mem.read a)

/-- The invariant holds at reset (10_state.md R37). The platform's values and the empty memory are the model's choices
(logs 1 to 5). -/
def Obligations.ResetSatisfiesTheInvariant : Prop := State.reset.inv = true

/-- 10_state.md R24, R27, R33, 60_exceptions.md R261: from every state, reached by a run or not, in which the flags of
`STATUS` agree, `CAUSE = 0` goes with `ERRINFO = 0`, memory is in its canonical form and the parameters are in range, a
step that answers a next state leaves such a state, on the same platform. -/
def Obligations.StepKeepsTheInvariant : Prop :=
  ∀ s t : State, s.inv = true → step s = .next t → t.inv = true ∧ t.platform = s.platform

/-- 10_state.md R33: the run state moves only from IDLE to BUSY, from BUSY to IDLE or FAULTED, from FAULTED to IDLE, or
not at all, and `BUSY = 1` with `FAULT = 1` never occurs. -/
def Obligations.RunStateTransitions : Prop :=
  ∀ s t : State, s.inv = true → step s = .next t →
    runState t ≠ .impossible ∧
    (runState s = .idle → runState t = .idle ∨ runState t = .busy) ∧
    (runState s = .busy → runState t = .busy ∨ runState t = .idle ∨ runState t = .faulted) ∧
    (runState s = .faulted → runState t = .faulted ∨ runState t = .idle)

/-- 10_state.md R21, R34: the operand registers of a BUSY engine are changed by no host write and no command; only a reset
changes them, and it leaves every register at its reset value. -/
def Obligations.OperandsAreFrozenWhileBusy : Prop :=
  ∀ s t : State, s.inv = true → step s = .next t → s.status.busy = true →
    t.x = s.x ∨ (t.x = Vector.replicate 8 0#32 ∧ registersReset t)
end

