-- ==== Sys2Proof/Laws/State.lean ====
section
/-! SUPPORT. One lemma per field per update of the state, each true by definition, so that no later proof unfolds a
record update. -/

namespace Sys2Proof.Machine

/-! ### `completeWith` -/

@[simp] theorem completeWith_x (m : Memory) (r0 r1 : Word) (s : State) : (completeWith m r0 r1 s).x = s.x := rfl
@[simp] theorem completeWith_res0 (m : Memory) (r0 r1 : Word) (s : State) : (completeWith m r0 r1 s).res0 = r0 := rfl
@[simp] theorem completeWith_res1 (m : Memory) (r0 r1 : Word) (s : State) : (completeWith m r0 r1 s).res1 = r1 := rfl
@[simp] theorem completeWith_ctrl (m : Memory) (r0 r1 : Word) (s : State) : (completeWith m r0 r1 s).ctrl = s.ctrl := rfl
@[simp] theorem completeWith_status (m : Memory) (r0 r1 : Word) (s : State) : (completeWith m r0 r1 s).status = flagsCompleted s.status := rfl
@[simp] theorem completeWith_cmd (m : Memory) (r0 r1 : Word) (s : State) : (completeWith m r0 r1 s).cmd = s.cmd := rfl
@[simp] theorem completeWith_errinfo (m : Memory) (r0 r1 : Word) (s : State) : (completeWith m r0 r1 s).errinfo = 0#32 := rfl
@[simp] theorem completeWith_mem (m : Memory) (r0 r1 : Word) (s : State) : (completeWith m r0 r1 s).mem = m := rfl
@[simp] theorem completeWith_platform (m : Memory) (r0 r1 : Word) (s : State) : (completeWith m r0 r1 s).platform = s.platform := rfl
@[simp] theorem completeWith_script (m : Memory) (r0 r1 : Word) (s : State) : (completeWith m r0 r1 s).script = s.script := rfl
@[simp] theorem completeWith_reads (m : Memory) (r0 r1 : Word) (s : State) : (completeWith m r0 r1 s).reads = s.reads := rfl
@[simp] theorem completeWith_fresh (m : Memory) (r0 r1 : Word) (s : State) : (completeWith m r0 r1 s).fresh = s.fresh := rfl

/-! ### `raiseFault` -/

@[simp] theorem raiseFault_x (c : Cause) (i r0 r1 : Word) (s : State) : (raiseFault c i r0 r1 s).x = s.x := rfl
@[simp] theorem raiseFault_res0 (c : Cause) (i r0 r1 : Word) (s : State) : (raiseFault c i r0 r1 s).res0 = r0 := rfl
@[simp] theorem raiseFault_res1 (c : Cause) (i r0 r1 : Word) (s : State) : (raiseFault c i r0 r1 s).res1 = r1 := rfl
@[simp] theorem raiseFault_ctrl (c : Cause) (i r0 r1 : Word) (s : State) : (raiseFault c i r0 r1 s).ctrl = s.ctrl := rfl
@[simp] theorem raiseFault_status (c : Cause) (i r0 r1 : Word) (s : State) : (raiseFault c i r0 r1 s).status = flagsFaulted c s.status := rfl
@[simp] theorem raiseFault_cmd (c : Cause) (i r0 r1 : Word) (s : State) : (raiseFault c i r0 r1 s).cmd = s.cmd := rfl
@[simp] theorem raiseFault_errinfo (c : Cause) (i r0 r1 : Word) (s : State) : (raiseFault c i r0 r1 s).errinfo = i := rfl
@[simp] theorem raiseFault_mem (c : Cause) (i r0 r1 : Word) (s : State) : (raiseFault c i r0 r1 s).mem = s.mem := rfl
@[simp] theorem raiseFault_platform (c : Cause) (i r0 r1 : Word) (s : State) : (raiseFault c i r0 r1 s).platform = s.platform := rfl
@[simp] theorem raiseFault_script (c : Cause) (i r0 r1 : Word) (s : State) : (raiseFault c i r0 r1 s).script = s.script := rfl
@[simp] theorem raiseFault_reads (c : Cause) (i r0 r1 : Word) (s : State) : (raiseFault c i r0 r1 s).reads = s.reads := rfl
@[simp] theorem raiseFault_fresh (c : Cause) (i r0 r1 : Word) (s : State) : (raiseFault c i r0 r1 s).fresh = s.fresh := rfl

/-! ### `acknowledgeFault` -/

@[simp] theorem acknowledgeFault_x (s : State) : (acknowledgeFault s).x = s.x := rfl
@[simp] theorem acknowledgeFault_res0 (s : State) : (acknowledgeFault s).res0 = s.res0 := rfl
@[simp] theorem acknowledgeFault_res1 (s : State) : (acknowledgeFault s).res1 = s.res1 := rfl
@[simp] theorem acknowledgeFault_ctrl (s : State) : (acknowledgeFault s).ctrl = s.ctrl := rfl
@[simp] theorem acknowledgeFault_status (s : State) : (acknowledgeFault s).status = { s.status with fault := false } := rfl
@[simp] theorem acknowledgeFault_cmd (s : State) : (acknowledgeFault s).cmd = s.cmd := rfl
@[simp] theorem acknowledgeFault_errinfo (s : State) : (acknowledgeFault s).errinfo = s.errinfo := rfl
@[simp] theorem acknowledgeFault_mem (s : State) : (acknowledgeFault s).mem = s.mem := rfl
@[simp] theorem acknowledgeFault_platform (s : State) : (acknowledgeFault s).platform = s.platform := rfl
@[simp] theorem acknowledgeFault_script (s : State) : (acknowledgeFault s).script = s.script := rfl
@[simp] theorem acknowledgeFault_reads (s : State) : (acknowledgeFault s).reads = s.reads := rfl
@[simp] theorem acknowledgeFault_fresh (s : State) : (acknowledgeFault s).fresh = s.fresh := rfl

/-! ### `clearDone` -/

@[simp] theorem clearDone_x (s : State) : (clearDone s).x = s.x := rfl
@[simp] theorem clearDone_res0 (s : State) : (clearDone s).res0 = s.res0 := rfl
@[simp] theorem clearDone_res1 (s : State) : (clearDone s).res1 = s.res1 := rfl
@[simp] theorem clearDone_ctrl (s : State) : (clearDone s).ctrl = s.ctrl := rfl
@[simp] theorem clearDone_status (s : State) : (clearDone s).status = { s.status with done := false } := rfl
@[simp] theorem clearDone_cmd (s : State) : (clearDone s).cmd = s.cmd := rfl
@[simp] theorem clearDone_errinfo (s : State) : (clearDone s).errinfo = s.errinfo := rfl
@[simp] theorem clearDone_mem (s : State) : (clearDone s).mem = s.mem := rfl
@[simp] theorem clearDone_platform (s : State) : (clearDone s).platform = s.platform := rfl
@[simp] theorem clearDone_script (s : State) : (clearDone s).script = s.script := rfl
@[simp] theorem clearDone_reads (s : State) : (clearDone s).reads = s.reads := rfl
@[simp] theorem clearDone_fresh (s : State) : (clearDone s).fresh = s.fresh := rfl

/-! ### `clearOverrun` -/

@[simp] theorem clearOverrun_x (s : State) : (clearOverrun s).x = s.x := rfl
@[simp] theorem clearOverrun_res0 (s : State) : (clearOverrun s).res0 = s.res0 := rfl
@[simp] theorem clearOverrun_res1 (s : State) : (clearOverrun s).res1 = s.res1 := rfl
@[simp] theorem clearOverrun_ctrl (s : State) : (clearOverrun s).ctrl = s.ctrl := rfl
@[simp] theorem clearOverrun_status (s : State) : (clearOverrun s).status = { s.status with ovr := false } := rfl
@[simp] theorem clearOverrun_cmd (s : State) : (clearOverrun s).cmd = s.cmd := rfl
@[simp] theorem clearOverrun_errinfo (s : State) : (clearOverrun s).errinfo = s.errinfo := rfl
@[simp] theorem clearOverrun_mem (s : State) : (clearOverrun s).mem = s.mem := rfl
@[simp] theorem clearOverrun_platform (s : State) : (clearOverrun s).platform = s.platform := rfl
@[simp] theorem clearOverrun_script (s : State) : (clearOverrun s).script = s.script := rfl
@[simp] theorem clearOverrun_reads (s : State) : (clearOverrun s).reads = s.reads := rfl
@[simp] theorem clearOverrun_fresh (s : State) : (clearOverrun s).fresh = s.fresh := rfl

/-! ### `dropWrite` -/

@[simp] theorem dropWrite_x (s : State) : (dropWrite s).x = s.x := rfl
@[simp] theorem dropWrite_res0 (s : State) : (dropWrite s).res0 = s.res0 := rfl
@[simp] theorem dropWrite_res1 (s : State) : (dropWrite s).res1 = s.res1 := rfl
@[simp] theorem dropWrite_ctrl (s : State) : (dropWrite s).ctrl = s.ctrl := rfl
@[simp] theorem dropWrite_status (s : State) : (dropWrite s).status = flagsOverrun s.status := rfl
@[simp] theorem dropWrite_cmd (s : State) : (dropWrite s).cmd = s.cmd := rfl
@[simp] theorem dropWrite_errinfo (s : State) : (dropWrite s).errinfo = s.errinfo := rfl
@[simp] theorem dropWrite_mem (s : State) : (dropWrite s).mem = s.mem := rfl
@[simp] theorem dropWrite_platform (s : State) : (dropWrite s).platform = s.platform := rfl
@[simp] theorem dropWrite_script (s : State) : (dropWrite s).script = s.script := rfl
@[simp] theorem dropWrite_reads (s : State) : (dropWrite s).reads = s.reads := rfl
@[simp] theorem dropWrite_fresh (s : State) : (dropWrite s).fresh = s.fresh := rfl

/-! ### `acceptCommand` -/

@[simp] theorem acceptCommand_x (w : Word) (s : State) : (acceptCommand w s).x = s.x := rfl
@[simp] theorem acceptCommand_res0 (w : Word) (s : State) : (acceptCommand w s).res0 = s.res0 := rfl
@[simp] theorem acceptCommand_res1 (w : Word) (s : State) : (acceptCommand w s).res1 = s.res1 := rfl
@[simp] theorem acceptCommand_ctrl (w : Word) (s : State) : (acceptCommand w s).ctrl = s.ctrl := rfl
@[simp] theorem acceptCommand_status (w : Word) (s : State) : (acceptCommand w s).status = flagsAccepted s.status := rfl
@[simp] theorem acceptCommand_cmd (w : Word) (s : State) : (acceptCommand w s).cmd = w := rfl
@[simp] theorem acceptCommand_errinfo (w : Word) (s : State) : (acceptCommand w s).errinfo = s.errinfo := rfl
@[simp] theorem acceptCommand_mem (w : Word) (s : State) : (acceptCommand w s).mem = s.mem := rfl
@[simp] theorem acceptCommand_platform (w : Word) (s : State) : (acceptCommand w s).platform = s.platform := rfl
@[simp] theorem acceptCommand_script (w : Word) (s : State) : (acceptCommand w s).script = s.script := rfl
@[simp] theorem acceptCommand_reads (w : Word) (s : State) : (acceptCommand w s).reads = s.reads := rfl
@[simp] theorem acceptCommand_fresh (w : Word) (s : State) : (acceptCommand w s).fresh = s.fresh := rfl

/-! ### `tick` -/

@[simp] theorem tick_x (s : State) : (tick s).x = s.x := rfl
@[simp] theorem tick_res0 (s : State) : (tick s).res0 = s.res0 := rfl
@[simp] theorem tick_res1 (s : State) : (tick s).res1 = s.res1 := rfl
@[simp] theorem tick_ctrl (s : State) : (tick s).ctrl = s.ctrl := rfl
@[simp] theorem tick_status (s : State) : (tick s).status = s.status := rfl
@[simp] theorem tick_cmd (s : State) : (tick s).cmd = s.cmd := rfl
@[simp] theorem tick_errinfo (s : State) : (tick s).errinfo = s.errinfo := rfl
@[simp] theorem tick_mem (s : State) : (tick s).mem = s.mem := rfl
@[simp] theorem tick_platform (s : State) : (tick s).platform = s.platform := rfl
@[simp] theorem tick_script (s : State) : (tick s).script = s.script := rfl
@[simp] theorem tick_reads (s : State) : (tick s).reads = s.reads := rfl
@[simp] theorem tick_fresh (s : State) : (tick s).fresh = s.fresh + 1 := rfl

/-! ### `resetEngine` -/

@[simp] theorem resetEngine_x (s : State) : (resetEngine s).x = Vector.replicate 8 0#32 := rfl
@[simp] theorem resetEngine_res0 (s : State) : (resetEngine s).res0 = 0#32 := rfl
@[simp] theorem resetEngine_res1 (s : State) : (resetEngine s).res1 = 0#32 := rfl
@[simp] theorem resetEngine_ctrl (s : State) : (resetEngine s).ctrl = Ctrl.reset := rfl
@[simp] theorem resetEngine_status (s : State) : (resetEngine s).status = Status.reset := rfl
@[simp] theorem resetEngine_cmd (s : State) : (resetEngine s).cmd = 0#32 := rfl
@[simp] theorem resetEngine_errinfo (s : State) : (resetEngine s).errinfo = 0#32 := rfl
@[simp] theorem resetEngine_mem (s : State) : (resetEngine s).mem = (abandonedRegions s).foldl (scrambleRegion s.fresh) s.mem := rfl
@[simp] theorem resetEngine_platform (s : State) : (resetEngine s).platform = s.platform := rfl
@[simp] theorem resetEngine_script (s : State) : (resetEngine s).script = s.script := rfl
@[simp] theorem resetEngine_reads (s : State) : (resetEngine s).reads = s.reads := rfl
@[simp] theorem resetEngine_fresh (s : State) : (resetEngine s).fresh = s.fresh := rfl

/-! ### `fetchState` -/

@[simp] theorem fetchState_x (s : State) (w : Word) : (fetchState s w).x = s.x := rfl
@[simp] theorem fetchState_res0 (s : State) (w : Word) : (fetchState s w).res0 = s.res0 := rfl
@[simp] theorem fetchState_res1 (s : State) (w : Word) : (fetchState s w).res1 = s.res1 := rfl
@[simp] theorem fetchState_ctrl (s : State) (w : Word) : (fetchState s w).ctrl = s.ctrl := rfl
@[simp] theorem fetchState_status (s : State) (w : Word) : (fetchState s w).status = flagsAccepted { s.status with fault := false } := rfl
@[simp] theorem fetchState_cmd (s : State) (w : Word) : (fetchState s w).cmd = w := rfl
@[simp] theorem fetchState_errinfo (s : State) (w : Word) : (fetchState s w).errinfo = s.errinfo := rfl
@[simp] theorem fetchState_mem (s : State) (w : Word) : (fetchState s w).mem = s.mem := rfl
@[simp] theorem fetchState_platform (s : State) (w : Word) : (fetchState s w).platform = s.platform := rfl
@[simp] theorem fetchState_script (s : State) (w : Word) : (fetchState s w).script = holdHost s.script := rfl
@[simp] theorem fetchState_reads (s : State) (w : Word) : (fetchState s w).reads = s.reads := rfl
@[simp] theorem fetchState_fresh (s : State) (w : Word) : (fetchState s w).fresh = s.fresh := rfl

/-! ### `flagsAccepted` -/

@[simp] theorem flagsAccepted_busy (t : Status) : (flagsAccepted t).busy = true := rfl
@[simp] theorem flagsAccepted_done (t : Status) : (flagsAccepted t).done = false := rfl
@[simp] theorem flagsAccepted_fault (t : Status) : (flagsAccepted t).fault = t.fault := rfl
@[simp] theorem flagsAccepted_ovr (t : Status) : (flagsAccepted t).ovr = t.ovr := rfl
@[simp] theorem flagsAccepted_cause (t : Status) : (flagsAccepted t).cause = t.cause := rfl

/-! ### `flagsCompleted` -/

@[simp] theorem flagsCompleted_busy (t : Status) : (flagsCompleted t).busy = false := rfl
@[simp] theorem flagsCompleted_done (t : Status) : (flagsCompleted t).done = true := rfl
@[simp] theorem flagsCompleted_fault (t : Status) : (flagsCompleted t).fault = t.fault := rfl
@[simp] theorem flagsCompleted_ovr (t : Status) : (flagsCompleted t).ovr = t.ovr := rfl
@[simp] theorem flagsCompleted_cause (t : Status) : (flagsCompleted t).cause = 0#4 := rfl

/-! ### `flagsFaulted` -/

@[simp] theorem flagsFaulted_busy (c : Cause) (t : Status) : (flagsFaulted c t).busy = false := rfl
@[simp] theorem flagsFaulted_done (c : Cause) (t : Status) : (flagsFaulted c t).done = t.done := rfl
@[simp] theorem flagsFaulted_fault (c : Cause) (t : Status) : (flagsFaulted c t).fault = true := rfl
@[simp] theorem flagsFaulted_ovr (c : Cause) (t : Status) : (flagsFaulted c t).ovr = t.ovr := rfl
@[simp] theorem flagsFaulted_cause (c : Cause) (t : Status) : (flagsFaulted c t).cause = causeCode c := rfl

/-! ### `recordRead`, `pollStatus`, `pollTimes` -/

@[simp] theorem recordRead_x (off : Nat) (s : State) : (recordRead off s).x = s.x := rfl
@[simp] theorem recordRead_res0 (off : Nat) (s : State) : (recordRead off s).res0 = s.res0 := rfl
@[simp] theorem recordRead_res1 (off : Nat) (s : State) : (recordRead off s).res1 = s.res1 := rfl
@[simp] theorem recordRead_ctrl (off : Nat) (s : State) : (recordRead off s).ctrl = s.ctrl := rfl
@[simp] theorem recordRead_status (off : Nat) (s : State) : (recordRead off s).status = s.status := rfl
@[simp] theorem recordRead_cmd (off : Nat) (s : State) : (recordRead off s).cmd = s.cmd := rfl
@[simp] theorem recordRead_errinfo (off : Nat) (s : State) : (recordRead off s).errinfo = s.errinfo := rfl
@[simp] theorem recordRead_mem (off : Nat) (s : State) : (recordRead off s).mem = s.mem := rfl
@[simp] theorem recordRead_platform (off : Nat) (s : State) : (recordRead off s).platform = s.platform := rfl
@[simp] theorem recordRead_script (off : Nat) (s : State) : (recordRead off s).script = s.script := rfl
@[simp] theorem recordRead_reads (off : Nat) (s : State) :
    (recordRead off s).reads = .word (readRegister s off) :: s.reads := rfl
@[simp] theorem recordRead_fresh (off : Nat) (s : State) : (recordRead off s).fresh = s.fresh := rfl

@[simp] theorem pollStatus_eq (s : State) : pollStatus s = recordRead (regOffset .status) s := rfl

/-- Reads of `STATUS` one after the other find the same word and change nothing else (10_state.md R32). -/
theorem pollTimes_eq (n : Nat) (s : State) :
    pollTimes n s = { s with
      reads := List.replicate n (.word (readRegister s (regOffset .status))) ++ s.reads } := by
  induction n generalizing s with
  | zero => rfl
  | succ n ih =>
    rw [pollTimes, ih]
    simp [recordRead, readRegister, List.replicate_succ', regOffset, registerAt]

@[simp] theorem pollTimes_x (n : Nat) (s : State) : (pollTimes n s).x = s.x := by rw [pollTimes_eq]
@[simp] theorem pollTimes_res0 (n : Nat) (s : State) : (pollTimes n s).res0 = s.res0 := by rw [pollTimes_eq]
@[simp] theorem pollTimes_res1 (n : Nat) (s : State) : (pollTimes n s).res1 = s.res1 := by rw [pollTimes_eq]
@[simp] theorem pollTimes_ctrl (n : Nat) (s : State) : (pollTimes n s).ctrl = s.ctrl := by rw [pollTimes_eq]
@[simp] theorem pollTimes_status (n : Nat) (s : State) : (pollTimes n s).status = s.status := by rw [pollTimes_eq]
@[simp] theorem pollTimes_cmd (n : Nat) (s : State) : (pollTimes n s).cmd = s.cmd := by rw [pollTimes_eq]
@[simp] theorem pollTimes_errinfo (n : Nat) (s : State) : (pollTimes n s).errinfo = s.errinfo := by rw [pollTimes_eq]
@[simp] theorem pollTimes_mem (n : Nat) (s : State) : (pollTimes n s).mem = s.mem := by rw [pollTimes_eq]
@[simp] theorem pollTimes_platform (n : Nat) (s : State) : (pollTimes n s).platform = s.platform := by rw [pollTimes_eq]
@[simp] theorem pollTimes_script (n : Nat) (s : State) : (pollTimes n s).script = s.script := by rw [pollTimes_eq]
@[simp] theorem pollTimes_reads (n : Nat) (s : State) :
    (pollTimes n s).reads = List.replicate n (.word (readRegister s (regOffset .status))) ++ s.reads := by
  rw [pollTimes_eq]
@[simp] theorem pollTimes_fresh (n : Nat) (s : State) : (pollTimes n s).fresh = s.fresh := by rw [pollTimes_eq]

/-! ### `flagsOverrun` -/

@[simp] theorem flagsOverrun_busy (t : Status) : (flagsOverrun t).busy = t.busy := rfl
@[simp] theorem flagsOverrun_done (t : Status) : (flagsOverrun t).done = t.done := rfl
@[simp] theorem flagsOverrun_fault (t : Status) : (flagsOverrun t).fault = t.fault := rfl
@[simp] theorem flagsOverrun_ovr (t : Status) : (flagsOverrun t).ovr = true := rfl
@[simp] theorem flagsOverrun_cause (t : Status) : (flagsOverrun t).cause = t.cause := rfl

/-! ### Operands and regions read only the operand registers -/

theorem operand_congr {s t : State} (h : s.x = t.x) (i : Fin 8) : s.operand i = t.operand i := by
  simp [State.operand, h]

theorem operand_lt (s : State) (i : Fin 8) : s.operand i < memorySize := (s.x[i]).isLt

@[simp] theorem regionAt_base (s : State) (i : Fin 8) (n : Nat) : (s.regionAt i n).base = s.operand i := rfl

@[simp] theorem regionAt_size (s : State) (i : Fin 8) (n : Nat) : (s.regionAt i n).size = n := rfl

end Sys2Proof.Machine
end

