-- ==== Sys2Proof/Laws/Memory.lean ====
section
/-! SUPPORT. Buffer memory: what a read after a write gives, and that every operation keeps the canonical form. -/

namespace Sys2Proof.Machine

/-- The canonical form as a proposition. -/
theorem Memory.wf_iff (m : Memory) :
    m.wf = true ↔ (m.map Prod.fst).Pairwise (· < ·) ∧ ∀ c ∈ m, c.1 < memorySize ∧ c.2 ≠ unlistedByte := by
  simp only [Memory.wf, Bool.and_eq_true, decide_eq_true_eq, List.all_eq_true]

theorem Memory.wf_nil : Memory.wf [] = true := by decide

theorem State.reset_mem_wf : State.reset.mem.wf = true := Memory.wf_nil

theorem Memory.wf_cons_iff (k : Nat) (v : Byte) (m : Memory) :
    Memory.wf ((k, v) :: m) = true ↔ (∀ c ∈ m, k < c.1) ∧ k < memorySize ∧ v ≠ unlistedByte ∧ m.wf = true := by
  rw [Memory.wf_iff, Memory.wf_iff]
  simp only [List.map_cons, List.pairwise_cons, List.mem_map, List.mem_cons, forall_eq_or_imp]
  constructor
  · rintro ⟨⟨h1, h2⟩, ⟨h3, h4⟩, h5⟩
    exact ⟨fun c hc => h1 _ ⟨c, hc, rfl⟩, h3, h4, h2, h5⟩
  · rintro ⟨h1, h3, h4, h2, h5⟩
    refine ⟨⟨?_, h2⟩, ⟨h3, h4⟩, h5⟩
    rintro _ ⟨c, hc, rfl⟩
    exact h1 c hc

/-- An address below every listed one reads as an unlisted address. -/
theorem Memory.read_of_forall_lt {m : Memory} {a : Nat} (h : ∀ c ∈ m, a < c.1) : m.read a = unlistedByte := by
  induction m with
  | nil => rfl
  | cons c m ih =>
    obtain ⟨k, v⟩ := c
    have hk : a < k := h (k, v) (by simp)
    simp only [Memory.read, if_neg (Nat.ne_of_gt hk)]
    exact ih fun c hc => h c (by simp [hc])

/-- A write changes no other byte (20_memory.md R61). -/
theorem Memory.read_write_ne (m : Memory) {a b : Nat} (v : Byte) (h : b ≠ a) : (m.write a v).read b = m.read b := by
  induction m with
  | nil => simp only [Memory.write]; split <;> simp [Memory.read, Ne.symm h]
  | cons c m ih =>
    obtain ⟨k, w⟩ := c
    simp only [Memory.write]
    split
    · split <;> simp [Memory.read, Ne.symm h]
    · split
      · rename_i _ hk
        split <;> simp [Memory.read, ← hk, Ne.symm h]
      · simp [Memory.read, ih]

/-- A byte written is the byte read (20_memory.md R61). -/
theorem Memory.read_write_self {m : Memory} (hm : m.wf = true) (a : Nat) (v : Byte) : (m.write a v).read a = v := by
  induction m with
  | nil => simp only [Memory.write]; split <;> simp_all [Memory.read]
  | cons c m ih =>
    obtain ⟨k, w⟩ := c
    obtain ⟨h1, -, -, h4⟩ := (Memory.wf_cons_iff k w m).1 hm
    simp only [Memory.write]
    split
    · rename_i hak
      split
      · rename_i hv
        rw [hv]
        refine Memory.read_of_forall_lt fun c hc => ?_
        rcases List.mem_cons.1 hc with rfl | hc
        · exact hak
        · exact Nat.lt_trans hak (h1 c hc)
      · simp [Memory.read]
    · split
      · rename_i _ hk
        subst hk
        split
        · rename_i hv
          rw [hv]
          exact Memory.read_of_forall_lt h1
        · simp [Memory.read]
      · rename_i _ hk
        simp only [Memory.read, if_neg (Ne.symm hk)]
        exact ih h4

/-- The entries after a write are the written one and old ones. -/
theorem Memory.mem_write {m : Memory} {a : Nat} {v : Byte} {c : Host.Cell} (h : c ∈ m.write a v) :
    (c = (a, v) ∧ v ≠ unlistedByte) ∨ c ∈ m := by
  induction m with
  | nil =>
    simp only [Memory.write] at h
    split at h
    · cases h
    · exact .inl ⟨by simpa using h, ‹_›⟩
  | cons d m ih =>
    obtain ⟨k, w⟩ := d
    simp only [Memory.write] at h
    split at h
    · split at h
      · exact .inr h
      · rcases List.mem_cons.1 h with h | h
        · exact .inl ⟨h, ‹_›⟩
        · exact .inr h
    · split at h
      · split at h
        · exact .inr (List.mem_cons_of_mem _ h)
        · rcases List.mem_cons.1 h with h | h
          · exact .inl ⟨h, ‹_›⟩
          · exact .inr (List.mem_cons_of_mem _ h)
      · rcases List.mem_cons.1 h with h | h
        · exact .inr (by simp [h])
        · exact (ih h).imp_right (List.mem_cons_of_mem _)

/-- A write inside the address space keeps the canonical form. -/
theorem Memory.wf_write {m : Memory} (hm : m.wf = true) {a : Nat} (ha : a < memorySize) (v : Byte) :
    (m.write a v).wf = true := by
  induction m with
  | nil =>
    simp only [Memory.write]
    split
    · exact Memory.wf_nil
    · exact (Memory.wf_cons_iff _ _ _).2 ⟨by simp, ha, ‹_›, Memory.wf_nil⟩
  | cons c m ih =>
    obtain ⟨k, w⟩ := c
    obtain ⟨h1, h2, h3, h4⟩ := (Memory.wf_cons_iff k w m).1 hm
    simp only [Memory.write]
    split
    · rename_i hak
      split
      · exact hm
      · refine (Memory.wf_cons_iff _ _ _).2 ⟨fun c hc => ?_, ha, ‹_›, hm⟩
        rcases List.mem_cons.1 hc with rfl | hc
        · exact hak
        · exact Nat.lt_trans hak (h1 c hc)
    · split
      · rename_i _ hk
        subst hk
        split
        · exact h4
        · exact (Memory.wf_cons_iff _ _ _).2 ⟨h1, ha, ‹_›, h4⟩
      · rename_i hak hk
        refine (Memory.wf_cons_iff _ _ _).2 ⟨fun c hc => ?_, h2, h3, ih h4⟩
        rcases Memory.mem_write hc with ⟨rfl, -⟩ | hc
        · exact Nat.lt_of_le_of_ne (Nat.le_of_not_lt hak) (Ne.symm hk)
        · exact h1 c hc

/-- Bytes stored from `base` on leave every address outside as it was (20_memory.md R61, R66). -/
theorem Memory.read_writeBytes_outside (m : Memory) (base : Nat) (bs : List Byte) {a : Nat}
    (h : a < base ∨ base + bs.length ≤ a) : (m.writeBytes base bs).read a = m.read a := by
  induction bs generalizing m base with
  | nil => rfl
  | cons b bs ih =>
    simp only [List.length_cons] at h
    rw [Memory.writeBytes, ih _ _ (by omega), Memory.read_write_ne _ _ (by omega)]

/-- Bytes stored inside the address space keep the canonical form. -/
theorem Memory.wf_writeBytes {m : Memory} (hm : m.wf = true) {base : Nat} {bs : List Byte}
    (h : base + bs.length ≤ memorySize) : (m.writeBytes base bs).wf = true := by
  induction bs generalizing m base with
  | nil => exact hm
  | cons b bs ih =>
    simp only [List.length_cons] at h
    exact ih (Memory.wf_write hm (by omega) b) (by omega)

/-- Bytes stored from `base` on are the bytes read there (20_memory.md R61, R66). -/
theorem Memory.read_writeBytes_inside {m : Memory} (hm : m.wf = true) {base : Nat} {bs : List Byte}
    (h : base + bs.length ≤ memorySize) {i : Nat} (hi : i < bs.length) :
    (m.writeBytes base bs).read (base + i) = bs[i] := by
  induction bs generalizing m base i with
  | nil => simp at hi
  | cons b bs ih =>
    simp only [List.length_cons] at h hi
    cases i with
    | zero =>
      rw [Memory.writeBytes, Memory.read_writeBytes_outside _ _ _ (by omega)]
      simpa using Memory.read_write_self hm base b
    | succ i =>
      have := ih (Memory.wf_write hm (by omega : base < memorySize) b) (base := base + 1) (by omega)
        (i := i) (by omega)
      simpa [Memory.writeBytes, Nat.add_assoc, Nat.add_comm 1 i] using this

@[simp] theorem Memory.length_readBytes (m : Memory) (base n : Nat) : (m.readBytes base n).length = n := by
  simp [Memory.readBytes]

@[simp] theorem Memory.length_readWords (m : Memory) (base n : Nat) : (m.readWords base n).length = n := by
  simp [Memory.readWords]

/-- What is read of a region depends on its bytes alone. -/
theorem Memory.readBytes_congr {m m' : Memory} {base n : Nat}
    (h : ∀ i < n, m.read (base + i) = m'.read (base + i)) : m.readBytes base n = m'.readBytes base n := by
  simp only [Memory.readBytes]
  exact List.map_congr_left fun i hi => h i (List.mem_range.1 hi)

/-- A stored block reads back whole. -/
theorem Memory.readBytes_writeBytes {m : Memory} (hm : m.wf = true) {base : Nat} {bs : List Byte}
    (h : base + bs.length ≤ memorySize) : (m.writeBytes base bs).readBytes base bs.length = bs := by
  apply List.ext_getElem (by simp)
  intro i h1 h2
  simp only [Memory.readBytes, List.getElem_map, List.getElem_range]
  exact Memory.read_writeBytes_inside hm h h2

@[simp] theorem length_bytesOfWord (v : Nat) : (bytesOfWord v).length = 4 := rfl

@[simp] theorem length_bytesOfWords (ws : List Nat) : (bytesOfWords ws).length = 4 * ws.length := by
  induction ws with
  | nil => rfl
  | cons w ws ih => simp only [bytesOfWords, List.flatMap_cons, List.length_append, List.length_cons] at ih ⊢; simp; omega

theorem inRegion_eq_false_iff (r : Region) (a : Nat) : inRegion r a = false ↔ a < r.base ∨ r.base + r.size ≤ a := by
  simp only [inRegion, Bool.and_eq_false_iff, decide_eq_false_iff_not]
  omega

theorem inRange_iff (r : Region) : inRange r = true ↔ r.base + r.size ≤ memorySize := by
  simp only [inRange, decide_eq_true_eq]

/-- Free values leave every address outside their run as it was. -/
theorem read_scrambleBytes_outside (draw n base : Nat) (m : Memory) {a : Nat} (h : a < base ∨ base + n ≤ a) :
    (scrambleBytes draw n base m).read a = m.read a := by
  induction n generalizing base m with
  | zero => rfl
  | succ n ih => rw [scrambleBytes, ih _ _ (by omega), Memory.read_write_ne _ _ (by omega)]

/-- Free values inside the address space keep the canonical form. -/
theorem wf_scrambleBytes {draw n base : Nat} {m : Memory} (hm : m.wf = true) (h : n = 0 ∨ base + n ≤ memorySize) :
    (scrambleBytes draw n base m).wf = true := by
  induction n generalizing base m with
  | zero => exact hm
  | succ n ih => exact ih (Memory.wf_write hm (by omega) _) (by omega)

theorem wf_scrambleRegion {draw : Nat} {m : Memory} (hm : m.wf = true) (r : Region) :
    (scrambleRegion draw m r).wf = true :=
  wf_scrambleBytes hm (by have := Nat.min_le_right (r.base + r.size) memorySize; omega)

theorem wf_scrambleRegions {draw : Nat} {m : Memory} (hm : m.wf = true) (rs : List Region) :
    (rs.foldl (scrambleRegion draw) m).wf = true := by
  induction rs generalizing m with
  | nil => exact hm
  | cons r rs ih => exact ih (wf_scrambleRegion hm r)

theorem read_scrambleRegion_outside {draw : Nat} {m : Memory} {r : Region} {a : Nat} (h : inRegion r a = false) :
    (scrambleRegion draw m r).read a = m.read a := by
  refine read_scrambleBytes_outside _ _ _ _ ?_
  rw [inRegion_eq_false_iff] at h
  have := Nat.min_le_left (r.base + r.size) memorySize
  omega

theorem read_scrambleRegions_outside {draw : Nat} {m : Memory} {rs : List Region} {a : Nat}
    (h : ∀ r ∈ rs, inRegion r a = false) : (rs.foldl (scrambleRegion draw) m).read a = m.read a := by
  induction rs generalizing m with
  | nil => rfl
  | cons r rs ih =>
    rw [List.foldl_cons, ih fun q hq => h q (by simp [hq]), read_scrambleRegion_outside (h r (by simp))]

/-- The region of a store: the bytes it writes. -/
def Store.region (t : Store) : Region := ⟨t.base, t.data.length⟩

/-- Stores leave every address outside their regions as it was (20_memory.md R70). -/
theorem read_storeAll_outside (m : Memory) (stores : List Store) {a : Nat}
    (h : ∀ t ∈ stores, inRegion t.region a = false) : (storeAll m stores).read a = m.read a := by
  induction stores generalizing m with
  | nil => rfl
  | cons t stores ih =>
    have ht : a < t.base ∨ t.base + t.data.length ≤ a := (inRegion_eq_false_iff _ _).1 (h t (by simp))
    have := ih (m.writeBytes t.base t.data) fun q hq => h q (by simp [hq])
    simp only [storeAll, List.foldl_cons] at this ⊢
    rw [this, Memory.read_writeBytes_outside _ _ _ ht]

/-- Stores inside the address space keep the canonical form. -/
theorem wf_storeAll {m : Memory} (hm : m.wf = true) {stores : List Store}
    (h : ∀ t ∈ stores, inRange t.region = true) : (storeAll m stores).wf = true := by
  induction stores generalizing m with
  | nil => exact hm
  | cons t stores ih =>
    have ht : t.base + t.data.length ≤ memorySize := (inRange_iff _).1 (h t (by simp))
    exact ih (Memory.wf_writeBytes hm ht) fun q hq => h q (by simp [hq])

end Sys2Proof.Machine
end

