-- ==== Sys2Proof/Laws/Ops.lean ====
section
/-! SUPPORT. What each shared operation can do, said once: the ending of a command, its guards, a host action, a step. -/

namespace Sys2Proof.Machine

/-- Everything a concluded command can do when it answers a next state (60_exceptions.md R260). -/
theorem conclude_next {s t : State} {e : Ending} (h : conclude s e = .next t) :
    (∃ stores r0 r1, e = .completes stores r0 r1 ∧ t = completeWith (storeAll s.mem stores) r0 r1 s) ∨
    (∃ c info, e = .faults c info ∧ t = raiseFault c info 0#32 0#32 s) ∨
    (∃ stores cnt start, e = .truncates stores cnt start ∧
      t = raiseFault .truncatedStream start cnt start { s with mem := storeAll s.mem stores }) ∨
    (e = .stuck ∧ t = s) := by
  cases e with
  | completes stores r0 r1 => exact .inl ⟨stores, r0, r1, rfl, by simpa [conclude] using h.symm⟩
  | faults c info => exact .inr (.inl ⟨c, info, rfl, by simpa [conclude] using h.symm⟩)
  | truncates stores cnt start =>
    exact .inr (.inr (.inl ⟨stores, cnt, start, rfl, by simpa [conclude] using h.symm⟩))
  | stuck => exact .inr (.inr (.inr ⟨rfl, by simpa [conclude] using h.symm⟩))
  | notPlain => simp [conclude] at h

@[simp] theorem conclude_completes (s : State) (stores : List Store) (r0 r1 : Word) :
    conclude s (.completes stores r0 r1) = .next (completeWith (storeAll s.mem stores) r0 r1 s) := rfl

@[simp] theorem conclude_faults (s : State) (c : Cause) (info : Word) :
    conclude s (.faults c info) = .next (raiseFault c info 0#32 0#32 s) := rfl

@[simp] theorem conclude_truncates (s : State) (stores : List Store) (cnt start : Word) :
    conclude s (.truncates stores cnt start) =
      .next (raiseFault .truncatedStream start cnt start { s with mem := storeAll s.mem stores }) := rfl

@[simp] theorem conclude_stuck (s : State) : conclude s .stuck = .next s := rfl

@[simp] theorem conclude_notPlain (s : State) : conclude s .notPlain = .refused .notPlainMemory := rfl

@[simp] theorem storeAll_nil (m : Memory) : storeAll m [] = m := rfl

@[simp] theorem storeAll_cons (m : Memory) (t : Store) (ts : List Store) :
    storeAll m (t :: ts) = storeAll (m.writeBytes t.base t.data) ts := rfl

/-- On a platform of plain memory every region is backed (20_memory.md R69). -/
theorem backing_of_allMemory {p : Platform} (h : p.allMemory = true) (rs : List Region) : backing p rs = .memory := by
  simp only [Platform.allMemory, Bool.and_eq_true, decide_eq_true_eq] at h
  simp [backing, touchesAny, h.1, h.2]

@[simp] theorem onBacked_memory {s : State} {rs : List Region} (h : backing s.platform rs = .memory) (e : Ending) :
    onBacked s rs e = e := by
  simp [onBacked, h]

/-- What the platform check can answer (20_memory.md R64, R69). -/
theorem onBacked_cases (s : State) (rs : List Region) (e : Ending) :
    (backing s.platform rs = .memory ∧ onBacked s rs e = e) ∨
    (backing s.platform rs = .unbacked ∧ onBacked s rs e = .stuck) ∨
    (backing s.platform rs = .device ∧ onBacked s rs e = .notPlain) := by
  cases h : backing s.platform rs <;> simp [onBacked, h]

/-- What the length check can answer (42_huffman_codec.md R204). -/
theorem lenChecked_cases (lens : List Nat) (e : Ending) :
    (lengthOverflow lens = none ∧ lenChecked lens e = e) ∨
    (∃ sym, lengthOverflow lens = some sym ∧ lenChecked lens e = .faults .codeLengthOverflow (toWord sym)) := by
  cases h : lengthOverflow lens <;> simp [lenChecked, h]

@[simp] theorem lenChecked_none {lens : List Nat} (h : lengthOverflow lens = none) (e : Ending) :
    lenChecked lens e = e := by
  simp [lenChecked, h]

/-- The length check passes exactly when every length fits (42_huffman_codec.md R204). -/
theorem lengthOverflow_eq_none_iff (lens : List Nat) : lengthOverflow lens = none ↔ ∀ l ∈ lens, l ≤ maxLen := by
  simp [lengthOverflow, List.findIdx?_eq_none_iff]

/-- Everything the engine's step can be (30_encoding.md R103). -/
theorem engineStep_cases (s : State) :
    (∃ i, decode s.cmd = .ok i ∧ engineStep s = exec i s) ∨
    (∃ w, decode s.cmd = .error (.illegalCommand w) ∧
      engineStep s = .next (raiseFault .illegalCommand w 0#32 0#32 s)) := by
  cases h : decode s.cmd with
  | ok i => exact .inl ⟨i, rfl, by simp [engineStep, h]⟩
  | error e => obtain ⟨w⟩ := e; exact .inr ⟨w, rfl, by simp [engineStep, h]⟩

/-- Everything a host write to the window can do (10_state.md R24 to R26, R34). -/
theorem writeRegister_cases (off : Nat) (w : Word) (s : State) :
    writeRegister off w s = s ∨
    (writeRegister off w s = resetEngine s ∧ w.getLsbD 31 = true) ∨
    (writeRegister off w s = { s with ctrl := ctrlOf w } ∧ w.getLsbD 31 = false) ∨
    writeRegister off w s = writeStatus w s ∨
    (writeRegister off w s = acceptCommand w s ∧ s.status.busy = false ∧ s.status.fault = false) ∨
    (writeRegister off w s = dropWrite s ∧ (s.status.busy || s.status.fault) = true) ∨
    (∃ i : Fin 8, writeRegister off w s = { s with x := s.x.set i w } ∧ s.status.busy = false) := by
  cases h : registerAt off with
  | none => left; simp [writeRegister, h]
  | some r =>
    cases r with
    | id => left; simp [writeRegister, h]
    | cap0 => left; simp [writeRegister, h]
    | cap1 => left; simp [writeRegister, h]
    | errinfo => left; simp [writeRegister, h]
    | res0 => left; simp [writeRegister, h]
    | res1 => left; simp [writeRegister, h]
    | ctrl =>
      cases hw : w.getLsbD 31
      · refine .inr (.inr (.inl ⟨?_, rfl⟩))
        simp only [writeRegister, h, writeCtrl, hw, Bool.false_eq_true, if_false]
      · refine .inr (.inl ⟨?_, rfl⟩)
        simp only [writeRegister, h, writeCtrl, hw, if_true]
    | status => simp [writeRegister, h]
    | cmd =>
      cases hb : s.status.busy <;> cases hf : s.status.fault <;> simp [writeRegister, h, writeCmd, hb, hf]
    | x i =>
      cases hb : s.status.busy
      · refine .inr (.inr (.inr (.inr (.inr (.inr ⟨i, ?_, rfl⟩)))))
        simp [writeRegister, h, writeOperand, hb]
      · refine .inr (.inr (.inr (.inr (.inr (.inl ⟨?_, by simp⟩)))))
        simp [writeRegister, h, writeOperand, hb]

/-- A write to `STATUS` changes nothing but the three write-1-to-clear flags (10_state.md R24). -/
theorem writeStatus_eq (w : Word) (s : State) :
    writeStatus w s = { s with status := { s.status with
      done := s.status.done && !w.getLsbD 1
      fault := s.status.fault && !w.getLsbD 2
      ovr := s.status.ovr && !w.getLsbD 3 } } := by
  simp only [writeStatus]
  cases w.getLsbD 1 <;> cases w.getLsbD 2 <;> cases w.getLsbD 3 <;>
    simp [clearDone, acknowledgeFault, clearOverrun]

/-- Everything a host action that answers a next state can do (30_encoding.md R106, R107). -/
theorem hostAct_next {a : HostAction} {s t : State} (h : hostAct a s = .next t) :
    (∃ addr width w off, a = .regWrite addr width w ∧ windowOffset s.platform addr = some off ∧
      registerAccessWf off width = true ∧ t = writeRegister off w s) ∨
    (∃ r, t = { s with reads := r :: s.reads }) ∨
    (∃ addr data, a = .memStore addr data ∧ addr + data.length ≤ memorySize ∧
      storeDisturbs s (accessRegion addr data.length) = false ∧ t = { s with mem := s.mem.writeBytes addr data }) ∨
    (a = .awaitEnd ∧ t = s) ∨
    (a = .hardReset ∧ t = resetEngine s) := by
  cases a with
  | regWrite addr width w =>
    simp only [hostAct, registerAccess] at h
    split at h
    · cases h
    · rename_i off ho
      split at h
      · exact .inl ⟨addr, width, w, off, rfl, ho, ‹_›, by simpa using h.symm⟩
      · cases h
  | regRead addr width =>
    simp only [hostAct, registerAccess] at h
    split at h
    · cases h
    · split at h
      · exact .inr (.inl ⟨_, by simpa [recordRead] using h.symm⟩)
      · cases h
  | memStore addr data =>
    simp only [hostAct, hostAccess] at h
    split at h
    · cases h
    · rename_i hr
      have hr : addr + data.length ≤ memorySize := (inRange_iff _).1 (by simpa using hr)
      split at h
      · cases h
      · cases h
      · split at h
        · cases h
        · rename_i hd
          exact .inr (.inr (.inl ⟨addr, data, rfl, hr, by simpa using hd, by simpa using h.symm⟩))
  | memLoad addr count =>
    simp only [hostAct, hostAccess] at h
    split at h
    · cases h
    · split at h
      · cases h
      · cases h
      · split at h
        · cases h
        · exact .inr (.inl ⟨_, by simpa using h.symm⟩)
  | wait => exact .inr (.inl ⟨_, by simpa [hostAct, pollStatus, recordRead] using h.symm⟩)
  | awaitEnd => exact .inr (.inr (.inr (.inl ⟨rfl, by simpa [hostAct] using h.symm⟩)))
  | hardReset => exact .inr (.inr (.inr (.inr ⟨rfl, by simpa [hostAct] using h.symm⟩)))

/-- Everything a step that answers a next state can do. -/
theorem step_next {s t : State} (h : step s = .next t) :
    (s.script = [] ∧ s.status.busy = false ∧ t = s) ∨
    (s.status.busy = true ∧ engineStep s = .next t) ∨
    (s.status.busy = true ∧ t.status.busy = false ∧ engineStep (tick s) = .next t) ∨
    (s.status.busy = true ∧ ∃ n, engineStep (tick (pollTimes n s)) = .next t) ∨
    (∃ a rest, s.script = a :: rest ∧ hostTurn a rest s = .next t) := by
  simp only [step, stepBody] at h
  split at h
  · rename_i hs
    simp only [engineOrIdle] at h
    split at h
    · exact .inr (.inl ⟨‹_›, h⟩)
    · rename_i hb
      exact .inl ⟨hs, by simpa using hb, by simpa using h.symm⟩
  · rename_i rest hs
    split at h
    · exact .inr (.inr (.inr (.inl ⟨‹_›, _, h⟩)))
    · exact .inr (.inr (.inr (.inr ⟨_, _, hs, h⟩)))
  · rename_i rest hs
    split at h
    · exact .inr (.inl ⟨‹_›, h⟩)
    · exact .inr (.inr (.inr (.inr ⟨_, _, hs, h⟩)))
  · rename_i a rest _ _ hs
    simp only [hostOrEngine] at h
    split at h
    · rename_i hb
      simp only [Bool.and_eq_true] at hb
      simp only [engineBeforeHost] at h
      split at h
      · rename_i u hu
        split at h
        · exact .inr (.inr (.inr (.inr ⟨_, _, hs, h⟩)))
        · rename_i hn
          obtain rfl : u = t := by simpa using h
          exact .inr (.inr (.inl ⟨hb.1, by simpa using hn, hu⟩))
      · cases h
      · cases h
    · exact .inr (.inr (.inr (.inr ⟨_, _, hs, h⟩)))

/-- With nothing pending, a step of a BUSY machine is the engine's step. -/
theorem step_of_busy {s : State} (hb : s.status.busy = true) (hs : s.script = []) : step s = engineStep s := by
  simp [step, stepBody, hs, engineOrIdle, hb]

/-- While the host lets the command run, a step of a BUSY machine is the engine's step. -/
theorem step_of_awaitEnd {s : State} {rest : List HostAction} (hb : s.status.busy = true)
    (hs : s.script = .awaitEnd :: rest) : step s = engineStep s := by
  simp [step, stepBody, hs, hb]

/-- While the host polls, a step of a BUSY machine is the engine's step after some reads of `STATUS`
(30_encoding.md R107). -/
theorem step_of_wait {s : State} {rest : List HostAction} (hb : s.status.busy = true)
    (hs : s.script = .wait :: rest) : step s = engineStep (tick (pollTimes (Config.pollsBefore s.fresh) s)) := by
  simp [step, stepBody, hs, hb, engineWhilePolled]

/-- A `wait` with no command running is one `rd STATUS` (30_encoding.md R107). -/
theorem hostAct_wait (s : State) : hostAct .wait s = hostAct (rd s.platform .status) s := by
  simp [hostAct, rd, registerAccess, windowOffset, windowSize, registerAccessWf, regOffset]

end Sys2Proof.Machine
end

