-- ==== Sys2Proof/Laws/Lengths.lean ====
section
/-! SUPPORT. How many elements the tables, arrays and streams of the commands have. -/

namespace Sys2Proof.Machine

@[simp] theorem length_extendedText (text : List Byte) : (extendedText text).length = text.length + 1 := by
  simp [extendedText]

@[simp] theorem length_suffixArray (T : List Sym) : (suffixArray T).length = T.length := by
  simp [suffixArray, naiveSort]

@[simp] theorem length_textOf (s : State) : (textOf s).length = s.operand 1 := by simp [textOf]

@[simp] theorem length_bwtOf (s : State) : (bwtOf s).length = s.operand 1 := by simp [bwtOf]

@[simp] theorem length_bwtBytes (text : List Byte) (sa : List Nat) : (bwtBytes text sa).length = sa.length := by
  simp [bwtBytes]

@[simp] theorem length_lfPass (L : List Byte) (occ : List Nat) (cs : List Byte) :
    (lfPass L occ cs).length = cs.length := by
  induction cs generalizing occ with
  | nil => rfl
  | cons c cs ih => simp [lfPass, ih]

@[simp] theorem length_lfMapping (L : List Byte) : (lfMapping L).length = L.length := by simp [lfMapping]

theorem length_walkBack {L : List Byte} {lf : List Nat} {p n row : Nat} {acc out : List Byte}
    (h : walkBack L lf p n row acc = some out) : out.length = n + acc.length := by
  induction n generalizing row acc with
  | zero => simp_all [walkBack]
  | succ n ih =>
    simp only [walkBack] at h
    split at h
    · cases h
    · rw [ih h]; simp; omega

/-- A decoded text has one byte per row (41_bwt_codec.md R179). -/
theorem length_inverseBwt {L out : List Byte} {p : Nat} (h : inverseBwt L p = some out) : out.length = L.length := by
  simpa using length_walkBack h

@[simp] theorem length_bitPut (buf : List Byte) (i : Nat) (v : Bool) : (bitPut buf i v).length = buf.length := by
  simp [bitPut]

@[simp] theorem length_putBits (buf : List Byte) (pos : Nat) (vs : List Bool) :
    (putBits buf pos vs).length = buf.length := by
  induction vs generalizing buf pos with
  | nil => rfl
  | cons v vs ih => simp [putBits, ih]

@[simp] theorem length_packBits (bits : List Bool) : (packBits bits).length = bytesForBits bits.length := by
  simp [packBits]

@[simp] theorem length_codeBits (code len : Nat) : (codeBits code len).length = len := by simp [codeBits]

/-- The encoded bits are as many as the lengths add up to (42_huffman_codec.md R210). -/
@[simp] theorem length_encodedBits (code : Byte → Nat) (lens : List Nat) (symbols : List Byte) :
    (encodedBits code lens symbols).length = bitCount lens symbols := by
  simp [encodedBits, bitCount]

@[simp] theorem length_huffLengths (freq : List Nat) : (huffLengths freq).length = alphabet := by
  unfold huffLengths
  split
  · simp
  · simp
  · split <;> simp

@[simp] theorem length_assignCodes (next lens : List Nat) : (assignCodes next lens).length = lens.length := by
  induction lens generalizing next with
  | nil => rfl
  | cons l lens ih => simp only [assignCodes]; split <;> simp [ih]

@[simp] theorem length_canonicalCodes (lens : List Nat) : (canonicalCodes lens).length = lens.length := by
  simp [canonicalCodes]

@[simp] theorem length_lengthBytes (lens : List Nat) : (lengthBytes lens).length = lens.length := by
  simp [lengthBytes]

@[simp] theorem length_lengthTableAt (s : State) (base : Nat) : (lengthTableAt s base).length = alphabet := by
  simp [lengthTableAt]

@[simp] theorem length_symbolsOf (s : State) : (symbolsOf s).length = s.operand 1 := by simp [symbolsOf]

end Sys2Proof.Machine
end

