-- ==== Sys2Proof/Laws/Endings.lean ====
section
/-! SUPPORT. How each command's procedure can end: one lemma per procedure, with the condition of each ending in the
order of the checks (60_exceptions.md R269). -/

namespace Sys2Proof.Machine

/-- Everything `SAExec` can do (40_suffix_sorter.md R137). -/
theorem saEnding_cases (s : State) :
    (s.platform.nmax < s.operand 1 + 1 ∧ saEnding s = .faults .outOfMemory s.x[1]) ∨
    (s.operand 1 + 1 ≤ s.platform.nmax ∧ regionCheck [saIn s] [saOut s] = false ∧
      saEnding s = .faults .badOperand 0#32) ∨
    (s.operand 1 + 1 ≤ s.platform.nmax ∧ regionCheck [saIn s] [saOut s] = true ∧
      saEnding s = onBacked s [saIn s, saOut s]
        (.completes [⟨s.operand 2, bytesOfWords (suffixArray (extendedText (textOf s)))⟩]
          (toWord (s.operand 1 + 1)) 0#32)) := by
  by_cases hn : s.operand 1 + 1 > s.platform.nmax
  · exact .inl ⟨hn, by simp [saEnding, hn]⟩
  · have hn' := Nat.le_of_not_lt hn
    cases hr : regionCheck [saIn s] [saOut s]
    · exact .inr (.inl ⟨hn', rfl, by simp [saEnding, hn, hr]⟩)
    · exact .inr (.inr ⟨hn', rfl, by simp [saEnding, hn, hr]⟩)

/-- Everything `BWTEncExec` can do (41_bwt_codec.md R172). -/
theorem bwtEncEnding_cases (s : State) :
    (s.platform.nmax < s.operand 1 + 1 ∧ bwtEncEnding s = .faults .outOfMemory s.x[1]) ∨
    (s.operand 1 + 1 ≤ s.platform.nmax ∧ regionCheck [bwtEncIn s] [bwtEncOut s] = false ∧
      bwtEncEnding s = .faults .badOperand 0#32) ∨
    (s.operand 1 + 1 ≤ s.platform.nmax ∧ regionCheck [bwtEncIn s] [bwtEncOut s] = true ∧
      (textOf s).contains sentinelByte = true ∧
      bwtEncEnding s = onBacked s [bwtEncIn s, bwtEncOut s] (invalidData 1)) ∨
    (s.operand 1 + 1 ≤ s.platform.nmax ∧ regionCheck [bwtEncIn s] [bwtEncOut s] = true ∧
      (textOf s).contains sentinelByte = false ∧
      bwtEncEnding s = onBacked s [bwtEncIn s, bwtEncOut s]
        (.completes [⟨s.operand 2, bwtBytes (textOf s) (suffixArray (extendedText (textOf s)))⟩]
          (toWord (s.operand 1 + 1)) (toWord (primaryIndex (suffixArray (extendedText (textOf s))))))) := by
  by_cases hn : s.operand 1 + 1 > s.platform.nmax
  · exact .inl ⟨hn, by simp [bwtEncEnding, hn]⟩
  · have hn' := Nat.le_of_not_lt hn
    cases hr : regionCheck [bwtEncIn s] [bwtEncOut s]
    · exact .inr (.inl ⟨hn', rfl, by simp [bwtEncEnding, hn, hr]⟩)
    · cases hc : (textOf s).contains sentinelByte
      · exact .inr (.inr (.inr ⟨hn', rfl, rfl, by simp only [bwtEncEnding, hn, hr, hc]; simp⟩))
      · exact .inr (.inr (.inl ⟨hn', rfl, rfl, by simp only [bwtEncEnding, hn, hr, hc]; simp⟩))

/-- Everything the walk of a decode can do (41_bwt_codec.md R179, R183). -/
theorem bwtDecWalk_cases (s : State) (p : Nat) :
    (inverseBwt (bwtOf s) p = none ∧ bwtDecWalk s p = invalidData 6) ∨
    (∃ out, inverseBwt (bwtOf s) p = some out ∧ out.length = s.operand 1 ∧
      bwtDecWalk s p = .completes [⟨s.operand 2, out⟩] (toWord (s.operand 1)) (toWord p)) := by
  cases h : inverseBwt (bwtOf s) p with
  | none => exact .inl ⟨rfl, by simp [bwtDecWalk, h]⟩
  | some out => exact .inr ⟨out, rfl, by simpa using length_inverseBwt h, by simp [bwtDecWalk, h]⟩

/-- Everything the first checks of a decode can do (41_bwt_codec.md R183). -/
theorem bwtDecChecked_cases (s : State) (e : Ending) :
    (s.platform.nmax < s.operand 1 ∧ bwtDecChecked s e = .faults .outOfMemory s.x[1]) ∨
    (s.operand 1 ≤ s.platform.nmax ∧ regionCheck [bwtDecIn s] [bwtDecOut s] = false ∧
      bwtDecChecked s e = .faults .badOperand 0#32) ∨
    (s.operand 1 ≤ s.platform.nmax ∧ regionCheck [bwtDecIn s] [bwtDecOut s] = true ∧
      bwtDecChecked s e = onBacked s [bwtDecIn s, bwtDecOut s] e) := by
  by_cases hn : s.operand 1 > s.platform.nmax
  · exact .inl ⟨hn, by simp only [bwtDecChecked, if_pos hn]⟩
  · have hn' := Nat.le_of_not_lt hn
    cases hr : regionCheck [bwtDecIn s] [bwtDecOut s]
    · refine .inr (.inl ⟨hn', rfl, ?_⟩)
      simp only [bwtDecChecked, if_neg hn, hr, Bool.not_false, if_true]
    · refine .inr (.inr ⟨hn', rfl, ?_⟩)
      simp only [bwtDecChecked, if_neg hn, hr, Bool.not_true, Bool.false_eq_true, if_false]

/-- Everything the data checks of `BWT.DEC.P` can do (41_bwt_codec.md R180, R183). -/
theorem bwtDecPData_cases (s : State) :
    (s.operand 1 = 0 ∧ bwtDecPData s = invalidData 2) ∨
    (s.operand 1 ≠ 0 ∧ s.operand 1 ≤ s.operand 3 ∧ bwtDecPData s = invalidData 3) ∨
    (s.operand 3 < s.operand 1 ∧ byteCount (bwtOf s) sentinelByte ≠ 1 ∧ bwtDecPData s = invalidData 4) ∨
    (s.operand 3 < s.operand 1 ∧ byteCount (bwtOf s) sentinelByte = 1 ∧
      (bwtOf s).getD (s.operand 3) 0#8 ≠ sentinelByte ∧ bwtDecPData s = invalidData 5) ∨
    (s.operand 3 < s.operand 1 ∧ byteCount (bwtOf s) sentinelByte = 1 ∧
      (bwtOf s).getD (s.operand 3) 0#8 = sentinelByte ∧ bwtDecPData s = bwtDecWalk s (s.operand 3)) := by
  by_cases h0 : s.operand 1 = 0
  · exact .inl ⟨h0, by simp only [bwtDecPData, if_pos h0]⟩
  · by_cases h3 : s.operand 3 ≥ s.operand 1
    · exact .inr (.inl ⟨h0, h3, by simp only [bwtDecPData, if_neg h0, if_pos h3]⟩)
    · have h3' := Nat.lt_of_not_le h3
      by_cases h4 : byteCount (bwtOf s) sentinelByte ≠ 1
      · exact .inr (.inr (.inl ⟨h3', h4, by simp only [bwtDecPData, if_neg h0, if_neg h3, if_pos h4]⟩))
      · by_cases h5 : (bwtOf s).getD (s.operand 3) 0#8 ≠ sentinelByte
        · exact .inr (.inr (.inr (.inl ⟨h3', not_not.1 h4, h5, by
            simp only [bwtDecPData, if_neg h0, if_neg h3, if_neg h4, if_pos h5]⟩)))
        · exact .inr (.inr (.inr (.inr ⟨h3', not_not.1 h4, not_not.1 h5, by
            simp only [bwtDecPData, if_neg h0, if_neg h3, if_neg h4, if_neg h5]⟩)))

/-- Everything the data checks of `BWT.DEC.S` can do (41_bwt_codec.md R180, R183). -/
theorem bwtDecSData_cases (s : State) :
    (s.operand 1 = 0 ∧ bwtDecSData s = invalidData 2) ∨
    (s.operand 1 ≠ 0 ∧ byteCount (bwtOf s) sentinelByte ≠ 1 ∧ bwtDecSData s = invalidData 4) ∨
    (s.operand 1 ≠ 0 ∧ byteCount (bwtOf s) sentinelByte = 1 ∧
      bwtDecSData s = bwtDecWalk s ((bwtOf s).idxOf sentinelByte)) := by
  by_cases h0 : s.operand 1 = 0
  · exact .inl ⟨h0, by simp only [bwtDecSData, if_pos h0]⟩
  · by_cases h4 : byteCount (bwtOf s) sentinelByte ≠ 1
    · exact .inr (.inl ⟨h0, h4, by simp only [bwtDecSData, if_neg h0, if_pos h4]⟩)
    · exact .inr (.inr ⟨h0, not_not.1 h4, by simp only [bwtDecSData, if_neg h0, if_neg h4]⟩)

/-- Everything `HUF.BUILD` can do (42_huffman_codec.md R208). -/
theorem buildEnding_cases (s : State) :
    (regionCheck [buildIn s] [buildOutLengths s, buildOutCodes s] = false ∧
      buildEnding s = .faults .badOperand 0#32) ∨
    (regionCheck [buildIn s] [buildOutLengths s, buildOutCodes s] = true ∧
      buildEnding s = onBacked s [buildIn s, buildOutLengths s, buildOutCodes s]
        (lenChecked (huffLengths (freqOf s))
          (.completes [⟨s.operand 2, lengthBytes (huffLengths (freqOf s))⟩,
              ⟨s.operand 3, bytesOfWords (canonicalCodes (huffLengths (freqOf s)))⟩]
            (toWord (presentCount (huffLengths (freqOf s)))) (toWord (maxLength (huffLengths (freqOf s))))))) := by
  cases hr : regionCheck [buildIn s] [buildOutLengths s, buildOutCodes s]
  · exact .inl ⟨rfl, by simp only [buildEnding, hr, Bool.not_false, if_true]⟩
  · exact .inr ⟨rfl, by simp only [buildEnding, hr, Bool.not_true, Bool.false_eq_true, if_false]⟩

/-- Everything `HUF.CANON` can do (42_huffman_codec.md R209). -/
theorem canonEnding_cases (s : State) :
    (regionCheck [canonIn s] [canonOut s] = false ∧ canonEnding s = .faults .badOperand 0#32) ∨
    (regionCheck [canonIn s] [canonOut s] = true ∧
      canonEnding s = onBacked s [canonIn s, canonOut s]
        (lenChecked (lengthTableAt s (s.operand 0))
          (if oversubscribed (lengthTableAt s (s.operand 0)) then invalidData 8
           else .completes [⟨s.operand 2, bytesOfWords (canonicalCodes (lengthTableAt s (s.operand 0)))⟩]
            (toWord (presentCount (lengthTableAt s (s.operand 0))))
            (toWord (maxLength (lengthTableAt s (s.operand 0))))))) := by
  cases hr : regionCheck [canonIn s] [canonOut s]
  · exact .inl ⟨rfl, by simp only [canonEnding, hr, Bool.not_false, if_true]⟩
  · exact .inr ⟨rfl, by simp only [canonEnding, hr, Bool.not_true, Bool.false_eq_true, if_false]⟩

/-- Everything the last part of `HUF.ENC` can do (42_huffman_codec.md R210). -/
theorem encWrite_cases (s : State) (m : Nat) :
    (regionCheck (encIns s) [encOut s m] = false ∧ encWrite s m = .faults .badOperand 0#32) ∨
    (regionCheck (encIns s) [encOut s m] = true ∧ encWrite s m = onBacked s [encOut s m]
      (.completes [⟨s.operand 2, packBits (encodedBits (encCode s) (lengthsOf s) (symbolsOf s))⟩]
        (toWord m) (toWord (bytesForBits m)))) := by
  cases hr : regionCheck (encIns s) [encOut s m]
  · exact .inl ⟨rfl, by simp only [encWrite, hr, Bool.not_false, if_true]⟩
  · exact .inr ⟨rfl, by simp only [encWrite, hr, Bool.not_true, Bool.false_eq_true, if_false]⟩

/-- Everything the data checks of `HUF.ENC` can do (42_huffman_codec.md R210). -/
theorem encData_cases (s : State) :
    (someAbsent (lengthsOf s) (symbolsOf s) = true ∧ encData s = invalidData 7) ∨
    (someAbsent (lengthsOf s) (symbolsOf s) = false ∧ 2 ^ 32 - 1 < bitCount (lengthsOf s) (symbolsOf s) ∧
      encData s = .faults .badOperand 0#32) ∨
    (someAbsent (lengthsOf s) (symbolsOf s) = false ∧ bitCount (lengthsOf s) (symbolsOf s) ≤ 2 ^ 32 - 1 ∧
      encData s = encWrite s (bitCount (lengthsOf s) (symbolsOf s))) := by
  cases ha : someAbsent (lengthsOf s) (symbolsOf s)
  · by_cases hm : bitCount (lengthsOf s) (symbolsOf s) > 2 ^ 32 - 1
    · exact .inr (.inl ⟨rfl, hm, by simp only [encData, ha, Bool.false_eq_true, if_false, if_pos hm]⟩)
    · exact .inr (.inr ⟨rfl, Nat.le_of_not_lt hm, by
        simp only [encData, ha, Bool.false_eq_true, if_false, if_neg hm]⟩)
  · exact .inl ⟨rfl, by simp only [encData, ha, if_true]⟩

/-- Everything `HUF.ENC` can do (42_huffman_codec.md R210). -/
theorem encEnding_cases (s : State) :
    ((encIns s).all inRange = false ∧ encEnding s = .faults .badOperand 0#32) ∨
    ((encIns s).all inRange = true ∧ encEnding s = onBacked s (encIns s) (lenChecked (lengthsOf s) (encData s))) := by
  cases hr : (encIns s).all inRange
  · exact .inl ⟨rfl, by simp only [encEnding, hr, Bool.not_false, if_true]⟩
  · exact .inr ⟨rfl, by simp only [encEnding, hr, Bool.not_true, Bool.false_eq_true, if_false]⟩

/-- Everything the shared checks of `HUF.DEC` and `HUF.LEN` can do (42_huffman_codec.md R213, R214). -/
theorem decChecked_cases (s : State) (e : Ending) :
    ((decIns s).all inRange = false ∧ decChecked s e = .faults .badOperand 0#32) ∨
    ((decIns s).all inRange = true ∧ oversubscribed (lengthsOf s) = true ∧
      decChecked s e = onBacked s (decIns s) (lenChecked (lengthsOf s) (invalidData 8))) ∨
    ((decIns s).all inRange = true ∧ oversubscribed (lengthsOf s) = false ∧
      decChecked s e = onBacked s (decIns s) (lenChecked (lengthsOf s) e)) := by
  cases hr : (decIns s).all inRange
  · exact .inl ⟨rfl, by simp only [decChecked, hr, Bool.not_false, if_true]⟩
  · cases ho : oversubscribed (lengthsOf s)
    · exact .inr (.inr ⟨rfl, rfl, by simp only [decChecked, hr, ho, Bool.not_true, Bool.false_eq_true, if_false]⟩)
    · exact .inr (.inl ⟨rfl, rfl, by
        simp only [decChecked, hr, ho, Bool.not_true, Bool.false_eq_true, if_false, if_true]⟩)

/-- Everything the end of a decode can do (42_huffman_codec.md R213, R214). -/
theorem decEnd_cases (s : State) (d : Decoded) (stores : List Store) :
    (d.truncatedAt = none ∧ decEnd s d stores = .completes stores (toWord d.symbols.length) s.x[1]) ∨
    (∃ start, d.truncatedAt = some start ∧
      decEnd s d stores = .truncates stores (toWord d.symbols.length) (toWord start)) := by
  cases h : d.truncatedAt with
  | none => exact .inl ⟨rfl, by simp [decEnd, h]⟩
  | some start => exact .inr ⟨start, rfl, by simp [decEnd, h]⟩

/-- Everything the last part of `HUF.DEC` can do (42_huffman_codec.md R213). -/
theorem decWrite_cases (s : State) (d : Decoded) :
    (regionCheck (decIns s) [decOut s d.symbols.length] = false ∧ decWrite s d = .faults .badOperand 0#32) ∨
    (regionCheck (decIns s) [decOut s d.symbols.length] = true ∧
      decWrite s d = onBacked s [decOut s d.symbols.length] (decEnd s d [⟨s.operand 2, d.symbols⟩])) := by
  cases hr : regionCheck (decIns s) [decOut s d.symbols.length]
  · exact .inl ⟨rfl, by simp only [decWrite, hr, Bool.not_false, if_true]⟩
  · exact .inr ⟨rfl, by simp only [decWrite, hr, Bool.not_true, Bool.false_eq_true, if_false]⟩

end Sys2Proof.Machine
end

