-- ==== Sys2Proof/Laws/PerInstr.lean ====
section
/-! SUPPORT. A statement made once per command: its word is legal, decodes to it, and keeps its fields
(30_encoding.md R100 to R103). -/

namespace Sys2Proof.Laws.Encoding

/-- The command's fields are legal and its word decodes to it. -/
def Statement (i : Instr) : Prop :=
  i.wf = true ∧ (fieldsOf (encode i)).wf = true ∧ fieldsOf (encode i) = ⟨0#20, modeOf i, opOf i⟩ ∧
    decode (encode i) = .ok i

theorem saNaive : Statement .saNaive := ⟨by decide, by decide, by decide, rfl⟩
theorem saPd : Statement .saPd := ⟨by decide, by decide, by decide, rfl⟩
theorem saIs : Statement .saIs := ⟨by decide, by decide, by decide, rfl⟩
theorem saDc3 : Statement .saDc3 := ⟨by decide, by decide, by decide, rfl⟩
theorem bwtEncNaive : Statement .bwtEncNaive := ⟨by decide, by decide, by decide, rfl⟩
theorem bwtEncPd : Statement .bwtEncPd := ⟨by decide, by decide, by decide, rfl⟩
theorem bwtEncIs : Statement .bwtEncIs := ⟨by decide, by decide, by decide, rfl⟩
theorem bwtEncDc3 : Statement .bwtEncDc3 := ⟨by decide, by decide, by decide, rfl⟩
theorem bwtDecP : Statement .bwtDecP := ⟨by decide, by decide, by decide, rfl⟩
theorem bwtDecS : Statement .bwtDecS := ⟨by decide, by decide, by decide, rfl⟩
theorem hufBuild : Statement .hufBuild := ⟨by decide, by decide, by decide, rfl⟩
theorem hufCanon : Statement .hufCanon := ⟨by decide, by decide, by decide, rfl⟩
theorem hufEnc : Statement .hufEnc := ⟨by decide, by decide, by decide, rfl⟩
theorem hufDec : Statement .hufDec := ⟨by decide, by decide, by decide, rfl⟩
theorem hufLen : Statement .hufLen := ⟨by decide, by decide, by decide, rfl⟩

end Sys2Proof.Laws.Encoding
end

