-- ==== Sys2Proof/Tests/Slice0.lean ====
section
/-! SUPPORT. The model's own tests: ill-formed terms refused, command words read, vectors of 95_test_vectors.md run for
one step, and for every statement with hypotheses a witness that meets them. -/

open Sys2Proof Sys2Proof.Machine

namespace Sys2Proof.Tests

-- One kernel evaluation after the other: side by side they would ask for too much memory.
set_option Elab.async false

/-! ### Small states -/

/-- Bytes from numbers. -/
def bytes (l : List Nat) : List Byte := l.map (BitVec.ofNat 8)

/-- The reset state with operand registers and buffer memory prepared. -/
def prepared (ops : List Nat) (stores : List (Nat × List Nat)) : State :=
  { State.reset with
    x := Vector.ofFn fun i : Fin 8 => toWord (ops.getD i.val 0)
    mem := storeAll [] (stores.map fun p => ⟨p.1, bytes p.2⟩) }

/-- A state with a command word accepted. -/
def running (w : Nat) (s : State) : State := s.withFetchWord 32 w

/-- The outcome is a next state with a property. -/
def ends (o : Host.Outcome State Fault Refusal) (p : State → Bool) : Bool :=
  match o with
  | .next t => p t
  | _ => false

/-- The next state that `ends` has looked at. -/
theorem next_of_ends {o : Host.Outcome State Fault Refusal} {P : State → Prop} [DecidablePred P]
    (h : ends o (fun t => decide (P t)) = true) : ∃ t, o = .next t ∧ P t := by
  cases o with
  | next t => exact ⟨t, rfl, of_decide_eq_true h⟩
  | fault r => cases h
  | refused r => cases h

/-- One step that runs the command word on a prepared state. -/
def oneStep (w : Nat) (ops : List Nat) (stores : List (Nat × List Nat)) (p : State → Bool) : Bool :=
  ends (step (running w (prepared ops stores))) p

/-- A completion with these results. -/
def completed (t : State) (r0 r1 : Nat) : Bool :=
  decide (statusWord t.status = 0x2#32) && decide (t.res0.toNat = r0) && decide (t.res1.toNat = r1) &&
    decide (t.errinfo = 0#32)

/-- A fault with this `STATUS` and `ERRINFO`. -/
def faulted (t : State) (status errinfo : Nat) : Bool :=
  decide ((statusWord t.status).toNat = status) && decide (t.errinfo.toNat = errinfo)

def banana : List Nat := [0x62, 0x61, 0x6E, 0x61, 0x6E, 0x61]
def mississippi : List Nat := [0x6D, 0x69, 0x73, 0x73, 0x69, 0x73, 0x73, 0x69, 0x70, 0x70, 0x69]
def bananaL : List Nat := [0x61, 0x6E, 0x6E, 0x62, 0x00, 0x61, 0x61]

/-- The tables of vector V30: `freq[]` at 0x5000, `length[]` at 0x5400, `code[]` at 0x5500. -/
def freqV30 : List (Nat × List Nat) := [(0x5000, [1]), (0x5184, [3]), (0x5188, [1]), (0x51B8, [2])]
def lengthsV30 : List (Nat × List Nat) := [(0x5400, [3]), (0x5461, [1, 3]), (0x546E, [2])]
def codesV30 : List (Nat × List Nat) := [(0x5500, [6]), (0x5688, [7]), (0x56B8, [2])]

/-! ### Well-formedness: each check refuses an ill-formed term -/

/-- 30_encoding.md R103: a reserved bit, a mode above 3 or 1 or 0, an unknown operation. -/
theorem test_wf_refuses_command_fields :
    ([⟨1#20, 0#4, 0x01#8⟩, ⟨0#20, 4#4, 0x01#8⟩, ⟨0#20, 4#4, 0x02#8⟩, ⟨0#20, 2#4, 0x03#8⟩, ⟨0#20, 2#4, 0x13#8⟩,
      ⟨0#20, 1#4, 0x10#8⟩, ⟨0#20, 1#4, 0x11#8⟩, ⟨0#20, 1#4, 0x12#8⟩, ⟨0#20, 0#4, 0x00#8⟩,
      ⟨0#20, 0#4, 0x14#8⟩] : List CommandFields).all (fun f => !f.wf) = true := by decide

theorem test_wf_accepts_command_fields :
    ([⟨0#20, 3#4, 0x01#8⟩, ⟨0#20, 3#4, 0x02#8⟩, ⟨0#20, 1#4, 0x03#8⟩, ⟨0#20, 1#4, 0x13#8⟩,
      ⟨0#20, 0#4, 0x12#8⟩] : List CommandFields).all CommandFields.wf = true := by decide

/-- 00_scope.md R7: the ranges of `NMAX` and `MMIO_BASE`. -/
theorem test_wf_refuses_platform :
    ([⟨0, 0, [], []⟩, ⟨2 ^ 30 + 1, 0, [], []⟩, ⟨65536, 4, [], []⟩] : List Platform).all (fun p => !p.wf) = true := by
  decide

theorem test_wf_accepts_platform :
    ([⟨1, 0, [], []⟩, ⟨2 ^ 30, 256, [], []⟩] : List Platform).all Platform.wf = true := by decide

/-- 10_state.md R32: the shape of a register access. -/
theorem test_wf_refuses_register_access :
    (registerAccessWf 0x40 2 || registerAccessWf 0x40 8 || registerAccessWf 0x41 4 || registerAccessWf 0x42 4) = false := by
  decide

theorem test_wf_accepts_every_command : Instr.wf .saNaive && Instr.wf .hufLen = true := by decide

/-- A memory that is not in its canonical form: out of order, a listed default, an address outside memory. -/
theorem test_wf_refuses_memory :
    (Memory.wf [(2, 1#8), (1, 1#8)] || Memory.wf [(1, 1#8), (1, 2#8)] || Memory.wf [(1, 0#8)] ||
      Memory.wf [(2 ^ 32, 1#8)]) = false := by decide

/-! ### Decoding: the words of 30_encoding.md R101, written out as `ZERO`, `MODE`, `OP` -/

theorem test_decode_sa :
    decode (0x00000#20 ++ 0#4 ++ 0x01#8) = .ok .saNaive ∧ decode (0x00000#20 ++ 1#4 ++ 0x01#8) = .ok .saPd ∧
      decode (0x00000#20 ++ 2#4 ++ 0x01#8) = .ok .saIs ∧ decode (0x00000#20 ++ 3#4 ++ 0x01#8) = .ok .saDc3 :=
  ⟨rfl, rfl, rfl, rfl⟩

theorem test_decode_bwt_enc :
    decode (0x00000#20 ++ 0#4 ++ 0x02#8) = .ok .bwtEncNaive ∧ decode (0x00000#20 ++ 1#4 ++ 0x02#8) = .ok .bwtEncPd ∧
      decode (0x00000#20 ++ 2#4 ++ 0x02#8) = .ok .bwtEncIs ∧ decode (0x00000#20 ++ 3#4 ++ 0x02#8) = .ok .bwtEncDc3 :=
  ⟨rfl, rfl, rfl, rfl⟩

theorem test_decode_bwt_dec :
    decode (0x00000#20 ++ 0#4 ++ 0x03#8) = .ok .bwtDecP ∧ decode (0x00000#20 ++ 1#4 ++ 0x03#8) = .ok .bwtDecS :=
  ⟨rfl, rfl⟩

theorem test_decode_huf :
    decode (0x00000#20 ++ 0#4 ++ 0x10#8) = .ok .hufBuild ∧ decode (0x00000#20 ++ 0#4 ++ 0x11#8) = .ok .hufCanon ∧
      decode (0x00000#20 ++ 0#4 ++ 0x12#8) = .ok .hufEnc ∧ decode (0x00000#20 ++ 0#4 ++ 0x13#8) = .ok .hufDec ∧
      decode (0x00000#20 ++ 1#4 ++ 0x13#8) = .ok .hufLen :=
  ⟨rfl, rfl, rfl, rfl, rfl⟩

/-- The illegal words of vector V62. -/
def illegalV62 : List Nat :=
  [0x00000000, 0x00000004, 0x0000000F, 0x00000014, 0x000000FF, 0x00000401, 0x00000F02, 0x00000203, 0x00000110,
    0x00000111, 0x00000112, 0x00000213, 0x00001001, 0x80000001, 0x00010010, 0xFFFFFFFF]

theorem test_decode_refuses_V62 : illegalV62.all (fun w => decodeTableWord 32 w == none) = true := by decide +kernel

/-- V62: each ends with `STATUS = 0x504`, `ERRINFO` and `CMD` the word, and memory untouched. -/
theorem test_illegal_words_V62 :
    illegalV62.all (fun w => oneStep w [0x1000, 6, 0x2000] [(0x1000, banana)] fun t =>
      faulted t 0x504 w && decide (t.cmd.toNat = w ∧ t.res0 = 0#32 ∧ t.res1 = 0#32) &&
        decide (t.mem = (prepared [] [(0x1000, banana)]).mem)) = true := by decide +kernel

/-- Every command runs as the first one after reset. -/
theorem test_step_runs_every_command :
    [0x1, 0x101, 0x201, 0x301, 0x2, 0x102, 0x202, 0x302, 0x3, 0x103, 0x10, 0x11, 0x12, 0x13, 0x113].all
      (fun w => ends (step (State.reset.withFetchWord 32 w)) fun t => !t.status.busy) = true := by decide +kernel

/-! ### The commands on vectors of 95_test_vectors.md -/

/-- V10, V2: "banana". -/
theorem test_sa_naive_banana : oneStep 0x1 [0x1000, 6, 0x2000] [(0x1000, banana)] (fun t =>
    completed t 7 0 && decide (t.mem.readWords 0x2000 7 = [6, 5, 3, 1, 0, 4, 2])) = true := by decide +kernel

/-- V11, row 9: the output ends just below the text. -/
theorem test_sa_naive_adjacent : oneStep 0x1 [0x1000, 6, 0xFE4] [(0x1000, banana)] (fun t =>
    completed t 7 0 && decide (t.mem.readBytes 0x1000 6 = bytes banana)) = true := by decide +kernel

/-- V10: byte 00 is an ordinary byte above the virtual sentinel. -/
theorem test_sa_pd_zero_byte : oneStep 0x101 [0x1000, 2, 0x2000] [(0x1000, [0x00, 0x61])] (fun t =>
    completed t 3 0 && decide (t.mem.readWords 0x2000 3 = [2, 0, 1])) = true := by decide +kernel

/-- V11, row 4: the text region passes the end of memory. -/
theorem test_sa_pd_bad_operand : oneStep 0x101 [0xFFFFFFFE, 6, 0x2000] [] (fun t => faulted t 0x604 0) = true := by
  decide +kernel

/-- V10: "mississippi". -/
theorem test_sa_is_mississippi : oneStep 0x201 [0x1000, 11, 0x2000] [(0x1000, mississippi)] (fun t =>
    completed t 12 0 && decide (t.mem.readWords 0x2000 12 = [11, 10, 7, 4, 1, 0, 9, 8, 6, 3, 5, 2])) = true := by
  decide +kernel

/-- V11, rows 1 and 10: out of memory, tested before the regions. -/
theorem test_sa_is_out_of_memory :
    oneStep 0x201 [0xFFFFFFFE, 0xFFFFFFFF, 0x2000] [] (fun t => faulted t 0x104 0xFFFFFFFF) = true := by decide +kernel

/-- V10: bytes compare unsigned. -/
theorem test_sa_dc3_unsigned : oneStep 0x301 [0x1000, 3, 0x2000] [(0x1000, [0xFF, 0xFF, 0x01])] (fun t =>
    completed t 4 0 && decide (t.mem.readWords 0x2000 4 = [3, 2, 1, 0])) = true := by decide +kernel

/-- V11, row 11: an empty text region overlaps nothing. -/
theorem test_sa_dc3_empty : oneStep 0x301 [0x1000, 0, 0x1000] [] (fun t =>
    completed t 1 0 && decide (t.mem.readWord 0x1000 = 0)) = true := by decide +kernel

/-- V12 to V16, V10: the three other methods on "banana", "mississippi" and "abab". -/
theorem test_methods_of_R142_R144_R145 :
    [(banana, [6, 5, 3, 1, 0, 4, 2]), (mississippi, [11, 10, 7, 4, 1, 0, 9, 8, 6, 3, 5, 2]),
      ([0x61, 0x62, 0x61, 0x62], [4, 2, 0, 3, 1]), ([], [0])].all (fun c =>
        let T := extendedText (bytes c.1)
        prefixDoublingSort T == c.2 && inducedSortText T == c.2 && skewSortText T == c.2) = true := by decide +kernel

/-- V20: "banana". -/
theorem test_bwt_enc_naive_banana : oneStep 0x2 [0x1000, 6, 0x3000] [(0x1000, banana)] (fun t =>
    completed t 7 4 && decide (t.mem.readBytes 0x3000 7 = bytes bananaL)) = true := by decide +kernel

/-- V21, row 6: the regions come before the text. -/
theorem test_bwt_enc_naive_overlap :
    oneStep 0x2 [0x1000, 2, 0x1001] [(0x1000, [0x00, 0x61])] (fun t => faulted t 0x604 0) = true := by decide +kernel

/-- V20: "mississippi". -/
theorem test_bwt_enc_pd_mississippi : oneStep 0x102 [0x1000, 11, 0x3000] [(0x1000, mississippi)] (fun t =>
    completed t 12 5 && decide (t.mem.readBytes 0x3000 12 =
      bytes [0x69, 0x70, 0x73, 0x73, 0x6D, 0x00, 0x70, 0x69, 0x73, 0x73, 0x69, 0x69])) = true := by decide +kernel

/-- V20: the empty text. -/
theorem test_bwt_enc_is_empty : oneStep 0x202 [0x1000, 0, 0x3000] [(0x3000, [0xFF])] (fun t =>
    completed t 1 0 && decide (t.mem.read 0x3000 = 0x00#8)) = true := by decide +kernel

/-- V21, row 2: a text byte 0x00. -/
theorem test_bwt_enc_is_zero_byte : oneStep 0x202 [0x1000, 2, 0x3000] [(0x1000, [0x61, 0x00])] (fun t =>
    faulted t 0x204 1) = true := by decide +kernel

/-- V20: "aaa". -/
theorem test_bwt_enc_dc3_equal_bytes : oneStep 0x302 [0x1000, 3, 0x3000] [(0x1000, [0x61, 0x61, 0x61])] (fun t =>
    completed t 4 3 && decide (t.mem.readBytes 0x3000 4 = bytes [0x61, 0x61, 0x61, 0x00])) = true := by decide +kernel

/-- V22. -/
theorem test_bwt_dec_p_banana : oneStep 0x3 [0x3000, 7, 0x4000, 4] [(0x3000, bananaL)] (fun t =>
    completed t 7 4 && decide (t.mem.readBytes 0x4000 7 = bytes (banana ++ [0]))) = true := by decide +kernel

/-- V23: sub-codes 2, 3, 5, 4, 6 of the stored-primary inverse. -/
theorem test_bwt_dec_p_checks :
    (oneStep 0x3 [0x3000, 0, 0x4000, 5] [] (fun t => faulted t 0x204 2) &&
      oneStep 0x3 [0x3000, 7, 0x4000, 7] [(0x3000, bananaL)] (fun t => faulted t 0x204 3) &&
      oneStep 0x3 [0x3000, 7, 0x4000, 3] [(0x3000, bananaL)] (fun t => faulted t 0x204 5) &&
      oneStep 0x3 [0x3000, 3, 0x4000, 0] [(0x3000, [0x61, 0x00, 0x00])] (fun t => faulted t 0x204 4) &&
      oneStep 0x3 [0x3000, 3, 0x4000, 2] [(0x3000, [0x62, 0x61, 0x00])] (fun t => faulted t 0x204 6)) = true := by
  decide +kernel

/-- V23: the scan finds row 1. -/
theorem test_bwt_dec_s_ab : oneStep 0x103 [0x3000, 3, 0x4000] [(0x3000, [0x62, 0x00, 0x61])] (fun t =>
    completed t 3 1 && decide (t.mem.readBytes 0x4000 3 = bytes [0x61, 0x62, 0x00])) = true := by decide +kernel

/-- V23, V24: two sentinels; a cycle too short. -/
theorem test_bwt_dec_s_checks :
    (oneStep 0x103 [0x3000, 3, 0x4000] [(0x3000, [0x00, 0x61, 0x00])] (fun t => faulted t 0x204 4) &&
      oneStep 0x103 [0x3000, 3, 0x4000] [(0x3000, [0x00, 0x61, 0x62])] (fun t => faulted t 0x204 6)) = true := by
  decide +kernel

/-- V30. -/
theorem test_huf_build_V30 : oneStep 0x10 [0x5000, 0, 0x5400, 0x5500] freqV30 (fun t =>
    completed t 4 3 && decide (t.mem = (prepared [] (freqV30 ++ lengthsV30 ++ codesV30)).mem)) = true := by
  decide +kernel

/-- V37: the tie-break. -/
theorem test_huf_build_V37 :
    oneStep 0x10 [0x5000, 0, 0x5400, 0x5500] [(0x5184, [1]), (0x5188, [1]), (0x518C, [2]), (0x5190, [2])] (fun t =>
      completed t 4 2 && decide (t.mem.readBytes 0x5461 4 = bytes [2, 2, 2, 2]) &&
        decide (t.mem.readWords 0x5684 4 = [0, 1, 2, 3])) = true := by decide +kernel

/-- V40, row 1. -/
theorem test_huf_canon_V30 : oneStep 0x11 [0x5400, 0, 0x5500] lengthsV30 (fun t =>
    completed t 4 3 && decide (t.mem = (prepared [] (lengthsV30 ++ codesV30)).mem)) = true := by decide +kernel

/-- V40, rows 6 and 10. -/
theorem test_huf_canon_checks :
    (oneStep 0x11 [0x5400, 0, 0x5500] [(0x5400, [1, 2, 2, 32])] (fun t => faulted t 0x204 8) &&
      oneStep 0x11 [0x5400, 0, 0x5500] [(0x5403, [40, 0, 33])] (fun t => faulted t 0x304 3)) = true := by decide +kernel

/-- V41, row 1. -/
theorem test_huf_enc_V30 :
    oneStep 0x12 [0x3000, 7, 0x6000, 0x5400, 0x5500] ((0x3000, bananaL) :: lengthsV30 ++ codesV30) (fun t =>
      completed t 13 2 && decide (t.mem.readBytes 0x6000 3 = bytes [0x57, 0xC0, 0x00])) = true := by decide +kernel

/-- V41, rows 5 and 15: an absent symbol; the table is checked whole. -/
theorem test_huf_enc_checks :
    (oneStep 0x12 [0x3000, 2, 0x6000, 0x5400, 0x5500] ((0x3000, [0x61, 0x78]) :: lengthsV30 ++ codesV30)
        (fun t => faulted t 0x204 7) &&
      oneStep 0x12 [0x3000, 1, 0x6000, 0x5400, 0x5500] ((0x3000, [0x61]) :: (0x54FE, [33]) :: lengthsV30 ++ codesV30)
        (fun t => faulted t 0x304 0xFE)) = true := by decide +kernel

/-- V42, row 1. -/
theorem test_huf_dec_V42 : oneStep 0x13 [0x6000, 13, 0x7000, 0x5400] ((0x6000, [0x57, 0xC0]) :: lengthsV30) (fun t =>
    completed t 7 13 && decide (t.mem.readBytes 0x7000 7 = bytes bananaL)) = true := by decide +kernel

/-- V42, row 4: partial output of a truncated stream. -/
theorem test_huf_dec_truncated :
    oneStep 0x13 [0x6000, 10, 0x7000, 0x5400] ((0x6000, [0x57, 0xC0]) :: lengthsV30) (fun t =>
      faulted t 0x404 8 && decide (t.res0 = 4#32 ∧ t.res1 = 8#32) &&
        decide (t.mem.readBytes 0x7000 5 = bytes [0x61, 0x6E, 0x6E, 0x62, 0x00])) = true := by decide +kernel

/-- V42, row 9, by `HUF.LEN`: pad bits decode as data. -/
theorem test_huf_len_V42 : oneStep 0x113 [0x6000, 16, 0x7000, 0x5400] ((0x6000, [0x57, 0xC0]) :: lengthsV30)
    (fun t => completed t 10 16 && decide (t.mem.read 0x7000 = 0x00#8)) = true := by decide +kernel

/-- V43, row 3: a code that resolves to nothing. -/
theorem test_huf_len_unresolved :
    oneStep 0x113 [0x6000, 7, 0x7000, 0x5400] [(0x6000, [0x1C]), (0x5410, [2]), (0x5420, [2]), (0x5430, [3])]
      (fun t => faulted t 0x404 4 && decide (t.res0 = 2#32)) = true := by decide +kernel

/-- V50: bit numbering. -/
theorem test_bits_V50 :
    (List.range 13).map (bitGet (bytes [0x57, 0xC0])) =
        [false, true, false, true, false, true, true, true, true, true, false, false, false] ∧
      packBits [true, false, false, false, false, false, false, false, true] = bytes [0x80, 0x80] := by decide

/-! ### Registers, host actions and the platform -/

/-- V61: ignored writes and what reads back. -/
theorem test_ignored_writes_V61 :
    readRegister (writeRegister 0x00 0x12345678#32 State.reset) 0x00 = 0x48430007#32 ∧
      writeRegister 0x20 5#32 State.reset = State.reset ∧ writeRegister 0x1C 5#32 State.reset = State.reset ∧
      readRegister (writeRegister 0x0C 0x7FFFFFFF#32 State.reset) 0x0C = 0x3#32 ∧
      writeRegister 0x10 0xFFFFFFF1#32 State.reset = State.reset ∧
      readRegister (writeRegister 0x54 0xDEADBEEF#32 State.reset) 0x54 = 0xDEADBEEF#32 := by decide

/-- V63: `STATUS` through a dropped doorbell and the acknowledges. -/
theorem test_doorbell_gating_V63 :
    let s := raiseFault .invalidData 5#32 0#32 0#32 State.reset
    let s1 := writeRegister 0x14 0x1#32 s
    readRegister s1 0x10 = 0x20C#32 ∧ s1.cmd = s.cmd ∧ readRegister (writeRegister 0x10 0x4#32 s1) 0x10 = 0x208#32 ∧
      readRegister (writeRegister 0x10 0x8#32 (writeRegister 0x10 0x4#32 s1)) 0x10 = 0x200#32 := by decide

/-- U5: a command region on a device is refused; 20_memory.md R69: on an address the platform does not admit the
engine stays BUSY. -/
theorem test_platform_areas :
    let at_ := fun (p : Platform) => step (running 0x1 { prepared [0x1000, 6, 0x2000] [] with platform := p })
    at_ ⟨65536, 0, [], [⟨0x1005, 1⟩]⟩ matches .refused .notPlainMemory ∧
      ends (at_ ⟨65536, 0, [⟨0x201B, 1⟩], []⟩) (fun t => t.status.busy) = true := by decide +kernel

/-- 30_encoding.md R107: a `wait` with no command running is one `rd STATUS`; `SA 2` and `BWT.ENC 3`. -/
theorem test_pseudo_actions_R107 :
    (let s : State := { State.reset with script := [.wait] }
     ends (step s) (fun t => decide (t.reads = [.word 0x0#32] ∧ t.script = [])) = true) ∧
      saOfStrategy 2 = .saIs ∧ bwtEncOfStrategy 3 = .bwtEncDc3 := by decide +kernel

/-- A host that reads a register of half a word, or outside the window, is refused (10_state.md R31, R32). -/
theorem test_host_accesses :
    hostAct (.regRead 0x10 2) State.reset matches .refused .registerAccessShape ∧
      hostAct (.regRead 0x100 4) State.reset matches .refused .outsideRegisterWindow ∧
      hostAct (.memLoad 0xFFFFFFFF 2) State.reset matches .fault .hostAccessOutsideMemory := by decide

/-! ### Witnesses: for each statement with hypotheses, states and operands that meet them -/

/-- A machine in the FAULTED state (vector P3). -/
def faultedState : State := raiseFault .invalidData 5#32 0#32 0#32 State.reset

/-- A machine whose engine runs `SA.NAIVE` on "banana". -/
def busyState : State := running 0x1 (prepared [0x1000, 6, 0x2000] [(0x1000, banana)])

theorem witness_IllegalWordsFaultAndTheOthersRun :
    illegalWord 0x00001001#32 ∧ illegalWord 0x00000401#32 ∧ illegalWord 0x00000203#32 ∧ illegalWord 0x00000110#32 ∧
      illegalWord 0x00000004#32 ∧ ¬ illegalWord 0x00000301#32 ∧ ¬ illegalWord 0x00000113#32 := by
  simp [illegalWord]

theorem witness_StepRunsTheAcceptedCommand :
    busyState.status.busy = true ∧ decode busyState.cmd = .ok .saNaive ∧ busyState.script = [] ∧
      ({ busyState with script := [.awaitEnd, .hardReset] } : State).script = .awaitEnd :: [.hardReset] ∧
      ({ busyState with script := [.wait] } : State).script = .wait :: [] := by decide +kernel

theorem witness_StepRunsTheAcceptedCommand_illegal :
    (running 0x401 State.reset).status.busy = true ∧ (running 0x401 State.reset).script = [] := by decide +kernel

theorem witness_PendingHostActionComesBeforeOrAfter :
    let s := { busyState with script := [wr defaultPlatform (.x 0) 0x9999#32] }
    s.status.busy = true ∧ s.script = wr defaultPlatform (.x 0) 0x9999#32 :: [] ∧
      wr defaultPlatform (.x 0) 0x9999#32 ≠ .wait ∧ wr defaultPlatform (.x 0) 0x9999#32 ≠ .awaitEnd ∧
      ends (engineStep (tick s)) (fun t => !t.status.busy) = true := by decide +kernel

/-- A stuck engine. -/
theorem witness_PendingHostActionComesBeforeOrAfter_stuck :
    ∃ t, engineStep (tick { busyState with platform := ⟨65536, 0, [⟨0x2000, 1⟩], []⟩ }) = .next t ∧
      t.status.busy = true := next_of_ends (by decide +kernel)

theorem witness_IdleStepFollowsTheHost :
    State.reset.status.busy = false ∧ State.reset.script = [] ∧
      ({ State.reset with script := [.wait] } : State).script = .wait :: [] := by decide

theorem witness_DoorbellAcceptedExactlyWhenIdle :
    (State.reset.status.busy = false ∧ State.reset.status.fault = false) ∧ busyState.status.busy = true ∧
      faultedState.status.fault = true := by decide +kernel

theorem witness_WriteGating :
    faultedState.status.busy = false ∧ faultedState.status.fault = true ∧ busyState.status.busy = true ∧
      (0x7FFFFFFF#32).getLsbD 31 = false ∧
      (∀ off ∈ [0x00, 0x08, 0x18, 0x24, 0x3C, 0x60, 0xFC, 0xFF],
        off < 256 ∧ off ∉ [0x0C, 0x10, 0x14] ∧ ∀ i : Fin 8, off ≠ 0x40 + 4 * i.val) := by decide +kernel

theorem witness_WriteGating_overrun : onlyOverrunSet busyState (writeRegister 0x40 1#32 busyState) := rfl

theorem witness_RegisterReadValues :
    ∀ off ∈ [0x1C, 0x28, 0x3C, 0x60, 0xFC, 0xFF],
      off < 256 ∧ off ∉ [0x00, 0x04, 0x08, 0x0C, 0x10, 0x14, 0x18, 0x20, 0x24] ∧
        ∀ i : Fin 8, off ≠ 0x40 + 4 * i.val := by decide

theorem witness_WindowAccesses :
    (0 < 256 ∧ 0 % 4 = 0) ∧ (0xFC < 256 ∧ 0xFC % 4 = 0) ∧ (0xFC < 256 ∧ (2 ≠ 4 ∨ 0xFC % 4 ≠ 0)) ∧
      (0xFF < 256 ∧ (4 ≠ 4 ∨ 0xFF % 4 ≠ 0)) := by decide

theorem witness_AcknowledgeEndsTheFaultedState : runState faultedState = .faulted := by decide

/-- A command that completes and an illegal word, both from a BUSY state with the invariant. -/
theorem witness_InterruptLineAtCommandEnd :
    busyState.inv = true ∧ busyState.status.busy = true ∧ (running 0x401 State.reset).inv = true ∧
      (running 0x401 State.reset).status.busy = true ∧
      (∃ t, engineStep busyState = .next t ∧ t.status.busy = false ∧ t.status.fault = false) ∧
      (∃ t, engineStep (running 0x401 State.reset) = .next t ∧ t.status.busy = false ∧ t.status.fault = true) :=
  ⟨by decide +kernel, by decide +kernel, by decide +kernel, by decide +kernel, next_of_ends (by decide +kernel),
    next_of_ends (by decide +kernel)⟩

/-- A write of `x[0]` with bit 31 set, one of `CTRL` without `SRST`. -/
theorem witness_HostActionFrame :
    ∀ a ∈ [wr defaultPlatform (.x 0) 0x80000000#32, wr defaultPlatform .ctrl 0x7FFFFFFF#32],
      ends (hostAct a State.reset) (fun _ => true) = true ∧ a ≠ .hardReset ∧
        (∀ width w, a = .regWrite (State.reset.platform.mmioBase + 0x0C) width w → w.getLsbD 31 = false) ∧
        (∀ addr data, a ≠ .memStore addr data) := by
  intro a ha
  rcases List.mem_pair.mp ha with rfl | rfl
  · refine ⟨by decide, by decide, fun width w h => ?_, fun addr data h => ?_⟩
    · injection h with h _ _
      exact absurd h (by decide)
    · cases h
  · refine ⟨by decide, by decide, fun width w h => ?_, fun addr data h => ?_⟩
    · injection h with _ _ h
      exact h ▸ by decide
    · cases h

theorem witness_ResetAbandonsTheRunningCommand :
    (0x80000003#32).getLsbD 31 = true ∧ State.reset.status.busy = false ∧ busyState.status.busy = true ∧
      decode busyState.cmd = .ok .saNaive ∧ (running 0x401 State.reset).status.busy = true ∧
      illegalWord (running 0x401 State.reset).cmd := by
  refine ⟨by decide, by decide, by decide +kernel, by decide +kernel, by decide +kernel, ?_⟩
  rw [show (running 0x401 State.reset).cmd = 0x401#32 by decide +kernel]
  simp [illegalWord]

theorem witness_WordsAreLittleEndian :
    Memory.wf [(0xFFFFFFFF, 7#8)] = true ∧ 0xFFFFFFFC + 4 ≤ 2 ^ 32 ∧ 3 < 4 ∧
      (0xFFFFFFFB < 0xFFFFFFFC ∨ 0xFFFFFFFC + 4 ≤ 0xFFFFFFFB) := by decide

theorem witness_CommandsWriteOnlyTheirOutputRegions : ∃ t, exec .saNaive busyState = .next t ∧ t.status.done = true :=
  next_of_ends (by decide +kernel)

/-- The last byte of the output region, the first byte of the input region, and the byte below the output region. -/
theorem witness_RegionsOfARunningCommandAreTheEngines :
    State.reset.status.busy = false ∧ busyState.status.busy = true ∧ decode busyState.cmd = .ok .saNaive ∧
      (∀ a ∈ [0x201B, 0x1000, 0x1FFF], a + 1 ≤ 2 ^ 32 ∧ backing busyState.platform [⟨a, 1⟩] = .memory) ∧
      busyState.mem.wf = true ∧
      (let touches := fun (addr : Nat) (rs : List Region) => ∃ r ∈ rs, ∃ k < 1, inRegion r (addr + k) = true
       touches 0x1000 (inputRegions .saNaive busyState ++ outputRegions .saNaive busyState) ∧
         ¬ touches 0x1FFF (inputRegions .saNaive busyState ++ outputRegions .saNaive busyState) ∧
         touches 0x201B (outputRegions .saNaive busyState) ∧ ¬ touches 0x1000 (outputRegions .saNaive busyState)) := by
  decide +kernel

/-- A completion, a fault, a truncation and a stuck engine. -/
theorem witness_EveryCommandCompletesFaultsOrIsStuck :
    (∃ t, exec .saNaive busyState = .next t ∧ t.status.done = true) ∧
      (∃ t, exec .bwtDecP busyState = .next t ∧ t.status.cause = 2#4) ∧
      (∃ t, exec .hufDec busyState = .next t ∧ t.status.cause = 4#4) ∧
      (∃ t, exec .saNaive { busyState with platform := ⟨65536, 0, [⟨0x2000, 1⟩], []⟩ } = .next t ∧
        t.status.busy = true) :=
  ⟨next_of_ends (by decide +kernel), next_of_ends (by decide +kernel), next_of_ends (by decide +kernel),
    next_of_ends (by decide +kernel)⟩

theorem witness_SuffixArrayExistsAndIsUnique : IsSuffixArray (extendedText (bytes banana)) [6, 5, 3, 1, 0, 4, 2] := by
  unfold IsSuffixArray; decide +kernel

/-- V11: the text of 65535 bytes, the output that ends the memory, the adjacent regions, and the empty text. -/
theorem witness_SaCommandsComplete :
    ∀ s ∈ [prepared [0x1000, 65535, 0x100000] [], prepared [0x1000, 6, 0xFFFFFFE4] [], prepared [0x1000, 6, 0x1006] [],
      prepared [0x1000, 0, 0x1000] []],
      s.mem.wf = true ∧ s.platform.wf = true ∧ s.operand 1 + 1 ≤ s.platform.nmax ∧
        regionCheck [saIn s] [saOut s] = true ∧ backing s.platform [saIn s, saOut s] = .memory := by decide +kernel

/-- V11: `N = 65537`, and the overlap of the last text byte. -/
theorem witness_SaCommandsFaultInOrder :
    (let s := prepared [0x1000, 65536, 0x100000] []
     s.operand 1 + 1 > s.platform.nmax) ∧
    (let s := prepared [0x1000, 6, 0x1005] []
     s.operand 1 + 1 ≤ s.platform.nmax ∧ regionCheck [saIn s] [saOut s] = false) := by decide +kernel

theorem witness_BwtEncCommandsComplete :
    ∀ s ∈ [prepared [0x1000, 6, 0x1006] [(0x1000, banana)], prepared [0x1000, 0, 0x3000] []],
      s.mem.wf = true ∧ s.platform.wf = true ∧ s.operand 1 + 1 ≤ s.platform.nmax ∧
        regionCheck [bwtEncIn s] [bwtEncOut s] = true ∧ backing s.platform [bwtEncIn s, bwtEncOut s] = .memory ∧
        0x00#8 ∉ textOf s := by decide +kernel

theorem witness_BwtEncCommandsFaultInOrder :
    (let s := prepared [0x1000, 65536, 0x100000] []
     s.operand 1 + 1 > s.platform.nmax) ∧
    (let s := prepared [0x1000, 6, 0x1005] []
     s.operand 1 + 1 ≤ s.platform.nmax ∧ regionCheck [bwtEncIn s] [bwtEncOut s] = false) ∧
    (let s := prepared [0x1000, 2, 0x3000] [(0x1000, [0x61, 0x00])]
     s.operand 1 + 1 ≤ s.platform.nmax ∧ regionCheck [bwtEncIn s] [bwtEncOut s] = true ∧
       backing s.platform [bwtEncIn s, bwtEncOut s] = .memory ∧ 0x00#8 ∈ textOf s) := by decide +kernel

theorem witness_BwtEncodeProperties : 0x00#8 ∉ bytes banana ∧ bytes banana ≠ [] ∧ 0x00#8 ∉ bytes [] := by decide

/-- V22: "banana" back, and the one-row buffer. -/
theorem witness_BwtDecPCompletes :
    ∀ s ∈ [prepared [0x3000, 7, 0x3007, 4] [(0x3000, bananaL)], prepared [0x3000, 1, 0x4000, 0] []],
      s.mem.wf = true ∧ s.operand 1 ≤ s.platform.nmax ∧ regionCheck [bwtDecIn s] [bwtDecOut s] = true ∧
        backing s.platform [bwtDecIn s, bwtDecOut s] = .memory ∧ s.operand 3 < s.operand 1 ∧
        (bwtOf s).count 0x00#8 = 1 ∧ (bwtOf s)[s.operand 3]? = some 0x00#8 ∧
        singleCycle (bwtOf s) (s.operand 3) = true := by decide +kernel

theorem witness_BwtDecSCompletes :
    let s := prepared [0x3000, 7, 0x4000] [(0x3000, bananaL)]
    s.mem.wf = true ∧ s.operand 1 ≤ s.platform.nmax ∧ regionCheck [bwtDecIn s] [bwtDecOut s] = true ∧
      backing s.platform [bwtDecIn s, bwtDecOut s] = .memory ∧ (bwtOf s).count 0x00#8 = 1 ∧
      (bwtOf s)[4]? = some 0x00#8 ∧ singleCycle (bwtOf s) 4 = true := by decide +kernel

theorem witness_BwtDecCommandsFaultOnOperands :
    (let s := prepared [0x3000, 65537, 0x100000] []
     s.operand 1 > s.platform.nmax) ∧
    (let s := prepared [0x3000, 7, 0x3006] []
     s.operand 1 ≤ s.platform.nmax ∧ regionCheck [bwtDecIn s] [bwtDecOut s] = false) := by decide +kernel

/-- The operands and `L` of a decode of `L` at 0x3000, with what every clause of the validity checks asks. -/
def decodeOf (L : List Nat) (p : Nat) : State := prepared [0x3000, L.length, 0x4000, p] [(0x3000, L)]

/-- V23, one decode for each clause, `x[3]` at the edge of its range where a clause has one. -/
theorem witness_BwtDecValidityChecks :
    (∀ s ∈ [decodeOf [] 5, decodeOf bananaL 7, decodeOf [0x61, 0x61] 1, decodeOf bananaL 3, decodeOf [0x62, 0x61, 0x00] 2],
      s.operand 1 ≤ s.platform.nmax ∧ regionCheck [bwtDecIn s] [bwtDecOut s] = true ∧
        backing s.platform [bwtDecIn s, bwtDecOut s] = .memory) ∧
    (decodeOf [] 5).operand 1 = 0 ∧
    (0 < (decodeOf bananaL 7).operand 1 ∧ (decodeOf bananaL 7).operand 1 ≤ (decodeOf bananaL 7).operand 3) ∧
    (let s := decodeOf [0x61, 0x61] 1
     s.operand 3 < s.operand 1 ∧ 0 < s.operand 1 ∧ (bwtOf s).count 0x00#8 ≠ 1) ∧
    (let s := decodeOf bananaL 3
     s.operand 3 < s.operand 1 ∧ (bwtOf s).count 0x00#8 = 1 ∧ (bwtOf s)[s.operand 3]? ≠ some 0x00#8) ∧
    (let s := decodeOf [0x62, 0x61, 0x00] 2
     s.operand 3 < s.operand 1 ∧ (bwtOf s).count 0x00#8 = 1 ∧ (bwtOf s)[2]? = some 0x00#8 ∧
       (bwtOf s)[s.operand 3]? = some 0x00#8 ∧ singleCycle (bwtOf s) 2 = false) := by decide +kernel

theorem witness_SentinelScanFindsTheStoredPrimary :
    (decodeOf bananaL 4).status.done = false ∧
      (∃ t, exec .bwtDecS (decodeOf bananaL 4) = .next t ∧ t.status.done = true ∧ (decodeOf bananaL 4).x[3] = t.res1) ∧
      (∃ t, exec .bwtDecS (decodeOf bananaL 3) = .next t ∧ t.status.done = true ∧
        (decodeOf bananaL 3).x[3] ≠ t.res1) :=
  ⟨by decide +kernel, next_of_ends (by decide +kernel), next_of_ends (by decide +kernel)⟩

theorem witness_BwtRoundTrip :
    let s := prepared [0x1000, 6, 0x3000] [(0x1000, banana)]
    let u := decodeOf bananaL 4
    s.mem.wf = true ∧ u.mem.wf = true ∧ s.platform.wf = true ∧ s.status.done = false ∧
      (∃ t, exec .bwtEncIs s = .next t ∧ t.status.done = true ∧ u.x[3] = t.res1 ∧
        bwtOf u = t.mem.readBytes (s.operand 2) (s.operand 1 + 1)) ∧
      u.operand 1 = s.operand 1 + 1 ∧ u.operand 1 ≤ u.platform.nmax ∧
      regionCheck [bwtDecIn u] [bwtDecOut u] = true ∧ backing u.platform [bwtDecIn u, bwtDecOut u] = .memory :=
  ⟨by decide +kernel, by decide +kernel, by decide +kernel, by decide +kernel, next_of_ends (by decide +kernel),
    by decide +kernel, by decide +kernel, by decide +kernel, by decide +kernel⟩

theorem witness_BwtDecodeThenEncodeGivesBack :
    (bytes bananaL).count 0x00#8 = 1 ∧ (bytes bananaL)[4]? = some 0x00#8 ∧
      inverseBwt (bytes bananaL) 4 = some (bytes (banana ++ [0])) := by decide +kernel

/-- A frequency table with the given counts from symbol 0x61 on. -/
def frequencies (l : List Nat) : List Nat := List.replicate 0x61 0 ++ l ++ List.replicate (256 - 0x61 - l.length) 0

/-- No symbol, one symbol, two and more. -/
theorem witness_HuffmanLengthsFormAFullTree :
    (∀ l ∈ [[], [5], [1, 3], [1, 1, 2, 2]], (frequencies l).length = 256) ∧
      ((List.range 256).filter fun s => decide (0 < (frequencies [5]).getD s 0)).length = 1 ∧
      2 ≤ ((List.range 256).filter fun s => decide (0 < (frequencies [1, 3]).getD s 0)).length ∧
      0x61 ∈ ((List.range 256).filter fun s => decide (0 < (frequencies [1, 3]).getD s 0)) := by decide +kernel

/-- A table that uses length 32 and fills the code; its symbols of each clause. -/
theorem witness_CanonicalCodesArePrefixFree :
    let lens := [1, 2, 3, 4, 32, 32, 5, 0]
    (∀ l ∈ lens, l ≤ 32) ∧ oversubscribed lens = false ∧ 4 < lens.length ∧ lens.getD 4 0 ≠ 0 ∧
      (4 ≠ 5 ∧ lens.getD 4 0 ≤ lens.getD 5 0) ∧ (lens.getD 0 0 ≠ 0 ∧ lens.getD 0 0 < lens.getD 4 0) := by decide +kernel

/-- The first Fibonacci-like numbers from a pair. -/
def fibonacci : Nat → Nat → Nat → List Nat
  | 0, _, _ => []
  | k + 1, a, b => a :: fibonacci k b (a + b)

/-- `HUF.BUILD` on the first `k` Fibonacci numbers (V38). -/
def buildFibonacci (k : Nat) : State :=
  { prepared [0x5000, 0, 0x5400, 0x5500] [] with
    mem := storeAll [] [⟨0x5000, bytesOfWords (fibonacci k 1 1)⟩] }

theorem witness_HufBuildCompletes :
    let s := prepared [0x5000, 0, 0x5400, 0x5500] freqV30
    s.mem.wf = true ∧ regionCheck [buildIn s] [buildOutLengths s, buildOutCodes s] = true ∧
      backing s.platform [buildIn s, buildOutLengths s, buildOutCodes s] = .memory ∧
      (∀ l ∈ huffLengths (freqOf s), l ≤ 32) := by decide +kernel

/-- Two outputs that overlap by one byte; the 34 symbols of V38. -/
theorem witness_HufBuildFaultsInOrder :
    (let s := prepared [0x5000, 0, 0x5400, 0x54FF] freqV30
     regionCheck [buildIn s] [buildOutLengths s, buildOutCodes s] = false) ∧
    (let s := buildFibonacci 34
     0 < 256 ∧ regionCheck [buildIn s] [buildOutLengths s, buildOutCodes s] = true ∧
       backing s.platform [buildIn s, buildOutLengths s, buildOutCodes s] = .memory ∧
       32 < (huffLengths (freqOf s)).getD 0 0 ∧ ∀ r < 0, (huffLengths (freqOf s)).getD r 0 ≤ 32) := by decide +kernel

/-- V40: the table of V30, and the code region right after the lengths. -/
theorem witness_HufCanonCompletes :
    let s := prepared [0x5400, 0, 0x5500] lengthsV30
    s.mem.wf = true ∧ regionCheck [canonIn s] [canonOut s] = true ∧
      backing s.platform [canonIn s, canonOut s] = .memory ∧ (∀ l ∈ lengthTableAt s (s.operand 0), l ≤ 32) ∧
      oversubscribed (lengthTableAt s (s.operand 0)) = false := by decide +kernel

/-- V40: the overlap by one byte, a length of 33 at symbol 5, an over-subscription by the smallest amount. -/
theorem witness_HufCanonFaultsInOrder :
    (let s := prepared [0x5400, 0, 0x54FF] lengthsV30
     regionCheck [canonIn s] [canonOut s] = false) ∧
    (let s := prepared [0x5400, 0, 0x5500] [(0x5405, [33])]
     regionCheck [canonIn s] [canonOut s] = true ∧ backing s.platform [canonIn s, canonOut s] = .memory ∧
       5 < 256 ∧ 32 < (lengthTableAt s (s.operand 0)).getD 5 0 ∧
       ∀ r < 5, (lengthTableAt s (s.operand 0)).getD r 0 ≤ 32) ∧
    (let s := prepared [0x5400, 0, 0x5500] [(0x5400, [1, 2, 2, 32])]
     regionCheck [canonIn s] [canonOut s] = true ∧ backing s.platform [canonIn s, canonOut s] = .memory ∧
       (∀ l ∈ lengthTableAt s (s.operand 0), l ≤ 32) ∧
       ((lengthTableAt s (s.operand 0)).map fun l => if l = 0 then 0 else 2 ^ (32 - l)).sum > 2 ^ 32) := by
  decide +kernel

/-- `HUF.ENC` with the tables of V30 on the given symbols at 0x3000, its stream at 0x6000. -/
def encodeOf (symbols : List Nat) : State :=
  prepared [0x3000, symbols.length, 0x6000, 0x5400, 0x5500] ((0x3000, symbols) :: lengthsV30 ++ codesV30)

/-- V41: thirteen bits, and no symbol at all. -/
theorem witness_HufEncCompletes :
    ∀ s ∈ [encodeOf bananaL, encodeOf []],
      let m := ((symbolsOf s).map fun b => (lengthsOf s).getD b.toNat 0).sum
      s.mem.wf = true ∧ regionCheck (encIns s) [encOut s m] = true ∧ backing s.platform (encIns s) = .memory ∧
        backing s.platform [encOut s m] = .memory ∧ (∀ l ∈ lengthsOf s, l ≤ 32) ∧
        (∀ b ∈ symbolsOf s, (lengthsOf s).getD b.toNat 0 ≠ 0) ∧ m < 2 ^ 32 := by decide +kernel

/-- V41: a symbol region past the end of memory, a length of 33, an absent symbol, an output on the symbols. -/
theorem witness_HufEncFaultsInOrder :
    (let s := prepared [0xFFFFFFFF, 2, 0x6000, 0x5400, 0x5500] []
     ∃ r ∈ encIns s, r.base + r.size > 2 ^ 32) ∧
    (let s := prepared [0x3000, 1, 0x6000, 0x5400, 0x5500] ((0x54FE, [33]) :: lengthsV30)
     (∀ r ∈ encIns s, r.base + r.size ≤ 2 ^ 32) ∧ backing s.platform (encIns s) = .memory ∧ 0xFE < 256 ∧
       32 < (lengthsOf s).getD 0xFE 0 ∧ ∀ r < 0xFE, (lengthsOf s).getD r 0 ≤ 32) ∧
    (let s := encodeOf [0x61, 0x78]
     (∀ r ∈ encIns s, r.base + r.size ≤ 2 ^ 32) ∧ backing s.platform (encIns s) = .memory ∧
       (∀ l ∈ lengthsOf s, l ≤ 32) ∧ ∃ b ∈ symbolsOf s, (lengthsOf s).getD b.toNat 0 = 0) ∧
    (let s := prepared [0x3000, 7, 0x3006, 0x5400, 0x5500] ((0x3000, bananaL) :: lengthsV30 ++ codesV30)
     let m := ((symbolsOf s).map fun b => (lengthsOf s).getD b.toNat 0).sum
     (∀ r ∈ encIns s, r.base + r.size ≤ 2 ^ 32) ∧ backing s.platform (encIns s) = .memory ∧
       (∀ l ∈ lengthsOf s, l ≤ 32) ∧ (∀ b ∈ symbolsOf s, (lengthsOf s).getD b.toNat 0 ≠ 0) ∧ m < 2 ^ 32 ∧
       regionCheck (encIns s) [encOut s m] = false) := by decide +kernel

/-- `2^27` symbols 0x00 of 32 bits each: a bit count of exactly `2^32`. -/
def tooManyBits : State := prepared [0, 2 ^ 27, 0, 0xF0000000, 0xF1000000] [(0xF0000000, [32])]

theorem symbolsOf_tooManyBits : symbolsOf tooManyBits = List.replicate (2 ^ 27) 0#8 := by
  have hm : tooManyBits.mem = [(0xF0000000, 32#8)] := by decide +kernel
  have h0 : tooManyBits.operand 0 = 0 := by decide +kernel
  have h1 : tooManyBits.operand 1 = 2 ^ 27 := by decide +kernel
  rw [symbolsOf, hm, h0, h1, Memory.readBytes, List.eq_replicate_iff]
  refine ⟨by rw [List.length_map, List.length_range], fun b hb => ?_⟩
  obtain ⟨i, hi, rfl⟩ := List.mem_map.mp hb
  have hi := List.mem_range.mp hi
  exact Memory.read_of_forall_lt (by simp; omega)

theorem witness_HufEncFaultsInOrder_bitCount :
    (∀ r ∈ encIns tooManyBits, r.base + r.size ≤ 2 ^ 32) ∧ backing tooManyBits.platform (encIns tooManyBits) = .memory ∧
      (∀ l ∈ lengthsOf tooManyBits, l ≤ 32) ∧
      (∀ b ∈ symbolsOf tooManyBits, (lengthsOf tooManyBits).getD b.toNat 0 ≠ 0) ∧
      2 ^ 32 ≤ ((symbolsOf tooManyBits).map fun b => (lengthsOf tooManyBits).getD b.toNat 0).sum := by
  have hl : (lengthsOf tooManyBits).getD 0 0 = 32 := by decide +kernel
  refine ⟨by decide +kernel, by decide +kernel, by decide +kernel, fun b hb => ?_, ?_⟩
  · rw [symbolsOf_tooManyBits] at hb
    rw [List.eq_of_mem_replicate hb]
    exact hl ▸ by decide
  · rw [symbolsOf_tooManyBits, List.map_replicate, List.sum_replicate,
      show (0#8).toNat = 0 from rfl, hl]
    decide

/-- `HUF.DEC` or `HUF.LEN` of `nbits` bits of the stream 57 C0 of V42 into 0x7000. -/
def streamV42 (nbits : Nat) : State := prepared [0x6000, nbits, 0x7000, 0x5400] ((0x6000, [0x57, 0xC0]) :: lengthsV30)

/-- V42: all thirteen bits, and none. -/
theorem witness_HufDecCompletes :
    ∀ s ∈ [streamV42 13, streamV42 0],
      s.mem.wf = true ∧ regionCheck (decIns s) [decOut s (decodedOf s).symbols.length] = true ∧
        backing s.platform (decIns s) = .memory ∧
        backing s.platform [decOut s (decodedOf s).symbols.length] = .memory ∧ (∀ l ∈ lengthsOf s, l ≤ 32) ∧
        oversubscribed (lengthsOf s) = false ∧ (decodedOf s).truncatedAt = none := by decide +kernel

theorem witness_HufLenCompletes :
    ∀ s ∈ [streamV42 13, streamV42 0],
      (∀ r ∈ decIns s, r.base + r.size ≤ 2 ^ 32) ∧ backing s.platform (decIns s) = .memory ∧
        (∀ l ∈ lengthsOf s, l ≤ 32) ∧ oversubscribed (lengthsOf s) = false ∧ (decodedOf s).truncatedAt = none := by
  decide +kernel

/-- V42: ten bits. -/
theorem witness_TruncatedStreamReportsPartialOutput :
    let s := streamV42 10
    s.mem.wf = true ∧ (∀ r ∈ decIns s, r.base + r.size ≤ 2 ^ 32) ∧ backing s.platform (decIns s) = .memory ∧
      (∀ l ∈ lengthsOf s, l ≤ 32) ∧ oversubscribed (lengthsOf s) = false ∧ (decodedOf s).truncatedAt = some 8 ∧
      regionCheck (decIns s) [decOut s (decodedOf s).symbols.length] = true ∧
      backing s.platform [decOut s (decodedOf s).symbols.length] = .memory := by decide +kernel

/-- V43: a stream past the end of memory, a length of 33, an over-subscribed table, an output on the stream. -/
theorem witness_HufDecodeFaultsInOrder :
    (let s := prepared [0xFFFFFFFF, 9, 0x7000, 0x5400] []
     ∃ r ∈ decIns s, r.base + r.size > 2 ^ 32) ∧
    (let s := prepared [0x6000, 13, 0x7000, 0x5400] [(0x5405, [33])]
     (∀ r ∈ decIns s, r.base + r.size ≤ 2 ^ 32) ∧ backing s.platform (decIns s) = .memory ∧
       32 < (lengthsOf s).getD 5 0 ∧ ∀ r < 5, (lengthsOf s).getD r 0 ≤ 32) ∧
    (let s := prepared [0x6000, 13, 0x7000, 0x5400] [(0x5400, [1, 2, 2, 32])]
     (∀ r ∈ decIns s, r.base + r.size ≤ 2 ^ 32) ∧ backing s.platform (decIns s) = .memory ∧
       (∀ l ∈ lengthsOf s, l ≤ 32) ∧ oversubscribed (lengthsOf s) = true) ∧
    (let s := prepared [0x6000, 13, 0x5FFA, 0x5400] ((0x6000, [0x57, 0xC0]) :: lengthsV30)
     (∀ r ∈ decIns s, r.base + r.size ≤ 2 ^ 32) ∧ backing s.platform (decIns s) = .memory ∧
       (∀ l ∈ lengthsOf s, l ≤ 32) ∧ oversubscribed (lengthsOf s) = false ∧
       regionCheck (decIns s) [decOut s (decodedOf s).symbols.length] = false) := by decide +kernel

/-- A stream whose output region passes, and a table that fails its length check. -/
theorem witness_LengthProbeAgreesWithDecode :
    (let s := streamV42 10
     s.platform.allMemory = true ∧ regionCheck (decIns s) [decOut s (decodedOf s).symbols.length] = true) ∧
    (let s := prepared [0x6000, 13, 0x7000, 0x5400] [(0x5405, [33])]
     s.platform.allMemory = true ∧ ¬ ∀ l ∈ lengthsOf s, l ≤ 32) := by
  decide +kernel

/-- The stream byte 57 with its last five bits changed, and three bits. -/
theorem witness_DecodingIgnoresPadBits : ∀ k < 3, bitGet (bytes [0x57]) k = bitGet (bytes [0x48, 0xFF]) k := by decide

theorem witness_DecodingInvertsCanonicalEncoding :
    let lens := lengthsOf (streamV42 13)
    let symbols := bytes bananaL
    let bits := symbols.flatMap fun b => codeBits (canonicalCodeOf lens b) (lens.getD b.toNat 0)
    lens.length = 256 ∧ (∀ l ∈ lens, l ≤ 32) ∧ oversubscribed lens = false ∧
      (∀ b ∈ symbols, lens.getD b.toNat 0 ≠ 0) ∧
      (∀ k < bits.length, bitGet (bytes [0x57, 0xC7]) k = bits.getD k false) := by decide +kernel

/-- Programs P1 and P2: the symbols "annb$aa", their code, and the stream 57 C0. -/
theorem witness_HuffmanRoundTrip :
    let s := encodeOf bananaL
    let u := streamV42 13
    s.mem.wf = true ∧ u.mem.wf = true ∧ lengthsOf s = huffLengths (byteCounts (symbolsOf s)) ∧
      (∀ b ∈ symbolsOf s, encCode s b = canonicalCodeOf (lengthsOf s) b) ∧ s.status.done = false ∧
      (∃ t, exec .hufEnc s = .next t ∧ t.status.done = true ∧ u.x[1] = t.res0 ∧
        streamOf u = t.mem.readBytes (s.operand 2) (bytesForBits t.res0.toNat)) ∧
      lengthsOf u = lengthsOf s ∧ regionCheck (decIns u) [decOut u (s.operand 1)] = true ∧
      backing u.platform (decIns u ++ [decOut u (s.operand 1)]) = .memory :=
  ⟨by decide +kernel, by decide +kernel, by decide +kernel, by decide +kernel, by decide +kernel,
    next_of_ends (by decide +kernel), by decide +kernel, by decide +kernel, by decide +kernel⟩

/-- Two states with the same operands and text, and other bytes elsewhere. -/
theorem witness_CommandsHoldNoStateBetweenCalls :
    let s := prepared [0x1000, 6, 0x3000] [(0x1000, banana)]
    let u := prepared [0x1000, 6, 0x3000] [(0x1000, banana), (0x3000, [0xFF, 0xFF]), (0x9000, [1])]
    s.mem.wf = true ∧ u.mem.wf = true ∧ s.platform.allMemory = true ∧ s.x = u.x ∧ s.platform = u.platform ∧
      s.status.done = false ∧ u.status.done = false ∧ s.status.fault = u.status.fault ∧
      (∀ r ∈ inputRegions .bwtEncIs s, ∀ a, inRegion r a = true → s.mem.read a = u.mem.read a) ∧
      (∃ t, exec .bwtEncIs s = .next t ∧ t.status.done = true) := by
  refine ⟨by decide +kernel, by decide +kernel, by decide +kernel, by decide +kernel, by decide +kernel,
    by decide +kernel, by decide +kernel, by decide +kernel, fun r hr a ha => ?_, next_of_ends (by decide +kernel)⟩
  have hr : r = ⟨0x1000, 6⟩ := by
    have h : inputRegions .bwtEncIs (prepared [0x1000, 6, 0x3000] [(0x1000, banana)]) = [⟨0x1000, 6⟩] := by
      decide +kernel
    rw [h] at hr
    exact List.mem_singleton.mp hr
  subst hr
  have key : ∀ k < 6, (prepared [0x1000, 6, 0x3000] [(0x1000, banana)]).mem.read (0x1000 + k) =
      (prepared [0x1000, 6, 0x3000] [(0x1000, banana), (0x3000, [0xFF, 0xFF]), (0x9000, [1])]).mem.read (0x1000 + k) := by
    decide +kernel
  simp only [inRegion, Bool.and_eq_true, decide_eq_true_eq] at ha
  have := key (a - 0x1000) (by omega)
  rwa [show 0x1000 + (a - 0x1000) = a by omega] at this

theorem witness_StepKeepsTheInvariant : busyState.inv = true ∧ ∃ t, step busyState = .next t ∧ t.status.done = true :=
  ⟨by decide +kernel, next_of_ends (by decide +kernel)⟩

/-- One step from each run state. -/
theorem witness_RunStateTransitions :
    (∀ s ∈ [State.reset, busyState, faultedState], s.inv = true ∧ ends (step s) (fun _ => true) = true) ∧
      runState State.reset = .idle ∧ runState busyState = .busy ∧ runState faultedState = .faulted := by decide +kernel

theorem witness_OperandsAreFrozenWhileBusy :
    busyState.inv = true ∧ busyState.status.busy = true ∧ ∃ t, step busyState = .next t ∧ t.x = busyState.x :=
  ⟨by decide +kernel, by decide +kernel, next_of_ends (by decide +kernel)⟩

end Sys2Proof.Tests
end

section
/-! PROOFS. A step with no command running (00_scope.md R8; 30_encoding.md R107). -/

namespace Sys2Proof.Machine

/-- With no command running and nothing pending, the machine stays as it is. -/
theorem step_of_idle {s : State} (hb : s.status.busy = false) (hs : s.script = []) : step s = .next s := by
  simp [step, stepBody, hs, engineOrIdle, hb]

/-- With no command running, the host takes its turn: each branch of `stepBody` asks `BUSY` before it lets the engine
run. -/
theorem step_of_not_busy {s : State} {a : HostAction} {rest : List HostAction} (hb : s.status.busy = false)
    (hs : s.script = a :: rest) : step s = hostTurn a rest s := by
  cases a with
  | wait | awaitEnd => simp [step, stepBody, hs, hb]
  | regWrite | regRead | memStore | memLoad | hardReset => simp [step, stepBody, hs, hostOrEngine, hb]

/-- Settles O6: the host's turn by cases on the script, a `wait` being the read of `STATUS` that `hostAct_wait` gives. -/
theorem idleStepFollowsTheHost : Obligations.IdleStepFollowsTheHost := by
  intro s hb
  refine ⟨step_of_idle hb, fun a rest hs => step_of_not_busy hb hs, fun rest hs => ?_⟩
  calc step s = hostTurn .wait rest s := step_of_not_busy hb hs
    _ = hostAct (rd s.platform .status) { s with script := rest, fresh := s.fresh + 1 } := hostAct_wait _

end Sys2Proof.Machine
end

section
/-! PROOFS. Where a command stores: every ending of every procedure stores inside the address space (20_memory.md R67,
60_exceptions.md R271), so that every way an engine step can end is said once. -/

namespace Sys2Proof.Machine

/-- What an ending stores; only a completion and `TruncatedStream` store anything (60_exceptions.md R271). -/
def Ending.stores : Ending → List Store
  | .completes stores _ _ | .truncates stores _ _ => stores
  | .faults _ _ | .stuck | .notPlain => []

/-- Every store of the ending lies inside the address space. -/
def Ending.Fits (e : Ending) : Prop := ∀ t ∈ e.stores, inRange t.region = true

@[simp] theorem Ending.fits_faults (c : Cause) (info : Word) : (Ending.faults c info).Fits := by
  simp [Ending.Fits, Ending.stores]

@[simp] theorem Ending.fits_invalidData (sub : Nat) : (invalidData sub).Fits := Ending.fits_faults _ _

@[simp] theorem Ending.fits_stuck : Ending.stuck.Fits := by simp [Ending.Fits, Ending.stores]

@[simp] theorem Ending.fits_notPlain : Ending.notPlain.Fits := by simp [Ending.Fits, Ending.stores]

/-- A completion fits as its stores do. -/
theorem Ending.fits_completes {stores : List Store} {r0 r1 : Word} (h : ∀ t ∈ stores, inRange t.region = true) :
    (Ending.completes stores r0 r1).Fits := h

/-- The platform check adds no store (20_memory.md R64, R69). -/
theorem Ending.Fits.onBacked {e : Ending} (h : e.Fits) (s : State) (rs : List Region) : (onBacked s rs e).Fits := by
  obtain ⟨-, he⟩ | ⟨-, he⟩ | ⟨-, he⟩ := onBacked_cases s rs e <;> rw [he]
  · exact h
  · exact Ending.fits_stuck
  · exact Ending.fits_notPlain

/-- The length check adds no store (42_huffman_codec.md R204). -/
theorem Ending.Fits.lenChecked {e : Ending} (h : e.Fits) (lens : List Nat) : (lenChecked lens e).Fits := by
  obtain ⟨-, he⟩ | ⟨sym, -, he⟩ := lenChecked_cases lens e <;> rw [he]
  · exact h
  · exact Ending.fits_faults _ _

/-- Part (a) of the region check, for the outputs (20_memory.md R67). -/
theorem inRange_of_regionCheck {ins outs : List Region} (h : regionCheck ins outs = true) {r : Region}
    (hr : r ∈ outs) : inRange r = true := by
  simp only [regionCheck, Bool.and_eq_true, List.all_eq_true] at h
  obtain ⟨⟨⟨-, houts⟩, -⟩, -⟩ := h
  exact houts r hr

theorem saEnding_fits (s : State) : (saEnding s).Fits := by
  obtain ⟨-, he⟩ | ⟨-, -, he⟩ | ⟨-, hr, he⟩ := saEnding_cases s <;> rw [he]
  · exact Ending.fits_faults _ _
  · exact Ending.fits_faults _ _
  · refine Ending.Fits.onBacked (Ending.fits_completes ?_) _ _
    simpa [Store.region, saOut, State.regionAt] using inRange_of_regionCheck hr (List.mem_singleton.2 rfl)

theorem bwtEncEnding_fits (s : State) : (bwtEncEnding s).Fits := by
  obtain ⟨-, he⟩ | ⟨-, -, he⟩ | ⟨-, -, -, he⟩ | ⟨-, hr, -, he⟩ := bwtEncEnding_cases s <;> rw [he]
  · exact Ending.fits_faults _ _
  · exact Ending.fits_faults _ _
  · exact (Ending.fits_invalidData 1).onBacked _ _
  · refine Ending.Fits.onBacked (Ending.fits_completes ?_) _ _
    simpa [Store.region, bwtEncOut, State.regionAt] using inRange_of_regionCheck hr (List.mem_singleton.2 rfl)

theorem bwtDecWalk_fits {s : State} (hr : inRange (bwtDecOut s) = true) (p : Nat) : (bwtDecWalk s p).Fits := by
  obtain ⟨-, he⟩ | ⟨out, -, hlen, he⟩ := bwtDecWalk_cases s p <;> rw [he]
  · exact Ending.fits_invalidData 6
  · exact Ending.fits_completes (by simpa [Store.region, hlen, bwtDecOut, State.regionAt] using hr)

/-- The first checks of a decode need only the fit of what follows an output region in range (41_bwt_codec.md R183). -/
theorem bwtDecChecked_fits {s : State} {e : Ending} (h : inRange (bwtDecOut s) = true → e.Fits) :
    (bwtDecChecked s e).Fits := by
  obtain ⟨-, he⟩ | ⟨-, -, he⟩ | ⟨-, hr, he⟩ := bwtDecChecked_cases s e <;> rw [he]
  · exact Ending.fits_faults _ _
  · exact Ending.fits_faults _ _
  · exact (h (inRange_of_regionCheck hr (List.mem_singleton.2 rfl))).onBacked _ _

theorem bwtDecPEnding_fits (s : State) : (bwtDecPEnding s).Fits := by
  refine bwtDecChecked_fits fun hr => ?_
  obtain ⟨-, he⟩ | ⟨-, -, he⟩ | ⟨-, -, he⟩ | ⟨-, -, -, he⟩ | ⟨-, -, -, he⟩ := bwtDecPData_cases s <;> rw [he]
  · exact Ending.fits_invalidData 2
  · exact Ending.fits_invalidData 3
  · exact Ending.fits_invalidData 4
  · exact Ending.fits_invalidData 5
  · exact bwtDecWalk_fits hr _

theorem bwtDecSEnding_fits (s : State) : (bwtDecSEnding s).Fits := by
  refine bwtDecChecked_fits fun hr => ?_
  obtain ⟨-, he⟩ | ⟨-, -, he⟩ | ⟨-, -, he⟩ := bwtDecSData_cases s <;> rw [he]
  · exact Ending.fits_invalidData 2
  · exact Ending.fits_invalidData 4
  · exact bwtDecWalk_fits hr _

theorem buildEnding_fits (s : State) : (buildEnding s).Fits := by
  obtain ⟨-, he⟩ | ⟨hr, he⟩ := buildEnding_cases s <;> rw [he]
  · exact Ending.fits_faults _ _
  · refine ((Ending.fits_completes ?_).lenChecked _).onBacked _ _
    have hl : inRange (buildOutLengths s) = true := inRange_of_regionCheck hr (by simp)
    have hc : inRange (buildOutCodes s) = true := inRange_of_regionCheck hr (by simp)
    simpa [Store.region, alphabet] using ⟨hl, hc⟩

theorem canonEnding_fits (s : State) : (canonEnding s).Fits := by
  obtain ⟨-, he⟩ | ⟨hr, he⟩ := canonEnding_cases s <;> rw [he]
  · exact Ending.fits_faults _ _
  · refine Ending.Fits.onBacked (Ending.Fits.lenChecked ?_ _) _ _
    split
    · exact Ending.fits_invalidData 8
    · have hc : inRange (canonOut s) = true := inRange_of_regionCheck hr (by simp)
      exact Ending.fits_completes (by simpa [Store.region, alphabet, canonOut, State.regionAt] using hc)

theorem encWrite_fits (s : State) : (encWrite s (bitCount (lengthsOf s) (symbolsOf s))).Fits := by
  obtain ⟨-, he⟩ | ⟨hr, he⟩ := encWrite_cases s (bitCount (lengthsOf s) (symbolsOf s)) <;> rw [he]
  · exact Ending.fits_faults _ _
  · refine Ending.Fits.onBacked (Ending.fits_completes ?_) _ _
    simpa [Store.region, encOut, State.regionAt] using inRange_of_regionCheck hr (List.mem_singleton.2 rfl)

theorem encEnding_fits (s : State) : (encEnding s).Fits := by
  obtain ⟨-, he⟩ | ⟨-, he⟩ := encEnding_cases s <;> rw [he]
  · exact Ending.fits_faults _ _
  · refine Ending.Fits.onBacked (Ending.Fits.lenChecked ?_ _) _ _
    obtain ⟨-, hd⟩ | ⟨-, -, hd⟩ | ⟨-, -, hd⟩ := encData_cases s <;> rw [hd]
    · exact Ending.fits_invalidData 7
    · exact Ending.fits_faults _ _
    · exact encWrite_fits s

/-- The shared checks of `HUF.DEC` and `HUF.LEN` add no store (42_huffman_codec.md R213, R214). -/
theorem Ending.Fits.decChecked {e : Ending} (h : e.Fits) (s : State) : (decChecked s e).Fits := by
  obtain ⟨-, he⟩ | ⟨-, -, he⟩ | ⟨-, -, he⟩ := decChecked_cases s e <;> rw [he]
  · exact Ending.fits_faults _ _
  · exact ((Ending.fits_invalidData 8).lenChecked _).onBacked _ _
  · exact (h.lenChecked _).onBacked _ _

/-- The end of a decode stores what it is given, truncated or not (42_huffman_codec.md R213). -/
theorem decEnd_fits {s : State} {d : Decoded} {stores : List Store} (h : ∀ t ∈ stores, inRange t.region = true) :
    (decEnd s d stores).Fits := by
  obtain ⟨-, he⟩ | ⟨start, -, he⟩ := decEnd_cases s d stores <;> rw [he] <;> exact h

theorem decEnding_fits (s : State) : (decEnding s).Fits := by
  refine Ending.Fits.decChecked ?_ s
  obtain ⟨-, he⟩ | ⟨hr, he⟩ := decWrite_cases s (decodedOf s) <;> rw [he]
  · exact Ending.fits_faults _ _
  · refine Ending.Fits.onBacked (decEnd_fits ?_) _ _
    simpa [Store.region, decOut, State.regionAt] using inRange_of_regionCheck hr (List.mem_singleton.2 rfl)

theorem lenEnding_fits (s : State) : (lenEnding s).Fits :=
  Ending.Fits.decChecked (decEnd_fits (by simp)) s

/-- Every command concludes an ending whose stores fit. -/
theorem exec_eq_conclude (i : Instr) (s : State) : ∃ e : Ending, exec i s = conclude s e ∧ e.Fits := by
  cases i with
  | saNaive | saPd | saIs | saDc3 => exact ⟨saEnding s, rfl, saEnding_fits s⟩
  | bwtEncNaive | bwtEncPd | bwtEncIs | bwtEncDc3 => exact ⟨bwtEncEnding s, rfl, bwtEncEnding_fits s⟩
  | bwtDecP => exact ⟨bwtDecPEnding s, rfl, bwtDecPEnding_fits s⟩
  | bwtDecS => exact ⟨bwtDecSEnding s, rfl, bwtDecSEnding_fits s⟩
  | hufBuild => exact ⟨buildEnding s, rfl, buildEnding_fits s⟩
  | hufCanon => exact ⟨canonEnding s, rfl, canonEnding_fits s⟩
  | hufEnc => exact ⟨encEnding s, rfl, encEnding_fits s⟩
  | hufDec => exact ⟨decEnding s, rfl, decEnding_fits s⟩
  | hufLen => exact ⟨lenEnding s, rfl, lenEnding_fits s⟩

/-- Everything an engine step that answers a next state can do, command or illegal word: it completes, faults (with
the partial output of `TruncatedStream`, or none), or is stuck (60_exceptions.md R260, R270, R271). -/
theorem engineStep_next {s t : State} (h : engineStep s = .next t) :
    (∃ stores r0 r1, (∀ u ∈ stores, inRange u.region = true) ∧ t = completeWith (storeAll s.mem stores) r0 r1 s) ∨
    (∃ stores c info r0 r1, (∀ u ∈ stores, inRange u.region = true) ∧
      t = raiseFault c info r0 r1 { s with mem := storeAll s.mem stores }) ∨
    t = s := by
  obtain ⟨i, -, hi⟩ | ⟨w, -, hw⟩ := engineStep_cases s
  · obtain ⟨e, he, hfits⟩ := exec_eq_conclude i s
    rw [hi, he] at h
    obtain ⟨stores, r0, r1, rfl, rfl⟩ | ⟨c, info, rfl, rfl⟩ | ⟨stores, cnt, start, rfl, rfl⟩ | ⟨rfl, rfl⟩ :=
      conclude_next h
    · exact .inl ⟨stores, r0, r1, hfits, rfl⟩
    · exact .inr (.inl ⟨[], c, info, 0#32, 0#32, hfits, rfl⟩)
    · exact .inr (.inl ⟨stores, .truncatedStream, start, cnt, start, hfits, rfl⟩)
    · exact .inr (.inr rfl)
  · obtain rfl : raiseFault .illegalCommand w 0#32 0#32 s = t := by simpa [hw] using h
    exact .inr (.inl ⟨[], .illegalCommand, w, 0#32, 0#32, by simp, rfl⟩)

end Sys2Proof.Machine
end

section
/-! PROOFS. The register window (10_state.md R31 to R34): which offset names which register, what a read returns, what a
write does, and both resets (70_reset_and_hazards.md R300 to R302). -/

namespace Sys2Proof.Machine

/-! ### Offsets -/

@[simp] theorem registerAt_regOffset (r : RegName) : registerAt (regOffset r) = some r := by
  cases r with
  | x i => revert i; decide
  | id | cap0 | cap1 | ctrl | status | cmd | errinfo | res0 | res1 => rfl

/-- The register found at an offset is the one whose offset it is (10_state.md R31). -/
theorem regOffset_of_registerAt {off : Nat} {r : RegName} (h : registerAt off = some r) : off = regOffset r := by
  unfold registerAt at h
  split at h <;> cases h
  all_goals rfl

theorem regOffset_lt (r : RegName) : regOffset r < windowSize := by
  cases r with
  | x i => simp only [regOffset, windowSize]; omega
  | id | cap0 | cap1 | ctrl | status | cmd | errinfo | res0 | res1 => decide

theorem regOffset_aligned (r : RegName) : regOffset r % 4 = 0 := by
  cases r with
  | x i => simp only [regOffset]; omega
  | id | cap0 | cap1 | ctrl | status | cmd | errinfo | res0 | res1 => rfl

/-! ### Reads and writes by offset -/

theorem readRegister_of_reserved (s : State) {off : Nat} (h : registerAt off = none) : readRegister s off = 0#32 := by
  simp [readRegister, h]

theorem readRegister_x (s : State) (i : Fin 8) : readRegister s (regOffset (.x i)) = s.x[i] := by
  simp only [readRegister, registerAt_regOffset]

theorem writeRegister_x (i : Fin 8) (w : Word) (s : State) :
    writeRegister (regOffset (.x i)) w s = writeOperand i w s := by
  simp only [writeRegister, registerAt_regOffset]

theorem writeRegister_ctrl (w : Word) (s : State) : writeRegister (regOffset .ctrl) w s = writeCtrl w s := rfl

theorem writeRegister_status (w : Word) (s : State) : writeRegister (regOffset .status) w s = writeStatus w s := rfl

theorem writeRegister_cmd (w : Word) (s : State) : writeRegister (regOffset .cmd) w s = writeCmd w s := rfl

/-- Read-only and reserved offsets ignore a write (10_state.md R34). -/
theorem writeRegister_of_not_writable {off : Nat} (w : Word) (s : State) (hctrl : off ≠ regOffset .ctrl)
    (hstatus : off ≠ regOffset .status) (hcmd : off ≠ regOffset .cmd) (hx : ∀ i : Fin 8, off ≠ regOffset (.x i)) :
    writeRegister off w s = s := by
  cases h : registerAt off with
  | none => simp [writeRegister, h]
  | some r =>
    obtain rfl := regOffset_of_registerAt h
    cases r with
    | ctrl => exact absurd rfl hctrl
    | status => exact absurd rfl hstatus
    | cmd => exact absurd rfl hcmd
    | x i => exact absurd rfl (hx i)
    | id | cap0 | cap1 | errinfo | res0 | res1 => rfl

/-! ### What a write to each writable register does -/

theorem dropWrite_onlyOverrunSet (s : State) : onlyOverrunSet s (dropWrite s) := rfl

theorem writeOperand_of_not_busy {s : State} (hb : s.status.busy = false) (i : Fin 8) (w : Word) :
    writeOperand i w s = { s with x := s.x.set i w } := by
  simp [writeOperand, hb]

theorem writeOperand_of_busy {s : State} (hb : s.status.busy = true) (i : Fin 8) (w : Word) :
    writeOperand i w s = dropWrite s := by
  simp [writeOperand, hb]

theorem writeCmd_of_idle {s : State} (hb : s.status.busy = false) (hf : s.status.fault = false) (w : Word) :
    writeCmd w s = acceptCommand w s := by
  simp [writeCmd, hb, hf]

theorem writeCmd_of_not_idle {s : State} (h : s.status.busy = true ∨ s.status.fault = true) (w : Word) :
    writeCmd w s = dropWrite s := by
  simp [writeCmd, h]

theorem writeCtrl_of_reset {w : Word} (h : w.getLsbD 31 = true) (s : State) : writeCtrl w s = resetEngine s := by
  simp only [writeCtrl, h, if_true]

theorem writeCtrl_of_no_reset {w : Word} (h : w.getLsbD 31 = false) (s : State) :
    writeCtrl w s = { s with ctrl := ctrlOf w } := by
  simp only [writeCtrl, h, Bool.false_eq_true, if_false]

/-! ### Accesses to the window -/

theorem windowOffset_add (p : Platform) {off : Nat} (h : off < windowSize) :
    windowOffset p (p.mmioBase + off) = some off := by
  simp [windowOffset, h]

/-- An address in the window is the base and its offset (10_state.md R31). -/
theorem addr_of_windowOffset {p : Platform} {addr off : Nat} (h : windowOffset p addr = some off) :
    addr = p.mmioBase + off := by
  simp only [windowOffset] at h
  split at h
  · cases h; omega
  · cases h

theorem registerAccess_aligned (s : State) {off : Nat} (hlt : off < windowSize) (hal : off % 4 = 0)
    (next : Nat → State) : registerAccess s (s.platform.mmioBase + off) 4 next = .next (next off) := by
  simp [registerAccess, windowOffset_add _ hlt, registerAccessWf, hal]

theorem registerAccess_misshapen (s : State) {off width : Nat} (hlt : off < windowSize)
    (h : width ≠ 4 ∨ off % 4 ≠ 0) (next : Nat → State) :
    registerAccess s (s.platform.mmioBase + off) width next = .refused .registerAccessShape := by
  have hwf : registerAccessWf off width = false := by
    simpa [registerAccessWf, Decidable.imp_iff_not_or] using h
  simp [registerAccess, windowOffset_add _ hlt, hwf]

/-- `wr <reg>, <value>` is a write of the register's offset (30_encoding.md R106). -/
theorem hostAct_wr (s : State) (r : RegName) (w : Word) :
    hostAct (wr s.platform r w) s = .next (writeRegister (regOffset r) w s) :=
  registerAccess_aligned s (regOffset_lt r) (regOffset_aligned r) _

/-! ### `STATUS` and `CTRL` as words -/

/-- The number of two words joined, the second below the first. -/
theorem toNat_append_eq_add {m n : Nat} (a : BitVec m) (b : BitVec n) :
    (a ++ b).toNat = 2 ^ n * a.toNat + b.toNat := by
  rw [BitVec.toNat_append, ← Nat.shiftLeft_add_eq_or_of_lt b.isLt, Nat.shiftLeft_eq, Nat.mul_comm]

theorem toNat_ctrlWord (c : Ctrl) : (ctrlWord c).toNat = c.die.toNat + 2 * c.fie.toNat := by
  simp only [ctrlWord, toNat_append_eq_add, BitVec.toNat_ofBool, BitVec.toNat_ofNat]
  omega

theorem toNat_statusWord (t : Status) : (statusWord t).toNat =
    t.busy.toNat + 2 * t.done.toNat + 4 * t.fault.toNat + 8 * t.ovr.toNat + 256 * t.cause.toNat := by
  simp only [statusWord, toNat_append_eq_add, BitVec.toNat_ofBool, BitVec.toNat_ofNat]
  omega

/-! ### Reset -/

/-- The words of the window follow from the stored fields (10_state.md R37). -/
theorem registersReset_of_fields {t : State} (hx : t.x = Vector.replicate 8 0#32) (hres0 : t.res0 = 0#32)
    (hres1 : t.res1 = 0#32) (hctrl : t.ctrl = Ctrl.reset) (hstatus : t.status = Status.reset) (hcmd : t.cmd = 0#32)
    (herrinfo : t.errinfo = 0#32) : registersReset t := by
  have hc : readRegister t (regOffset .ctrl) = 0#32 := by
    calc readRegister t (regOffset .ctrl) = ctrlWord t.ctrl := rfl
      _ = 0#32 := by rw [hctrl]; decide
  have hs : readRegister t (regOffset .status) = 0#32 := by
    calc readRegister t (regOffset .status) = statusWord t.status := rfl
      _ = 0#32 := by rw [hstatus]; decide
  have hidle : runState t = .idle := by simp [runState, hstatus, Status.reset]
  have hirq : irq t = false := by simp [irq, hctrl, Ctrl.reset]
  exact ⟨hx, hres0, hres1, hc, hs, hcmd, herrinfo, rfl, rfl, rfl, hidle, hirq⟩

/-- Reset puts every register at its reset value in every run state (70_reset_and_hazards.md R300). -/
theorem registersReset_resetEngine (s : State) : registersReset (resetEngine s) :=
  registersReset_of_fields rfl rfl rfl rfl rfl rfl rfl

theorem registersReset_resetOn (p : Platform) : registersReset (State.resetOn p) :=
  registersReset_of_fields rfl rfl rfl rfl rfl rfl rfl

/-- A reset that cuts no command short leaves memory as it is (70_reset_and_hazards.md R302). -/
theorem resetEngine_mem_of_not_busy {s : State} (hb : s.status.busy = false) : (resetEngine s).mem = s.mem := by
  simp [abandonedRegions, hb]

/-- A reset leaves memory outside the outputs of the command it cuts short (70_reset_and_hazards.md R301). -/
theorem resetEngine_memoryKeptOutside {s : State} {i : Instr} (hi : decode s.cmd = .ok i) :
    memoryKeptOutside (outputRegions i s) s (resetEngine s) := by
  intro a ha
  refine read_scrambleRegions_outside fun r hr => ha r ?_
  cases hb : s.status.busy <;> simp_all [abandonedRegions, runningOutputs]

/-- The operations of 30_encoding.md R101 with the modes of R102. -/
theorem commandOf_legal {op : BitVec 8} {mode : BitVec 4} {i : Instr} (h : commandOf op mode = some i) :
    (op.toNat ∈ [0x01, 0x02] ∧ mode.toNat < 4) ∨ (op.toNat ∈ [0x03, 0x13] ∧ mode.toNat < 2) ∨
      (op.toNat ∈ [0x10, 0x11, 0x12] ∧ mode.toNat < 1) := by
  unfold commandOf at h
  split at h
  case h_8 => cases h
  all_goals
    simp only [byStrategy, byVariant, onlyMode] at h
    split at h <;> simp_all

/-- A word that decodes to a command is not illegal (30_encoding.md R103). -/
theorem not_illegalWord_of_decode {w : Word} {i : Instr} (h : decode w = .ok i) : ¬ illegalWord w := by
  simp only [decode] at h
  split at h
  · rename_i hzero
    split at h
    · rename_i hcmd
      have hz : w.toNat / 2 ^ 12 % 2 ^ 20 = 0 := by
        simpa [fieldsOf, Nat.shiftRight_eq_div_pow] using congrArg BitVec.toNat hzero
      have hlt := w.isLt
      have hmodes := commandOf_legal hcmd
      simp only [fieldsOf, BitVec.extractLsb'_toNat, Nat.shiftRight_eq_div_pow, List.mem_cons, List.not_mem_nil,
        or_false] at hmodes
      simp only [illegalWord, List.mem_cons, List.not_mem_nil, or_false]
      omega
    · cases h
  · cases h

/-- An illegal word has no outputs, so a reset leaves all memory (30_encoding.md R103). -/
theorem resetEngine_mem_of_illegalWord {s : State} (h : illegalWord s.cmd) : (resetEngine s).mem = s.mem := by
  cases hd : decode s.cmd with
  | ok i => exact absurd h (not_illegalWord_of_decode hd)
  | error e => simp [abandonedRegions, runningOutputs, hd]

end Sys2Proof.Machine
end

section
/-! PROOFS. What every step keeps: a step is the engine's or the host's on the same machine, so each property of a step
is one lemma about the engine's step and one about the host's action (10_state.md R24, R27, R33, R34). -/

namespace Sys2Proof.Machine

/-! ### A step as the engine's or the host's -/

/-- The state with another host side: its pending actions, what it has read, and the draw counter (log 10). -/
def State.withHostSide (s : State) (script : List HostAction) (reads : List HostRead) (fresh : Nat) : State :=
  { s with script := script, reads := reads, fresh := fresh }

@[simp] theorem withHostSide_status (s : State) (script : List HostAction) (reads : List HostRead) (fresh : Nat) :
    (s.withHostSide script reads fresh).status = s.status := rfl

/-- Everything a step that answers a next state can do, up to the host's side: nothing, the engine's step of a BUSY
machine, or a host action. -/
theorem step_next_withHostSide {s t : State} (h : step s = .next t) :
    t = s ∨
    (s.status.busy = true ∧ ∃ script reads fresh, engineStep (s.withHostSide script reads fresh) = .next t) ∨
    (∃ a script reads fresh, hostAct a (s.withHostSide script reads fresh) = .next t) := by
  obtain ⟨-, -, rfl⟩ | ⟨hb, h⟩ | ⟨hb, -, h⟩ | ⟨hb, n, h⟩ | ⟨a, rest, -, h⟩ := step_next h
  · exact .inl rfl
  · exact .inr (.inl ⟨hb, s.script, s.reads, s.fresh, h⟩)
  · exact .inr (.inl ⟨hb, s.script, s.reads, s.fresh + 1, h⟩)
  · rw [pollTimes_eq] at h
    exact .inr (.inl ⟨hb, s.script, _, s.fresh + 1, h⟩)
  · exact .inr (.inr ⟨a, rest, s.reads, s.fresh + 1, h⟩)

/-! ### The flags of `STATUS` -/

/-- The agreement of the flags as a proposition (10_state.md R24, R33). -/
theorem Status.consistent_iff (t : Status) : t.consistent = true ↔
    (t.busy = true → t.fault = false ∧ t.done = false) ∧ (t.done = true → t.fault = false ∧ t.cause = 0#4) ∧
      (t.fault = true → t.cause ≠ 0#4) ∧ t.cause.toNat ≤ 6 := by
  simp only [Status.consistent, Bool.and_eq_true, decide_eq_true_eq]
  cases t.busy <;> cases t.done <;> cases t.fault <;> simp

theorem consistent_reset : Status.reset.consistent = true := by decide

theorem consistent_flagsAccepted {t : Status} (h : t.consistent = true) (hf : t.fault = false) :
    (flagsAccepted t).consistent = true := by
  simp_all [Status.consistent_iff]

theorem consistent_flagsOverrun {t : Status} (h : t.consistent = true) : (flagsOverrun t).consistent = true := h

theorem consistent_flagsCompleted {t : Status} (h : t.consistent = true) (hb : t.busy = true) :
    (flagsCompleted t).consistent = true := by
  simp_all [Status.consistent_iff]

/-- The cause codes are 1 to 6 (60_exceptions.md R261). -/
theorem causeCode_range (c : Cause) : causeCode c ≠ 0#4 ∧ (causeCode c).toNat ≤ 6 := by
  cases c <;> decide

theorem consistent_flagsFaulted {t : Status} (h : t.consistent = true) (hb : t.busy = true) (c : Cause) :
    (flagsFaulted c t).consistent = true := by
  have hc := causeCode_range c
  simp_all [Status.consistent_iff]

/-- Clearing flags that are set keeps the agreement (10_state.md R24). -/
theorem consistent_clear {t : Status} (h : t.consistent = true) (done fault ovr : Bool) :
    Status.consistent { t with done := t.done && done, fault := t.fault && fault, ovr := ovr } = true := by
  rw [Status.consistent_iff] at h ⊢
  cases done <;> cases fault <;> simp_all

/-! ### The invariant -/

theorem State.inv_iff (s : State) : s.inv = true ↔
    s.status.consistent = true ∧ (s.status.cause = 0#4 → s.errinfo = 0#32) ∧ s.mem.wf = true ∧
      s.platform.wf = true := by
  simp only [State.inv, Bool.and_eq_true, Bool.or_eq_true, decide_eq_true_eq, Decidable.imp_iff_not_or, and_assoc]

/-- An engine step of a BUSY machine keeps the invariant and the platform (60_exceptions.md R270, R271). -/
theorem engineStep_keeps_inv {s t : State} (hi : s.inv = true) (hb : s.status.busy = true)
    (h : engineStep s = .next t) : t.inv = true ∧ t.platform = s.platform := by
  obtain ⟨hflags, -, hmem, hplat⟩ := (State.inv_iff s).1 hi
  obtain ⟨stores, r0, r1, hfits, rfl⟩ | ⟨stores, c, info, r0, r1, hfits, rfl⟩ | rfl := engineStep_next h
  · refine ⟨(State.inv_iff _).2 ⟨consistent_flagsCompleted hflags hb, fun _ => rfl, ?_, hplat⟩, rfl⟩
    exact wf_storeAll hmem hfits
  · refine ⟨(State.inv_iff _).2 ⟨consistent_flagsFaulted hflags hb c, fun hc => ?_, ?_, hplat⟩, rfl⟩
    · exact absurd hc (causeCode_range c).1
    · exact wf_storeAll hmem hfits
  · exact ⟨hi, rfl⟩

/-- Both resets keep the invariant, whatever values they leave free (70_reset_and_hazards.md R301). -/
theorem resetEngine_keeps_inv {s : State} (hi : s.inv = true) : (resetEngine s).inv = true := by
  obtain ⟨-, -, hmem, hplat⟩ := (State.inv_iff s).1 hi
  exact (State.inv_iff _).2 ⟨consistent_reset, fun _ => rfl, wf_scrambleRegions hmem _, hplat⟩

/-- A host write to the window keeps the invariant and the platform (10_state.md R24 to R26, R34). -/
theorem writeRegister_keeps_inv {s : State} (hi : s.inv = true) (off : Nat) (w : Word) :
    (writeRegister off w s).inv = true ∧ (writeRegister off w s).platform = s.platform := by
  obtain ⟨hflags, herr, hmem, hplat⟩ := (State.inv_iff s).1 hi
  obtain he | ⟨he, -⟩ | ⟨he, -⟩ | he | ⟨he, -, hf⟩ | ⟨he, -⟩ | ⟨i, he, -⟩ := writeRegister_cases off w s <;> rw [he]
  · exact ⟨hi, rfl⟩
  · exact ⟨resetEngine_keeps_inv hi, rfl⟩
  · exact ⟨hi, rfl⟩
  · rw [writeStatus_eq]
    exact ⟨(State.inv_iff _).2 ⟨consistent_clear hflags _ _ _, herr, hmem, hplat⟩, rfl⟩
  · exact ⟨(State.inv_iff _).2 ⟨consistent_flagsAccepted hflags hf, herr, hmem, hplat⟩, rfl⟩
  · exact ⟨(State.inv_iff _).2 ⟨consistent_flagsOverrun hflags, herr, hmem, hplat⟩, rfl⟩
  · exact ⟨hi, rfl⟩

/-- A host action keeps the invariant and the platform. -/
theorem hostAct_keeps_inv {a : HostAction} {s t : State} (hi : s.inv = true) (h : hostAct a s = .next t) :
    t.inv = true ∧ t.platform = s.platform := by
  obtain ⟨addr, width, w, off, -, -, -, rfl⟩ | ⟨r, rfl⟩ | ⟨addr, data, -, hin, -, rfl⟩ | ⟨-, rfl⟩ | ⟨-, rfl⟩ :=
    hostAct_next h
  · exact writeRegister_keeps_inv hi off w
  · exact ⟨hi, rfl⟩
  · obtain ⟨hflags, herr, hmem, hplat⟩ := (State.inv_iff s).1 hi
    exact ⟨(State.inv_iff _).2 ⟨hflags, herr, Memory.wf_writeBytes hmem hin, hplat⟩, rfl⟩
  · exact ⟨hi, rfl⟩
  · exact ⟨resetEngine_keeps_inv hi, rfl⟩

/-- Settles O58: each of the three things a step can do keeps the invariant; the engine's step does so because it runs
only while `BUSY = 1`, where `DONE` and `FAULT` are 0. -/
theorem stepKeepsTheInvariant : Obligations.StepKeepsTheInvariant := by
  intro s t hi h
  obtain rfl | ⟨hb, script, reads, fresh, h⟩ | ⟨a, script, reads, fresh, h⟩ := step_next_withHostSide h
  · exact ⟨hi, rfl⟩
  · exact engineStep_keeps_inv (s := s.withHostSide script reads fresh) hi hb h
  · exact hostAct_keeps_inv (s := s.withHostSide script reads fresh) hi h

/-- Settles O57: nothing is stored and every flag is 0 at reset (10_state.md R37). -/
theorem resetSatisfiesTheInvariant : Obligations.ResetSatisfiesTheInvariant :=
  (State.inv_iff _).2 ⟨consistent_reset, fun _ => rfl, State.reset_mem_wf, by decide⟩

/-! ### The run state -/

/-- The run state that R33 excludes does not occur under the invariant. -/
theorem runState_ne_impossible {s : State} (hi : s.inv = true) : runState s ≠ .impossible := by
  have hflags := (Status.consistent_iff _).1 ((State.inv_iff s).1 hi).1
  simp only [runState]
  split <;> simp_all

theorem runState_eq_idle_iff (s : State) :
    runState s = .idle ↔ s.status.busy = false ∧ s.status.fault = false := by
  simp only [runState]
  split <;> simp_all

theorem runState_eq_busy_iff (s : State) :
    runState s = .busy ↔ s.status.busy = true ∧ s.status.fault = false := by
  simp only [runState]
  split <;> simp_all

theorem runState_eq_faulted_iff (s : State) :
    runState s = .faulted ↔ s.status.busy = false ∧ s.status.fault = true := by
  simp only [runState]
  split <;> simp_all

/-- No host write raises `FAULT`; an accepted doorbell alone raises `BUSY`, and none is accepted while `FAULT = 1`
(10_state.md R26, R34). -/
theorem writeRegister_flags (off : Nat) (w : Word) (s : State) :
    ((writeRegister off w s).status.fault = true → s.status.fault = true) ∧
      ((writeRegister off w s).status.busy = true → s.status.busy = true ∨ s.status.fault = false) := by
  obtain he | ⟨he, -⟩ | ⟨he, -⟩ | he | ⟨he, -, hf⟩ | ⟨he, -⟩ | ⟨i, he, -⟩ := writeRegister_cases off w s <;> rw [he]
  · exact ⟨id, .inl⟩
  · simp [Status.reset]
  · exact ⟨id, .inl⟩
  · simp only [writeStatus_eq, Bool.and_eq_true]
    exact ⟨And.left, .inl⟩
  · exact ⟨id, fun _ => .inr hf⟩
  · exact ⟨id, .inl⟩
  · exact ⟨id, .inl⟩

/-- A host action moves `FAULT` and `BUSY` as a write to the window does (10_state.md R33). -/
theorem hostAct_flags {a : HostAction} {s t : State} (h : hostAct a s = .next t) :
    (t.status.fault = true → s.status.fault = true) ∧
      (t.status.busy = true → s.status.busy = true ∨ s.status.fault = false) := by
  obtain ⟨addr, width, w, off, -, -, -, rfl⟩ | ⟨r, rfl⟩ | ⟨addr, data, -, -, -, rfl⟩ | ⟨-, rfl⟩ | ⟨-, rfl⟩ :=
    hostAct_next h
  · exact writeRegister_flags off w s
  · exact ⟨id, .inl⟩
  · exact ⟨id, .inl⟩
  · exact ⟨id, .inl⟩
  · simp [Status.reset]

/-- A step of a machine that is not BUSY is the host's: it raises no `FAULT`, and `BUSY` only without `FAULT`. -/
theorem step_flags_of_not_busy {s t : State} (hb : s.status.busy = false) (h : step s = .next t) :
    (t.status.fault = true → s.status.fault = true) ∧ (t.status.busy = true → s.status.fault = false) := by
  obtain rfl | ⟨hb', -⟩ | ⟨a, script, reads, fresh, h⟩ := step_next_withHostSide h
  · simp [hb]
  · simp [hb] at hb'
  · simpa [hb] using hostAct_flags h

/-- Settles O59: the invariant excludes the impossible run state, which leaves a BUSY engine its three, and from the
other two the host's action alone decides. -/
theorem runStateTransitions : Obligations.RunStateTransitions := by
  intro s t hi h
  have hne : runState t ≠ .impossible := runState_ne_impossible (stepKeepsTheInvariant s t hi h).1
  refine ⟨hne, fun hs => ?_, fun _ => ?_, fun hs => ?_⟩
  · obtain ⟨hb, hf⟩ := (runState_eq_idle_iff s).1 hs
    have htf : t.status.fault = false := by
      simpa [hf] using (step_flags_of_not_busy hb h).1
    rw [runState_eq_idle_iff, runState_eq_busy_iff]
    cases t.status.busy <;> simp [htf]
  · cases ht : runState t <;> simp_all
  · obtain ⟨hb, hf⟩ := (runState_eq_faulted_iff s).1 hs
    have htb : t.status.busy = false := by
      simpa [hf] using (step_flags_of_not_busy hb h).2
    rw [runState_eq_faulted_iff, runState_eq_idle_iff]
    cases t.status.fault <;> simp [htb]

/-! ### The operand registers of a BUSY engine -/

/-- No command writes an operand register (10_state.md R21). -/
theorem engineStep_x {s t : State} (h : engineStep s = .next t) : t.x = s.x := by
  obtain ⟨stores, r0, r1, -, rfl⟩ | ⟨stores, c, info, r0, r1, -, rfl⟩ | rfl := engineStep_next h <;> rfl

/-- While `BUSY = 1` a host write to the window changes the operand registers by a reset alone (10_state.md R34). -/
theorem writeRegister_x_of_busy {s : State} (hb : s.status.busy = true) (off : Nat) (w : Word) :
    (writeRegister off w s).x = s.x ∨ writeRegister off w s = resetEngine s := by
  obtain he | ⟨he, -⟩ | ⟨he, -⟩ | he | ⟨-, hb', -⟩ | ⟨he, -⟩ | ⟨i, -, hb'⟩ := writeRegister_cases off w s
  · exact .inl (by rw [he])
  · exact .inr he
  · exact .inl (by rw [he])
  · exact .inl (by rw [he, writeStatus_eq])
  · simp [hb] at hb'
  · exact .inl (by rw [he, dropWrite_x])
  · simp [hb] at hb'

/-- While `BUSY = 1` a host action changes the operand registers by a reset alone (10_state.md R34). -/
theorem hostAct_x_of_busy {a : HostAction} {s t : State} (hb : s.status.busy = true) (h : hostAct a s = .next t) :
    t.x = s.x ∨ t = resetEngine s := by
  obtain ⟨addr, width, w, off, -, -, -, rfl⟩ | ⟨r, rfl⟩ | ⟨addr, data, -, -, -, rfl⟩ | ⟨-, rfl⟩ | ⟨-, rfl⟩ :=
    hostAct_next h
  · exact writeRegister_x_of_busy hb off w
  · exact .inl rfl
  · exact .inl rfl
  · exact .inl rfl
  · exact .inr rfl

/-- Settles O60: the engine writes no operand register, and a host action does so while `BUSY = 1` by a reset alone. -/
theorem operandsAreFrozenWhileBusy : Obligations.OperandsAreFrozenWhileBusy := by
  intro s t _ h hb
  obtain rfl | ⟨-, script, reads, fresh, h⟩ | ⟨a, script, reads, fresh, h⟩ := step_next_withHostSide h
  · exact .inl rfl
  · exact .inl (engineStep_x (s := s.withHostSide script reads fresh) h)
  · obtain hx | rfl := hostAct_x_of_busy (s := s.withHostSide script reads fresh) hb h
    · exact .inl hx
    · exact .inr ⟨rfl, registersReset_resetEngine _⟩

end Sys2Proof.Machine
end

section
/-! PROOFS. The host's register accesses: gating, reads, shapes, the acknowledge, reset (10_state.md R24 to R37;
60_exceptions.md R272; 70_reset_and_hazards.md R300 to R302, R308). -/

namespace Sys2Proof.Machine

/-- What only a command or a reset changes (10_state.md R22, R27), with the platform. -/
def resultsKept (s t : State) : Prop :=
  t.res0 = s.res0 ∧ t.res1 = s.res1 ∧ t.errinfo = s.errinfo ∧ t.status.cause = s.status.cause ∧
    t.platform = s.platform

theorem resultsKept_refl (s : State) : resultsKept s s := ⟨rfl, rfl, rfl, rfl, rfl⟩

/-- A host write that is no reset keeps results, fault detail, platform and memory (10_state.md R34). -/
theorem writeRegister_resultsKept {off : Nat} {w : Word} {s : State}
    (h : off = regOffset .ctrl → w.getLsbD 31 = false) :
    resultsKept s (writeRegister off w s) ∧ (writeRegister off w s).mem = s.mem := by
  by_cases hc : off = regOffset .ctrl
  · rw [hc, writeRegister_ctrl, writeCtrl_of_no_reset (h hc)]
    exact ⟨resultsKept_refl s, rfl⟩
  by_cases hs : off = regOffset .status
  · rw [hs, writeRegister_status, writeStatus_eq]
    exact ⟨resultsKept_refl s, rfl⟩
  by_cases hd : off = regOffset .cmd
  · rw [hd, writeRegister_cmd, writeCmd]
    split <;> exact ⟨resultsKept_refl s, rfl⟩
  by_cases hx : ∃ i : Fin 8, off = regOffset (.x i)
  · obtain ⟨i, rfl⟩ := hx
    rw [writeRegister_x, writeOperand]
    split <;> exact ⟨resultsKept_refl s, rfl⟩
  · rw [writeRegister_of_not_writable w s hc hs hd (not_exists.1 hx)]
    exact ⟨resultsKept_refl s, rfl⟩

/-- Settles O13: of the host's actions that answer a next state, a register write is the one that needs a look, and it
reaches `CTRL` only at the address the hypothesis speaks of. -/
theorem hostActionFrame : Obligations.HostActionFrame := by
  intro a s t h hreset hctrl
  suffices hk : resultsKept s t ∧ ((∀ addr data, a ≠ .memStore addr data) → t.mem = s.mem) by
    obtain ⟨⟨hres0, hres1, herr, hcause, hplat⟩, hmem⟩ := hk
    exact ⟨hres0, hres1, herr, hcause, hplat, hmem⟩
  obtain ⟨addr, width, w, off, rfl, hoff, -, rfl⟩ | ⟨r, rfl⟩ | ⟨addr, data, rfl, -, -, rfl⟩ | ⟨-, rfl⟩ | ⟨rfl, -⟩ :=
    hostAct_next h
  · have haddr : addr = s.platform.mmioBase + off := addr_of_windowOffset hoff
    have hw : off = regOffset .ctrl → w.getLsbD 31 = false := by
      rintro rfl
      exact hctrl width w (by rw [haddr]; rfl)
    obtain ⟨hkept, hmem⟩ := writeRegister_resultsKept (s := s) hw
    exact ⟨hkept, fun _ => hmem⟩
  · exact ⟨resultsKept_refl s, fun _ => rfl⟩
  · exact ⟨resultsKept_refl s, fun hstore => absurd rfl (hstore addr data)⟩
  · exact ⟨resultsKept_refl _, fun _ => rfl⟩
  · exact absurd rfl hreset

/-- Settles O15: both actions answer `resetEngine`, whose memory is kept outside the outputs of the command it cuts
short. -/
theorem resetAbandonsTheRunningCommand : Obligations.ResetAbandonsTheRunningCommand := by
  intro s w hw a ha
  have hact : hostAct a s = .next (resetEngine s) := by
    rcases List.mem_pair.1 ha with rfl | rfl
    · rfl
    · rw [hostAct_wr, writeRegister_ctrl, writeCtrl_of_reset hw]
  exact ⟨resetEngine s, hact, registersReset_resetEngine s, rfl, resetEngine_mem_of_not_busy,
    fun _ _ hi => resetEngine_memoryKeptOutside hi, fun _ => resetEngine_mem_of_illegalWord⟩

/-- Settles O8, one fact per register of the window. -/
theorem writeGating : Obligations.WriteGating := by
  intro s w
  refine ⟨fun i hb => ?_, fun i hb => ?_, fun h => ?_, fun hw => ?_, writeStatus_eq w s, ?_, ?_⟩
  · exact (writeRegister_x i w s).trans (writeOperand_of_not_busy hb i w)
  · rw [show 0x40 + 4 * i.val = regOffset (.x i) from rfl, writeRegister_x, writeOperand_of_busy hb]
    exact dropWrite_onlyOverrunSet s
  · rw [show 0x14 = regOffset .cmd from rfl, writeRegister_cmd, writeCmd_of_not_idle h]
    exact dropWrite_onlyOverrunSet s
  · exact writeCtrl_of_no_reset hw s
  · intro off _ hoff hx
    simp only [List.mem_cons, List.not_mem_nil, or_false, not_or] at hoff
    obtain ⟨hctrl, hstatus, hcmd⟩ := hoff
    exact writeRegister_of_not_writable w s hctrl hstatus hcmd hx
  · rintro t rfl
    rfl

/-- Settles O7: `writeCmd` in the two cases of its gate. -/
theorem doorbellAcceptedExactlyWhenIdle : Obligations.DoorbellAcceptedExactlyWhenIdle := by
  intro s w
  refine ⟨writeCmd w s, hostAct_wr s .cmd w, fun hb hf => ?_, fun h => ?_⟩
  · rw [writeCmd_of_idle hb hf]
    exact ⟨rfl, rfl⟩
  · rw [writeCmd_of_not_idle h]
    exact ⟨dropWrite_onlyOverrunSet s, rfl⟩

/-- Settles O9: an offset with no register is reserved, since a register found at an offset is the one it belongs to. -/
theorem registerReadValues : Obligations.RegisterReadValues := by
  intro s
  refine ⟨rfl, rfl, rfl, rfl, rfl, rfl, rfl, readRegister_x s, toNat_ctrlWord s.ctrl, toNat_statusWord s.status, ?_⟩
  intro off _ hoff hx
  refine readRegister_of_reserved s (Option.eq_none_iff_forall_ne_some.2 fun r hr => ?_)
  obtain rfl := regOffset_of_registerAt hr
  cases r with
  | x i => exact hx i rfl
  | id | cap0 | cap1 | ctrl | status | cmd | errinfo | res0 | res1 => exact hoff (by decide)

/-- Settles O10: both accesses go through `registerAccess`. -/
theorem windowAccesses : Obligations.WindowAccesses := by
  intro s off w hlt
  refine ⟨fun hal => ⟨?_, ?_⟩, fun width h => ⟨?_, ?_⟩⟩
  · exact registerAccess_aligned s hlt hal _
  · exact registerAccess_aligned s hlt hal _
  · exact registerAccess_misshapen s hlt h _
  · exact registerAccess_misshapen s hlt h _

/-- `ackf` clears `FAULT` and changes nothing else (60_exceptions.md R272). -/
theorem hostAct_ackf (s : State) : hostAct (ackfAction s.platform) s = .next (acknowledgeFault s) :=
  hostAct_wr s .status 0x00000004#32

/-- Settles O11: a FAULTED engine drops a doorbell, the acknowledge clears `FAULT` alone, and IDLE then accepts. -/
theorem acknowledgeEndsTheFaultedState : Obligations.AcknowledgeEndsTheFaultedState := by
  intro s w hs
  obtain ⟨hb, hf⟩ := (runState_eq_faulted_iff s).1 hs
  have hdrop : writeRegister 0x14 w s = dropWrite s := writeCmd_of_not_idle (.inr hf) w
  have haccept : writeRegister 0x14 w (acknowledgeFault s) = acceptCommand w (acknowledgeFault s) :=
    writeCmd_of_idle (s := acknowledgeFault s) hb rfl w
  refine ⟨hdrop ▸ dropWrite_onlyOverrunSet s, acknowledgeFault s, hostAct_ackf s, rfl, ?_, ?_, ?_⟩
  · exact (runState_eq_idle_iff _).2 ⟨hb, rfl⟩
  · rw [haccept, runState_eq_busy_iff]
    exact ⟨rfl, rfl⟩
  · rw [haccept, acceptCommand_cmd]

/-- Settles O14: the reset state is `State.resetOn` of the default platform. -/
theorem registersAfterReset : Obligations.RegistersAfterReset :=
  ⟨registersReset_resetOn defaultPlatform, registersReset_resetOn⟩

end Sys2Proof.Machine
end

section
/-! PROOFS. The step that runs the accepted command (30_encoding.md R103, R107; 70_reset_and_hazards.md R304). -/

namespace Sys2Proof.Machine

/-- The engine runs the command that the word in `CMD` decodes to (30_encoding.md R103). -/
theorem engineStep_of_decode {s : State} {i : Instr} (h : decode s.cmd = .ok i) : engineStep s = exec i s := by
  simp [engineStep, h]

/-- Settles O4: the engine's turn by the form of the script, a `wait` being reads of `STATUS` that `pollTimes_eq` sums
up. -/
theorem stepRunsTheAcceptedCommand : Obligations.StepRunsTheAcceptedCommand := by
  intro s hb
  constructor
  · intro hscript
    have hstep : step s = engineStep s := by
      obtain hs | ⟨rest, hs⟩ := hscript
      · exact step_of_busy hb hs
      · exact step_of_awaitEnd hb hs
    exact ⟨hstep, fun i hi => hstep.trans (engineStep_of_decode hi)⟩
  · intro rest hs polled
    have hstep : step s = engineStep polled := by
      rw [step_of_wait hb hs, pollTimes_eq]
      rfl
    exact ⟨hstep, fun i hi => hstep.trans (engineStep_of_decode (s := polled) hi)⟩

end Sys2Proof.Machine
end

section
/-! PROOFS. Words and regions of buffer memory (20_memory.md R62, R63, R65, R67, R69). -/

namespace Sys2Proof.Machine

/-! ### Words -/

/-- The bytes of a word, least significant first (20_memory.md R62). -/
theorem toNat_getElem_bytesOfWord (v : Nat) {k : Nat} (hk : k < 4) :
    ((bytesOfWord v)[k]'hk).toNat = v / 2 ^ (8 * k) % 2 ^ 8 := by
  match k, hk with
  | 0, _ => simp [bytesOfWord]
  | 1, _ | 2, _ | 3, _ => rfl

/-- A stored word holds its bytes at any alignment (20_memory.md R62, R63). -/
theorem toNat_read_writeBytes_bytesOfWord {m : Memory} (hm : m.wf = true) {a : Nat} (ha : a + 4 ≤ memorySize) (v : Nat)
    {k : Nat} (hk : k < 4) : ((m.writeBytes a (bytesOfWord v)).read (a + k)).toNat = v / 2 ^ (8 * k) % 2 ^ 8 := by
  rw [Memory.read_writeBytes_inside hm ha hk, toNat_getElem_bytesOfWord v hk]

/-- A stored word reads back as its low 32 bits (20_memory.md R62). -/
theorem readWord_writeBytes_bytesOfWord {m : Memory} (hm : m.wf = true) {a : Nat} (ha : a + 4 ≤ memorySize) (v : Nat) :
    (m.writeBytes a (bytesOfWord v)).readWord a = v % 2 ^ 32 := by
  have h0 := toNat_read_writeBytes_bytesOfWord hm ha v (k := 0) (by decide)
  have h1 := toNat_read_writeBytes_bytesOfWord hm ha v (k := 1) (by decide)
  have h2 := toNat_read_writeBytes_bytesOfWord hm ha v (k := 2) (by decide)
  have h3 := toNat_read_writeBytes_bytesOfWord hm ha v (k := 3) (by decide)
  rw [Nat.add_zero] at h0
  rw [Memory.readWord, wordOfBytes, h0, h1, h2, h3]
  omega

/-- Settles O16: each byte of the word is read where it was stored, and the four make up the number again. -/
theorem wordsAreLittleEndian : Obligations.WordsAreLittleEndian := fun m a v hm ha =>
  ⟨fun _ hk => toNat_read_writeBytes_bytesOfWord hm ha v hk, readWord_writeBytes_bytesOfWord hm ha v,
    fun _ hb => Memory.read_writeBytes_outside m a (bytesOfWord v) hb⟩

/-! ### The region check -/

theorem inRegion_iff (r : Region) (a : Nat) : inRegion r a = true ↔ r.base ≤ a ∧ a < r.base + r.size := by
  simp only [inRegion, Bool.and_eq_true, decide_eq_true_eq]

/-- Regions do not overlap when no address is in both; the higher of two bases is the one to look at
(20_memory.md R65). -/
theorem overlaps_eq_false_iff (r q : Region) :
    overlaps r q = false ↔ ∀ a, ¬ (inRegion r a = true ∧ inRegion q a = true) := by
  simp only [inRegion_iff, overlaps, Bool.and_eq_false_iff, decide_eq_false_iff_not]
  constructor
  · intro h a
    omega
  · intro h
    have hmax := h (max r.base q.base)
    omega

theorem pairwiseDisjoint_iff (rs : List Region) :
    pairwiseDisjoint rs = true ↔ rs.Pairwise fun r q => overlaps r q = false := by
  induction rs with
  | nil => simp [pairwiseDisjoint]
  | cons r rs ih => simp [pairwiseDisjoint, ih]

/-- The region check by its parts (a), (b), (c) (20_memory.md R67). -/
theorem regionCheck_iff (ins outs : List Region) : regionCheck ins outs = true ↔
    (∀ r ∈ ins ++ outs, inRange r = true) ∧ (∀ o ∈ outs, ∀ r ∈ ins, overlaps o r = false) ∧
      outs.Pairwise fun o q => overlaps o q = false := by
  simp only [regionCheck, Bool.and_eq_true, List.all_eq_true, Bool.not_eq_true', pairwiseDisjoint_iff,
    List.forall_mem_append, and_assoc]

/-- Settles O17: the parts of the check, with overlap read as a shared address. -/
theorem regionCheckIsDisjointnessInRange : Obligations.RegionCheckIsDisjointnessInRange := by
  intro ins outs
  simp only [regionCheck_iff, inRange_iff, overlaps_eq_false_iff, memorySize]

/-! ### The platform check (20_memory.md R69) -/

theorem touchesAny_mono {areas rs qs : List Region} (hsub : rs ⊆ qs) (h : touchesAny areas rs = true) :
    touchesAny areas qs = true := by
  simp only [touchesAny, List.any_eq_true] at h ⊢
  obtain ⟨r, hr, ha⟩ := h
  exact ⟨r, hsub hr, ha⟩

theorem touchesAny_of_backing_unbacked {p : Platform} {rs : List Region} (h : backing p rs = .unbacked) :
    touchesAny p.unbacked rs = true := by
  simp only [backing] at h
  split at h
  · cases h
  · split at h
    · assumption
    · cases h

end Sys2Proof.Machine
end

section
/-! PROOFS. How every command ends (20_memory.md R69, R70; 60_exceptions.md R260, R270, R271): every ending of every
procedure conforms to what the rules allow its command, so that the statements about `exec` are read off an ending. -/

namespace Sys2Proof.Machine

/-- What the rules allow an ending of command `i` in `s`: stores fill output regions (20_memory.md R70), a fault other
than `TruncatedStream` has one of the four other causes a command can raise (60_exceptions.md R261), `TruncatedStream` is
raised by `HUF.DEC`, or by `HUF.LEN` which stores nothing (R271), and an engine is stuck on a region of its own
(20_memory.md R69). -/
inductive Ending.Conforms (i : Instr) (s : State) : Ending → Prop
  | completes {stores : List Store} (r0 r1 : Word) (hstores : ∀ u ∈ stores, u.region ∈ outputRegions i s) :
    Conforms i s (.completes stores r0 r1)
  | faults {c : Cause} (info : Word) (hc : causeCode c ∈ [1#4, 2#4, 3#4, 6#4]) : Conforms i s (.faults c info)
  | truncates {stores : List Store} (cnt start : Word) (hstores : ∀ u ∈ stores, u.region ∈ outputRegions i s)
    (hi : i = .hufLen ∧ stores = [] ∨ i = .hufDec) : Conforms i s (.truncates stores cnt start)
  | stuck (h : touchesAny s.platform.unbacked (inputRegions i s ++ outputRegions i s) = true) : Conforms i s .stuck
  | notPlain : Conforms i s .notPlain

section
variable {i : Instr} {s : State} {e : Ending}

/-! ### The parts of a procedure -/

theorem Ending.conforms_outOfMemory (info : Word) : (Ending.faults .outOfMemory info).Conforms i s :=
  .faults info (by decide)

theorem Ending.conforms_badOperand (info : Word) : (Ending.faults .badOperand info).Conforms i s :=
  .faults info (by decide)

theorem Ending.conforms_codeLengthOverflow (info : Word) : (Ending.faults .codeLengthOverflow info).Conforms i s :=
  .faults info (by decide)

theorem Ending.conforms_invalidData (sub : Nat) : (invalidData sub).Conforms i s :=
  .faults _ (by decide)

/-- A platform check on regions of the command adds an engine stuck on one of them (20_memory.md R64, R69). -/
theorem Ending.Conforms.onBacked (h : e.Conforms i s) {rs : List Region}
    (hsub : rs ⊆ inputRegions i s ++ outputRegions i s) : (onBacked s rs e).Conforms i s := by
  obtain ⟨-, he⟩ | ⟨hb, he⟩ | ⟨-, he⟩ := onBacked_cases s rs e <;> rw [he]
  · exact h
  · exact .stuck (touchesAny_mono hsub (touchesAny_of_backing_unbacked hb))
  · exact .notPlain

/-- The length check adds `CodeLengthOverflow`; what follows it may count on lengths that fit (42_huffman_codec.md R204). -/
theorem Ending.conforms_lenChecked {lens : List Nat} (h : lengthOverflow lens = none → e.Conforms i s) :
    (lenChecked lens e).Conforms i s := by
  obtain ⟨hl, he⟩ | ⟨sym, -, he⟩ := lenChecked_cases lens e <;> rw [he]
  · exact h hl
  · exact Ending.conforms_codeLengthOverflow _

/-! ### The procedures -/

theorem saEnding_conforms (hin : inputRegions i s = [saIn s]) (hout : outputRegions i s = [saOut s]) :
    (saEnding s).Conforms i s := by
  obtain ⟨-, he⟩ | ⟨-, -, he⟩ | ⟨-, -, he⟩ := saEnding_cases s <;> rw [he]
  · exact Ending.conforms_outOfMemory _
  · exact Ending.conforms_badOperand _
  · refine (Ending.Conforms.completes _ _ ?_).onBacked (by simp [hin, hout])
    simp [hout, Store.region, saOut, State.regionAt]

theorem bwtEncEnding_conforms (hin : inputRegions i s = [bwtEncIn s]) (hout : outputRegions i s = [bwtEncOut s]) :
    (bwtEncEnding s).Conforms i s := by
  obtain ⟨-, he⟩ | ⟨-, -, he⟩ | ⟨-, -, -, he⟩ | ⟨-, -, -, he⟩ := bwtEncEnding_cases s <;> rw [he]
  · exact Ending.conforms_outOfMemory _
  · exact Ending.conforms_badOperand _
  · exact (Ending.conforms_invalidData 1).onBacked (by simp [hin, hout])
  · refine (Ending.Conforms.completes _ _ ?_).onBacked (by simp [hin, hout])
    simp [hout, Store.region, bwtEncOut, State.regionAt]

theorem bwtDecWalk_conforms (hout : outputRegions i s = [bwtDecOut s]) (p : Nat) : (bwtDecWalk s p).Conforms i s := by
  obtain ⟨-, he⟩ | ⟨out, -, hlen, he⟩ := bwtDecWalk_cases s p <;> rw [he]
  · exact Ending.conforms_invalidData 6
  · exact .completes _ _ (by simp [hout, Store.region, hlen, bwtDecOut, State.regionAt])

/-- The first checks of a decode add `OutOfMemory` and `BadOperand` (41_bwt_codec.md R183). -/
theorem Ending.Conforms.bwtDecChecked (h : e.Conforms i s) (hin : inputRegions i s = [bwtDecIn s])
    (hout : outputRegions i s = [bwtDecOut s]) : (bwtDecChecked s e).Conforms i s := by
  obtain ⟨-, he⟩ | ⟨-, -, he⟩ | ⟨-, -, he⟩ := bwtDecChecked_cases s e <;> rw [he]
  · exact Ending.conforms_outOfMemory _
  · exact Ending.conforms_badOperand _
  · exact h.onBacked (by simp [hin, hout])

theorem bwtDecPData_conforms (s : State) : (bwtDecPData s).Conforms .bwtDecP s := by
  obtain ⟨-, he⟩ | ⟨-, -, he⟩ | ⟨-, -, he⟩ | ⟨-, -, -, he⟩ | ⟨-, -, -, he⟩ := bwtDecPData_cases s <;> rw [he]
  · exact Ending.conforms_invalidData 2
  · exact Ending.conforms_invalidData 3
  · exact Ending.conforms_invalidData 4
  · exact Ending.conforms_invalidData 5
  · exact bwtDecWalk_conforms rfl _

theorem bwtDecSData_conforms (s : State) : (bwtDecSData s).Conforms .bwtDecS s := by
  obtain ⟨-, he⟩ | ⟨-, -, he⟩ | ⟨-, -, he⟩ := bwtDecSData_cases s <;> rw [he]
  · exact Ending.conforms_invalidData 2
  · exact Ending.conforms_invalidData 4
  · exact bwtDecWalk_conforms rfl _

theorem buildEnding_conforms (s : State) : (buildEnding s).Conforms .hufBuild s := by
  obtain ⟨-, he⟩ | ⟨-, he⟩ := buildEnding_cases s <;> rw [he]
  · exact Ending.conforms_badOperand _
  · refine (Ending.conforms_lenChecked fun _ => .completes _ _ ?_).onBacked
      (by simp [inputRegions, outputRegions])
    simp [outputRegions, Store.region, buildOutLengths, buildOutCodes, State.regionAt, alphabet]

theorem canonEnding_conforms (s : State) : (canonEnding s).Conforms .hufCanon s := by
  obtain ⟨-, he⟩ | ⟨-, he⟩ := canonEnding_cases s <;> rw [he]
  · exact Ending.conforms_badOperand _
  · refine (Ending.conforms_lenChecked fun _ => ?_).onBacked (List.Subset.refl _)
    split
    · exact Ending.conforms_invalidData 8
    · exact .completes _ _ (by simp [outputRegions, Store.region, canonOut, State.regionAt, alphabet])

theorem encWrite_conforms (hout : encOutputs s = [encOut s (bitCount (lengthsOf s) (symbolsOf s))]) :
    (encWrite s (bitCount (lengthsOf s) (symbolsOf s))).Conforms .hufEnc s := by
  obtain ⟨-, he⟩ | ⟨-, he⟩ := encWrite_cases s (bitCount (lengthsOf s) (symbolsOf s)) <;> rw [he]
  · exact Ending.conforms_badOperand _
  · refine (Ending.Conforms.completes _ _ ?_).onBacked (by simp [outputRegions, hout])
    simp [outputRegions, hout, Store.region, encOut, State.regionAt]

theorem encEnding_conforms (s : State) : (encEnding s).Conforms .hufEnc s := by
  obtain ⟨-, he⟩ | ⟨hr, he⟩ := encEnding_cases s <;> rw [he]
  · exact Ending.conforms_badOperand _
  · refine (Ending.conforms_lenChecked fun hl => ?_).onBacked (List.subset_append_left _ _)
    obtain ⟨-, hd⟩ | ⟨-, -, hd⟩ | ⟨ha, -, hd⟩ := encData_cases s <;> rw [hd]
    · exact Ending.conforms_invalidData 7
    · exact Ending.conforms_badOperand _
    · exact encWrite_conforms (if_pos ⟨hr, hl, ha⟩)

/-- The checks that `HUF.DEC` and `HUF.LEN` share; what follows them may count on their having passed
(42_huffman_codec.md R213, R214). -/
theorem decChecked_conforms (hin : inputRegions i s = decIns s)
    (h : (decIns s).all inRange = true → lengthOverflow (lengthsOf s) = none → oversubscribed (lengthsOf s) = false →
      e.Conforms i s) : (decChecked s e).Conforms i s := by
  have hsub : decIns s ⊆ inputRegions i s ++ outputRegions i s := hin ▸ List.subset_append_left _ _
  obtain ⟨-, he⟩ | ⟨-, -, he⟩ | ⟨hr, ho, he⟩ := decChecked_cases s e <;> rw [he]
  · exact Ending.conforms_badOperand _
  · exact (Ending.conforms_lenChecked fun _ => Ending.conforms_invalidData 8).onBacked hsub
  · exact (Ending.conforms_lenChecked fun hl => h hr hl ho).onBacked hsub

theorem decEnd_conforms {stores : List Store} (hstores : ∀ u ∈ stores, u.region ∈ outputRegions i s)
    (hi : i = .hufLen ∧ stores = [] ∨ i = .hufDec) (d : Decoded) : (decEnd s d stores).Conforms i s := by
  obtain ⟨-, he⟩ | ⟨start, -, he⟩ := decEnd_cases s d stores <;> rw [he]
  · exact .completes _ _ hstores
  · exact .truncates _ _ hstores hi

theorem decWrite_conforms (hout : decOutputs s = [decOut s (decodedOf s).symbols.length]) :
    (decWrite s (decodedOf s)).Conforms .hufDec s := by
  obtain ⟨-, he⟩ | ⟨-, he⟩ := decWrite_cases s (decodedOf s) <;> rw [he]
  · exact Ending.conforms_badOperand _
  · refine (decEnd_conforms ?_ (.inr rfl) _).onBacked (by simp [outputRegions, hout])
    simp [outputRegions, hout, Store.region, decOut, State.regionAt]

theorem decEnding_conforms (s : State) : (decEnding s).Conforms .hufDec s :=
  decChecked_conforms rfl fun hr hl ho => decWrite_conforms (if_pos ⟨hr, hl, ho⟩)

theorem lenEnding_conforms (s : State) : (lenEnding s).Conforms .hufLen s :=
  decChecked_conforms rfl fun _ _ _ => decEnd_conforms (by simp) (.inl ⟨rfl, rfl⟩) _

end

/-- Every command concludes an ending that the rules allow it. -/
theorem exec_eq_conclude_conforms (i : Instr) (s : State) : ∃ e : Ending, exec i s = conclude s e ∧ e.Conforms i s := by
  cases i with
  | saNaive | saPd | saIs | saDc3 => exact ⟨saEnding s, rfl, saEnding_conforms rfl rfl⟩
  | bwtEncNaive | bwtEncPd | bwtEncIs | bwtEncDc3 => exact ⟨bwtEncEnding s, rfl, bwtEncEnding_conforms rfl rfl⟩
  | bwtDecP => exact ⟨bwtDecPEnding s, rfl, (bwtDecPData_conforms s).bwtDecChecked rfl rfl⟩
  | bwtDecS => exact ⟨bwtDecSEnding s, rfl, (bwtDecSData_conforms s).bwtDecChecked rfl rfl⟩
  | hufBuild => exact ⟨buildEnding s, rfl, buildEnding_conforms s⟩
  | hufCanon => exact ⟨canonEnding s, rfl, canonEnding_conforms s⟩
  | hufEnc => exact ⟨encEnding s, rfl, encEnding_conforms s⟩
  | hufDec => exact ⟨decEnding s, rfl, decEnding_conforms s⟩
  | hufLen => exact ⟨lenEnding s, rfl, lenEnding_conforms s⟩

/-! ### What `exec` can answer -/

/-- Everything a command that answers a next state can do (20_memory.md R69, R70; 60_exceptions.md R260, R270, R271). -/
theorem exec_next {i : Instr} {s t : State} (h : exec i s = .next t) :
    (∃ stores r0 r1, (∀ u ∈ stores, u.region ∈ outputRegions i s) ∧ t = completeWith (storeAll s.mem stores) r0 r1 s) ∨
    (∃ c info, causeCode c ∈ [1#4, 2#4, 3#4, 6#4] ∧ t = raiseFault c info 0#32 0#32 s) ∨
    (∃ stores cnt start, (∀ u ∈ stores, u.region ∈ outputRegions i s) ∧ (i = .hufLen ∧ stores = [] ∨ i = .hufDec) ∧
      t = raiseFault .truncatedStream start cnt start { s with mem := storeAll s.mem stores }) ∨
    (touchesAny s.platform.unbacked (inputRegions i s ++ outputRegions i s) = true ∧ t = s) := by
  obtain ⟨e, he, hconf⟩ := exec_eq_conclude_conforms i s
  rw [he] at h
  obtain ⟨stores, r0, r1, rfl, rfl⟩ | ⟨c, info, rfl, rfl⟩ | ⟨stores, cnt, start, rfl, rfl⟩ | ⟨rfl, rfl⟩ :=
    conclude_next h
  · cases hconf with
    | completes _ _ hstores => exact .inl ⟨stores, r0, r1, hstores, rfl⟩
  · cases hconf with
    | faults _ hc => exact .inr (.inl ⟨c, info, hc, rfl⟩)
  · cases hconf with
    | truncates _ _ hstores hi => exact .inr (.inr (.inl ⟨stores, cnt, start, hstores, hi, rfl⟩))
  · cases hconf with
    | stuck htouch => exact .inr (.inr (.inr ⟨htouch, rfl⟩))

/-- Stores that fill regions of a list leave memory outside the list as it was (20_memory.md R70). -/
theorem read_storeAll_outside_regions {m : Memory} {stores : List Store} {rs : List Region} {a : Nat}
    (hstores : ∀ u ∈ stores, u.region ∈ rs) (ha : ∀ r ∈ rs, inRegion r a = false) :
    (storeAll m stores).read a = m.read a :=
  read_storeAll_outside m stores fun u hu => ha _ (hstores u hu)

/-- Settles O18: a command stores on completion and at `TruncatedStream` alone, and what it stores fills output
regions. -/
theorem commandsWriteOnlyTheirOutputRegions : Obligations.CommandsWriteOnlyTheirOutputRegions := by
  intro i s t h a ha
  obtain ⟨stores, r0, r1, hstores, rfl⟩ | ⟨c, info, -, rfl⟩ | ⟨stores, cnt, start, hstores, -, rfl⟩ | ⟨-, rfl⟩ :=
    exec_next h
  · exact read_storeAll_outside_regions hstores ha
  · rfl
  · exact read_storeAll_outside_regions hstores ha
  · rfl

/-- A completion changes results, fault detail, flags and memory alone (70_reset_and_hazards.md R304). -/
theorem completeWith_sameOutside (m : Memory) (r0 r1 : Word) (s : State) : sameOutside s (completeWith m r0 r1 s) :=
  ⟨rfl, rfl, rfl, rfl, rfl, rfl, rfl, rfl⟩

theorem completeWith_completedWith (m : Memory) (r0 r1 : Word) (s : State) :
    completedWith s (completeWith m r0 r1 s) r0.toNat r1.toNat :=
  ⟨rfl, rfl, rfl, rfl, rfl, rfl, rfl⟩

/-- A fault entry changes results, fault detail and flags alone, besides what was stored before it
(60_exceptions.md R270, R271). -/
theorem raiseFault_sameOutside (c : Cause) (info r0 r1 : Word) (m : Memory) (s : State) :
    sameOutside s (raiseFault c info r0 r1 { s with mem := m }) :=
  ⟨rfl, rfl, rfl, rfl, rfl, rfl, rfl, rfl⟩

theorem raiseFault_faultedWith (c : Cause) (info r0 r1 : Word) (m : Memory) (s : State) :
    faultedWith s (raiseFault c info r0 r1 { s with mem := m }) (causeCode c) info r0 r1 :=
  ⟨rfl, rfl, rfl, rfl, rfl, rfl, rfl⟩

theorem sameOutside_refl (s : State) : sameOutside s s := ⟨rfl, rfl, rfl, rfl, rfl, rfl, rfl, rfl⟩

/-- Settles O20: the four endings of `exec_next`, one for each alternative of the statement. -/
theorem everyCommandCompletesFaultsOrIsStuck : Obligations.EveryCommandCompletesFaultsOrIsStuck := by
  intro i s t h
  obtain ⟨stores, r0, r1, -, rfl⟩ | ⟨c, info, hc, rfl⟩ | ⟨stores, cnt, start, -, hi, rfl⟩ | ⟨htouch, rfl⟩ := exec_next h
  · exact ⟨completeWith_sameOutside _ r0 r1 s, .inl ⟨_, _, completeWith_completedWith _ r0 r1 s⟩⟩
  · exact ⟨raiseFault_sameOutside c info 0#32 0#32 s.mem s,
      .inr (.inl ⟨_, info, raiseFault_faultedWith c info 0#32 0#32 s.mem s, hc, rfl⟩)⟩
  · refine ⟨raiseFault_sameOutside .truncatedStream start cnt start _ s,
      .inr (.inr (.inl ⟨cnt, start, raiseFault_faultedWith .truncatedStream start cnt start _ s, ?_⟩))⟩
    obtain ⟨hlen, rfl⟩ | hdec := hi
    · exact .inl ⟨hlen, rfl⟩
    · exact .inr hdec
  · exact ⟨sameOutside_refl _, .inr (.inr (.inr ⟨rfl, htouch⟩))⟩

end Sys2Proof.Machine
end

section
/-! PROOFS. The decoder and the encoder of command words (30_encoding.md R100 to R103): packing the three fields is a
bijection, and every command has one operation with one mode. -/

namespace Sys2Proof.Machine

/-! ### The fields of a word -/

/-- The fields cut out of a word make it up again (30_encoding.md R100). -/
theorem packFields_fieldsOf (w : Word) : packFields (fieldsOf w) = w := by
  apply BitVec.eq_of_getLsbD_eq
  intro k hk
  simp only [packFields, fieldsOf, BitVec.getLsbD_append, BitVec.getLsbD_extractLsb']
  split
  · simp [*]
  · split
    · rename_i hmode
      simp [hmode, show 8 + (k - 8) = k by omega]
    · simp [show k - 8 - 4 < 20 by omega, show 12 + (k - 8 - 4) = k by omega]

/-- The field `ZERO` as a number (30_encoding.md R100). -/
theorem toNat_zero_fieldsOf (w : Word) : (fieldsOf w).zero.toNat = w.toNat / 2 ^ 12 := by
  have hlt := w.isLt
  simp only [fieldsOf, BitVec.extractLsb'_toNat, Nat.shiftRight_eq_div_pow]
  omega

/-- The field `MODE` as a number (30_encoding.md R100). -/
theorem toNat_mode_fieldsOf (w : Word) : (fieldsOf w).mode.toNat = w.toNat / 2 ^ 8 % 2 ^ 4 := by
  simp only [fieldsOf, BitVec.extractLsb'_toNat, Nat.shiftRight_eq_div_pow]

/-- The field `OP` as a number (30_encoding.md R100). -/
theorem toNat_op_fieldsOf (w : Word) : (fieldsOf w).op.toNat = w.toNat % 2 ^ 8 := by
  simp only [fieldsOf, BitVec.extractLsb'_toNat, Nat.shiftRight_zero]

/-! ### The command of an operation and mode -/

/-- The four strategies are the modes 0 to 3 (30_encoding.md R102). -/
@[simp] theorem isSome_byStrategy (a b c d : Instr) (mode : BitVec 4) :
    (byStrategy a b c d mode).isSome = decide (mode.toNat < 4) := by
  unfold byStrategy
  split <;> grind

/-- The two variants are the modes 0 and 1 (30_encoding.md R102). -/
@[simp] theorem isSome_byVariant (a b : Instr) (mode : BitVec 4) :
    (byVariant a b mode).isSome = decide (mode.toNat < 2) := by
  unfold byVariant
  split <;> grind

/-- The one mode is 0 (30_encoding.md R102). -/
@[simp] theorem isSome_onlyMode (a : Instr) (mode : BitVec 4) :
    (onlyMode a mode).isSome = decide (mode.toNat < 1) := by
  unfold onlyMode
  split <;> grind

/-- Each legal pair of `OP` and `MODE` has a command (30_encoding.md R101, R102), the converse of `commandOf_legal`. -/
theorem isSome_commandOf {op : BitVec 8} {mode : BitVec 4}
    (h : (op.toNat ∈ [0x01, 0x02] ∧ mode.toNat < 4) ∨ (op.toNat ∈ [0x03, 0x13] ∧ mode.toNat < 2) ∨
      (op.toNat ∈ [0x10, 0x11, 0x12] ∧ mode.toNat < 1)) : (commandOf op mode).isSome = true := by
  simp only [List.mem_cons, List.not_mem_nil, or_false] at h
  obtain ⟨hop | hop, hmode⟩ | ⟨hop | hop, hmode⟩ | ⟨hop | hop | hop, hmode⟩ := h <;>
    simpa [commandOf, hop] using hmode

/-- A command is the command of its own operation and mode, and of no other pair (30_encoding.md R101). -/
theorem commandOf_eq_some_iff {op : BitVec 8} {mode : BitVec 4} {i : Instr} :
    commandOf op mode = some i ↔ op = opOf i ∧ mode = modeOf i := by
  constructor
  · intro h
    unfold commandOf at h
    split at h
    case h_8 => cases h
    all_goals
      simp only [byStrategy, byVariant, onlyMode] at h
      split at h <;> cases h <;>
        exact ⟨BitVec.eq_of_toNat_eq ‹op.toNat = _›, BitVec.eq_of_toNat_eq ‹mode.toNat = _›⟩
  · rintro ⟨rfl, rfl⟩
    cases i <;> rfl

/-! ### Decoding -/

/-- When a word decodes to a command (30_encoding.md R103). -/
theorem decode_eq_ok_iff {w : Word} {i : Instr} :
    decode w = .ok i ↔ (fieldsOf w).zero = 0#20 ∧ commandOf (fieldsOf w).op (fieldsOf w).mode = some i := by
  simp only [decode]
  split
  · split <;> simp_all
  · simp_all

/-- The decoder refuses a word by naming it (30_encoding.md R103, 60_exceptions.md R266). -/
theorem eq_illegalCommand_of_decode {w : Word} {e : DecodeError} (h : decode w = .error e) : e = .illegalCommand w := by
  simp only [decode] at h
  split at h
  · split at h <;> cases h
    rfl
  · cases h
    rfl

/-- A command's word decodes to it (30_encoding.md R101, R103). -/
theorem decode_encode (i : Instr) : decode (encode i) = .ok i := by
  cases i <;> rfl

/-- A word that decodes to a command is its word: reserved bits, mode and operation are the command's, and they make up
the word (30_encoding.md R100, R101). -/
theorem eq_encode_of_decode {w : Word} {i : Instr} (h : decode w = .ok i) : w = encode i := by
  obtain ⟨hzero, hcmd⟩ := decode_eq_ok_iff.1 h
  obtain ⟨hop, hmode⟩ := commandOf_eq_some_iff.1 hcmd
  have hfields : fieldsOf w = ⟨0#20, modeOf i, opOf i⟩ := by rw [← hzero, ← hmode, ← hop]
  rw [← packFields_fieldsOf w, hfields, encode]

/-- Settles O2: `eq_encode_of_decode` and its converse `decode_encode`. -/
theorem decodeAcceptsExactlyTheEncodings : Obligations.DecodeAcceptsExactlyTheEncodings := fun _ i =>
  ⟨eq_encode_of_decode, fun h => h ▸ decode_encode i⟩

/-- A command's word read as a row of the opcode table gives the command (30_encoding.md R101). -/
theorem decodeTableWord_encode (i : Instr) : decodeTableWord 32 (encode i).toNat = some i := by
  simp [decodeTableWord, Nat.mod_eq_of_lt (encode i).isLt, decode_encode]

/-- The commands in the row order of the opcode table (30_encoding.md R101). -/
def tableCommands : List Instr :=
  [.saNaive, .saPd, .saIs, .saDc3, .bwtEncNaive, .bwtEncPd, .bwtEncIs, .bwtEncDc3, .bwtDecP, .bwtDecS, .hufBuild,
    .hufCanon, .hufEnc, .hufDec, .hufLen]

/-- Settles O1: the rows are the commands with their words, and `decodeTableWord_encode` reads such a word back. -/
theorem commandWordsOfTheTable : Obligations.CommandWordsOfTheTable := by
  change (tableCommands.map fun i => (encode i, i)).all _ = true
  simp [decodeTableWord_encode]

/-! ### Illegal words -/

/-- A word that is not illegal is a command's (30_encoding.md R103), the converse of `not_illegalWord_of_decode`. -/
theorem exists_decode_of_not_illegalWord {w : Word} (h : ¬ illegalWord w) : ∃ i, decode w = .ok i := by
  simp only [illegalWord, List.mem_cons, List.not_mem_nil, or_false] at h
  have hzero : (fieldsOf w).zero = 0#20 := BitVec.eq_of_toNat_eq (by rw [toNat_zero_fieldsOf, BitVec.toNat_zero]; omega)
  have hcmd : (commandOf (fieldsOf w).op (fieldsOf w).mode).isSome = true := by
    apply isSome_commandOf
    simp only [toNat_op_fieldsOf, toNat_mode_fieldsOf, List.mem_cons, List.not_mem_nil, or_false]
    omega
  obtain ⟨i, hi⟩ := Option.isSome_iff_exists.1 hcmd
  exact ⟨i, decode_eq_ok_iff.2 ⟨hzero, hi⟩⟩

/-- The decoder refuses an illegal word (30_encoding.md R103). -/
theorem decode_of_illegalWord {w : Word} (h : illegalWord w) : decode w = .error (.illegalCommand w) := by
  cases hd : decode w with
  | ok i => exact absurd h (not_illegalWord_of_decode hd)
  | error e => rw [eq_illegalCommand_of_decode hd]

/-- The engine ends an illegal word in `IllegalCommand(w)` (30_encoding.md R103, 60_exceptions.md R266). -/
theorem engineStep_of_illegalWord {s : State} (h : illegalWord s.cmd) :
    engineStep s = .next (raiseFault .illegalCommand s.cmd 0#32 0#32 s) := by
  simp [engineStep, decode_of_illegalWord h]

/-- Settles O3: an illegal word is refused by the decoder and enters the fault; a word that is not illegal decodes, so
it is the word of the command that runs. -/
theorem illegalWordsFaultAndTheOthersRun : Obligations.IllegalWordsFaultAndTheOthersRun := by
  intro s
  constructor
  · intro h
    exact ⟨_, engineStep_of_illegalWord h, raiseFault_faultedWith .illegalCommand s.cmd 0#32 0#32 s.mem s,
      raiseFault_sameOutside .illegalCommand s.cmd 0#32 0#32 s.mem s, rfl⟩
  · intro h
    obtain ⟨i, hi⟩ := exists_decode_of_not_illegalWord h
    exact ⟨i, eq_encode_of_decode hi, engineStep_of_decode hi⟩

end Sys2Proof.Machine
end

section
/-! PROOFS. Host accesses to buffer memory beside a running command (30_encoding.md R106; 70_reset_and_hazards.md
R306). -/

namespace Sys2Proof.Machine

/-! ### The regions of the command in `CMD` -/

theorem runningInputs_of_decode {s : State} {i : Instr} (h : decode s.cmd = .ok i) :
    runningInputs s = inputRegions i s := by
  simp [runningInputs, h]

theorem runningOutputs_of_decode {s : State} {i : Instr} (h : decode s.cmd = .ok i) :
    runningOutputs s = outputRegions i s := by
  simp [runningOutputs, h]

theorem runningInputs_of_illegalWord {s : State} (h : illegalWord s.cmd) : runningInputs s = [] := by
  simp [runningInputs, decode_of_illegalWord h]

theorem runningOutputs_of_illegalWord {s : State} (h : illegalWord s.cmd) : runningOutputs s = [] := by
  simp [runningOutputs, decode_of_illegalWord h]

/-! ### What an access disturbs -/

/-- With no command running, or an illegal word in `CMD`, a store disturbs nothing. -/
theorem storeDisturbs_eq_false {s : State} (h : s.status.busy = false ∨ illegalWord s.cmd) (r : Region) :
    storeDisturbs s r = false := by
  obtain hb | hw := h
  · simp [storeDisturbs, hb]
  · simp [storeDisturbs, runningInputs_of_illegalWord hw, runningOutputs_of_illegalWord hw]

/-- With no command running, or an illegal word in `CMD`, a load disturbs nothing. -/
theorem loadDisturbs_eq_false {s : State} (h : s.status.busy = false ∨ illegalWord s.cmd) (r : Region) :
    loadDisturbs s r = false := by
  obtain hb | hw := h
  · simp [loadDisturbs, hb]
  · simp [loadDisturbs, runningOutputs_of_illegalWord hw]

/-- An access overlaps a region when one of its bytes lies in it (20_memory.md R65). -/
theorem overlaps_accessRegion_iff (addr count : Nat) (q : Region) :
    overlaps (accessRegion addr count) q = true ↔ ∃ k < count, inRegion q (addr + k) = true := by
  rw [← not_iff_not, Bool.not_eq_true, overlaps_eq_false_iff]
  simp only [inRegion_iff, accessRegion, not_exists, not_and]
  constructor
  · intro h k hk
    exact h (addr + k) ⟨by omega, by omega⟩
  · rintro h a ⟨hle, hlt⟩
    have hk := h (a - addr) (by omega)
    rwa [Nat.add_sub_cancel' hle] at hk

/-- A store disturbs a running command where it touches one of its regions (70_reset_and_hazards.md R306). -/
theorem storeDisturbs_iff {s : State} {i : Instr} (hb : s.status.busy = true) (hi : decode s.cmd = .ok i)
    (addr count : Nat) : storeDisturbs s (accessRegion addr count) = true ↔
      ∃ r ∈ inputRegions i s ++ outputRegions i s, ∃ k < count, inRegion r (addr + k) = true := by
  simp only [storeDisturbs, hb, Bool.true_and, runningInputs_of_decode hi, runningOutputs_of_decode hi,
    List.any_eq_true, overlaps_accessRegion_iff]

/-- A load disturbs a running command where it touches one of its output regions (70_reset_and_hazards.md R306). -/
theorem loadDisturbs_iff {s : State} {i : Instr} (hb : s.status.busy = true) (hi : decode s.cmd = .ok i)
    (addr count : Nat) : loadDisturbs s (accessRegion addr count) = true ↔
      ∃ r ∈ outputRegions i s, ∃ k < count, inRegion r (addr + k) = true := by
  simp only [loadDisturbs, hb, Bool.true_and, runningOutputs_of_decode hi, List.any_eq_true,
    overlaps_accessRegion_iff]

/-! ### An access in plain memory -/

/-- In plain memory a host access is refused exactly when it disturbs a running command (20_memory.md R64,
70_reset_and_hazards.md R306). -/
theorem hostAccess_plain {s : State} {addr count : Nat} (hrange : addr + count ≤ memorySize)
    (hback : backing s.platform [accessRegion addr count] = .memory) (disturbs : Bool) (next : State) :
    hostAccess s (accessRegion addr count) disturbs next =
      if disturbs then .refused .regionTouchedWhileBusy else .next next := by
  have hr : inRange (accessRegion addr count) = true := (inRange_iff _).2 hrange
  simp [hostAccess, hr, hback]

/-- Settles O19: in plain memory an access is refused exactly when it disturbs a running command, which `storeDisturbs`
and `loadDisturbs` say by the bytes it touches. -/
theorem regionsOfARunningCommandAreTheEngines : Obligations.RegionsOfARunningCommandAreTheEngines := by
  intro s addr data hrange hback touches storeDone loadDone
  have hstore : hostAct (.memStore addr data) s = if storeDisturbs s (accessRegion addr data.length) then
      .refused .regionTouchedWhileBusy else .next { s with mem := s.mem.writeBytes addr data } :=
    hostAccess_plain hrange hback _ _
  have hload : hostAct (.memLoad addr data.length) s = if loadDisturbs s (accessRegion addr data.length) then
      .refused .regionTouchedWhileBusy
      else .next { s with reads := .bytes (s.mem.readBytes addr data.length) :: s.reads } :=
    hostAccess_plain hrange hback _ _
  have hstoreDone (h : storeDisturbs s (accessRegion addr data.length) = false) : storeDone := by
    refine ⟨_, by rw [hstore, h]; rfl, rfl, fun hm k hk => ?_, fun b hb => Memory.read_writeBytes_outside _ _ _ hb⟩
    rw [Memory.read_writeBytes_inside hm hrange hk, List.getD_eq_getElem _ _ hk]
  have hloadDone (h : loadDisturbs s (accessRegion addr data.length) = false) : loadDone := by
    rw [h] at hload
    exact hload
  constructor
  · intro hquiet
    exact ⟨hstoreDone (storeDisturbs_eq_false hquiet _), hloadDone (loadDisturbs_eq_false hquiet _)⟩
  · intro hb i hi
    have hstoreIff := storeDisturbs_iff hb hi addr data.length
    have hloadIff := loadDisturbs_iff hb hi addr data.length
    refine ⟨fun h => ?_, fun h => hstoreDone (Bool.eq_false_iff.2 (mt hstoreIff.1 h)), fun h => ?_,
      fun h => hloadDone (Bool.eq_false_iff.2 (mt hloadIff.1 h))⟩
    · rw [hstore, if_pos (hstoreIff.2 h)]
    · rw [hload, if_pos (hloadIff.2 h)]

end Sys2Proof.Machine
end

section
/-! PROOFS. The suffix order as an order of positions (40_suffix_sorter.md R131, R132): a sequence of symbols is a
function of the position, and two suffixes compare at the first index where they differ. Every method of R141 to R145 is
shown to sort by this order. -/

namespace Sys2Proof.Machine

/-! ### Comparing suffixes of a function -/

/-- The suffixes at `i` and `j` agree for `k` symbols. -/
def AgreeFor (f : Nat → Nat) (k i j : Nat) : Prop := ∀ e < k, f (i + e) = f (j + e)

/-- The suffix at `i` is below the suffix at `j`: the first index where they differ decides (40_suffix_sorter.md R131). -/
def SuffixBelow (f : Nat → Nat) (i j : Nat) : Prop := ∃ d, AgreeFor f d i j ∧ f (i + d) < f (j + d)

/-- The first `k` symbols at `i` are below the first `k` symbols at `j` (40_suffix_sorter.md R142). -/
def BelowWithin (f : Nat → Nat) (k i j : Nat) : Prop := ∃ d < k, AgreeFor f d i j ∧ f (i + d) < f (j + d)

/-- `f` is a sequence of `m` symbols above 0, read as 0 past its end. -/
def EndsAt (f : Nat → Nat) (m : Nat) : Prop := (∀ i < m, 0 < f i) ∧ ∀ i, m ≤ i → f i = 0

/-- `sa` lists the positions below `N` in ascending order of their suffixes (40_suffix_sorter.md R132). -/
def SortsSuffixes (f : Nat → Nat) (N : Nat) (sa : List Nat) : Prop :=
  sa.Perm (List.range N) ∧ sa.Pairwise (SuffixBelow f)

section
variable {f : Nat → Nat} {i j k m : Nat}

theorem AgreeFor.symm (h : AgreeFor f k i j) : AgreeFor f k j i := fun e he => (h e he).symm

theorem AgreeFor.trans {l : Nat} (h : AgreeFor f k i j) (h' : AgreeFor f k j l) : AgreeFor f k i l :=
  fun e he => (h e he).trans (h' e he)

theorem AgreeFor.mono {k' : Nat} (h : AgreeFor f k i j) (hk : k' ≤ k) : AgreeFor f k' i j :=
  fun e he => h e (by omega)

theorem AgreeFor.head (h : AgreeFor f k i j) (hk : 0 < k) : f i = f j := h 0 hk

/-- Agreement for `k` symbols and then for `l` more. -/
theorem agreeFor_add {l : Nat} : AgreeFor f (k + l) i j ↔ AgreeFor f k i j ∧ AgreeFor f l (i + k) (j + k) := by
  constructor
  · exact fun h => ⟨h.mono (by omega), fun e he => by simpa only [Nat.add_assoc] using h (k + e) (by omega)⟩
  · rintro ⟨hk, hl⟩ e he
    by_cases hek : e < k
    · exact hk e hek
    · have := hl (e - k) (by omega)
      rwa [Nat.add_assoc, Nat.add_assoc, Nat.add_sub_of_le (by omega)] at this

theorem agreeFor_one : AgreeFor f 1 i j ↔ f i = f j :=
  ⟨fun h => h.head (by omega), fun h e he => by simpa [Nat.lt_one_iff.1 he] using h⟩

theorem agreeFor_succ : AgreeFor f (k + 1) i j ↔ f i = f j ∧ AgreeFor f k (i + 1) (j + 1) := by
  rw [Nat.add_comm, agreeFor_add, agreeFor_one]

theorem BelowWithin.suffixBelow (h : BelowWithin f k i j) : SuffixBelow f i j :=
  let ⟨d, _, hagree, hlt⟩ := h
  ⟨d, hagree, hlt⟩

theorem SuffixBelow.of_lt (h : f i < f j) : SuffixBelow f i j := ⟨0, fun _ he => by omega, h⟩

/-- After symbols that agree, the rest of the suffixes decides. -/
theorem SuffixBelow.of_agreeFor (hk : AgreeFor f k i j) (h : SuffixBelow f (i + k) (j + k)) : SuffixBelow f i j := by
  obtain ⟨d, hagree, hlt⟩ := h
  exact ⟨k + d, agreeFor_add.2 ⟨hk, hagree⟩, by simpa only [Nat.add_assoc] using hlt⟩

theorem SuffixBelow.of_eq (heq : f i = f j) (h : SuffixBelow f (i + 1) (j + 1)) : SuffixBelow f i j :=
  .of_agreeFor (agreeFor_one.2 heq) h

/-- The first symbol decides, or the rest of the suffixes. -/
theorem suffixBelow_iff : SuffixBelow f i j ↔ f i < f j ∨ f i = f j ∧ SuffixBelow f (i + 1) (j + 1) := by
  constructor
  · rintro ⟨d, hagree, hlt⟩
    cases d with
    | zero => exact .inl hlt
    | succ d =>
      obtain ⟨heq, hrest⟩ := agreeFor_succ.1 hagree
      exact .inr ⟨heq, d, hrest, by simpa only [Nat.add_assoc, Nat.add_comm 1] using hlt⟩
  · rintro (h | ⟨heq, h⟩)
    · exact .of_lt h
    · exact .of_eq heq h

theorem suffixBelow_irrefl (f : Nat → Nat) (i : Nat) : ¬ SuffixBelow f i i := fun ⟨_, _, h⟩ => Nat.lt_irrefl _ h

/-- Of two comparisons in a row, the one that is decided first decides their composition. -/
theorem BelowWithin.trans_suffixBelow {l : Nat} (h : BelowWithin f k i j) (h' : SuffixBelow f j l) :
    BelowWithin f k i l := by
  obtain ⟨d, hd, hagree, hlt⟩ := h
  obtain ⟨d', hagree', hlt'⟩ := h'
  obtain hdd | rfl | hdd := Nat.lt_trichotomy d d'
  · exact ⟨d, hd, hagree.trans (hagree'.mono (by omega)), hlt.trans_eq (hagree' d hdd)⟩
  · exact ⟨d, hd, hagree.trans hagree', hlt.trans hlt'⟩
  · exact ⟨d', by omega, (hagree.mono (by omega)).trans hagree', (hagree d' hdd).trans_lt hlt'⟩

theorem BelowWithin.trans {l : Nat} (h : BelowWithin f k i j) (h' : BelowWithin f k j l) : BelowWithin f k i l :=
  h.trans_suffixBelow h'.suffixBelow

theorem SuffixBelow.trans {l : Nat} (h : SuffixBelow f i j) (h' : SuffixBelow f j l) : SuffixBelow f i l := by
  obtain ⟨d, hagree, hlt⟩ := h
  exact (BelowWithin.trans_suffixBelow ⟨d, Nat.lt_succ_self d, hagree, hlt⟩ h').suffixBelow

theorem SuffixBelow.asymm (h : SuffixBelow f i j) : ¬ SuffixBelow f j i := fun h' =>
  suffixBelow_irrefl f i (h.trans h')

/-- Two suffixes differ first at some index, or nowhere. -/
theorem suffixBelow_trichotomy (f : Nat → Nat) (i j : Nat) :
    SuffixBelow f i j ∨ SuffixBelow f j i ∨ ∀ k, AgreeFor f k i j := by
  by_cases h : ∃ d, f (i + d) ≠ f (j + d)
  · classical
    have hagree : AgreeFor f (Nat.find h) i j := fun e he => not_not.1 (Nat.find_min h he)
    obtain hlt | hlt := Nat.lt_or_gt_of_ne (Nat.find_spec h)
    · exact .inl ⟨_, hagree, hlt⟩
    · exact .inr (.inl ⟨_, hagree.symm, hlt⟩)
  · exact .inr (.inr fun k e _ => not_not.1 fun hne => h ⟨e, hne⟩)

/-- Past the end every suffix agrees; so two suffixes of a sequence with an end differ. -/
theorem EndsAt.eq_of_agreeFor (hf : EndsAt f m) (hi : i ≤ m) (hj : j ≤ m) (h : ∀ k, AgreeFor f k i j) : i = j := by
  obtain ⟨hpos, hzero⟩ := hf
  by_contra hne
  obtain hlt | hlt := Nat.lt_or_gt_of_ne hne
  · have := h (m - j + 1) (m - j) (by omega)
    have := hpos (i + (m - j)) (by omega)
    have := hzero (j + (m - j)) (by omega)
    omega
  · have := h (m - i + 1) (m - i) (by omega)
    have := hpos (j + (m - i)) (by omega)
    have := hzero (i + (m - i)) (by omega)
    omega

/-- The suffix order of a sequence with an end is total on its positions (40_suffix_sorter.md R131). -/
theorem EndsAt.total (hf : EndsAt f m) (hi : i ≤ m) (hj : j ≤ m) (hne : i ≠ j) :
    SuffixBelow f i j ∨ SuffixBelow f j i := by
  obtain h | h | h := suffixBelow_trichotomy f i j
  · exact .inl h
  · exact .inr h
  · exact absurd (hf.eq_of_agreeFor hi hj h) hne

/-- The first `k` symbols decide, or agree. -/
theorem SuffixBelow.belowWithin_or (h : SuffixBelow f i j) (k : Nat) : BelowWithin f k i j ∨ AgreeFor f k i j := by
  obtain ⟨d, hagree, hlt⟩ := h
  by_cases hd : d < k
  · exact .inl ⟨d, hd, hagree, hlt⟩
  · exact .inr (hagree.mono (by omega))

theorem belowWithin_trichotomy (f : Nat → Nat) (k i j : Nat) :
    BelowWithin f k i j ∨ BelowWithin f k j i ∨ AgreeFor f k i j := by
  obtain h | h | h := suffixBelow_trichotomy f i j
  · exact (h.belowWithin_or k).imp_right .inr
  · exact .inr ((h.belowWithin_or k).imp_right AgreeFor.symm)
  · exact .inr (.inr (h k))

theorem BelowWithin.not_agreeFor (h : BelowWithin f k i j) : ¬ AgreeFor f k i j := by
  obtain ⟨d, hd, -, hlt⟩ := h
  exact fun h' => Nat.ne_of_lt hlt (h' d hd)

end

end Sys2Proof.Machine
end

section
/-! PROOFS. The suffix array of a text: it exists, it is unique, it is the one the commands use, and its first facts
(40_suffix_sorter.md R130 to R132, R139, R141). -/

namespace Sys2Proof.Machine

/-! ### The model's order as an order of positions -/

/-- The symbols of `T` as numbers above 0, read as 0 past the end. -/
def shiftedKey (T : List Sym) (i : Nat) : Nat := (T.map fun c => symKey c + 1).getD i 0

/-- `key(T[i])`, read as the key of `$` past the end (40_suffix_sorter.md R142). -/
def textKey (T : List Sym) (i : Nat) : Nat := symKey (T.getD i Sym.sentinel)

/-- The keys fill 257 buckets (40_suffix_sorter.md R143). -/
theorem textKey_le (T : List Sym) (i : Nat) : textKey T i ≤ 256 := by
  simp only [textKey, symKey]
  split
  · omega
  · exact BitVec.isLt _

theorem shiftedKey_of_lt {T : List Sym} {i : Nat} (h : i < T.length) : shiftedKey T i = textKey T i + 1 := by
  simp [shiftedKey, textKey, h]

theorem shiftedKey_of_le {T : List Sym} {i : Nat} (h : T.length ≤ i) : shiftedKey T i = 0 := by
  simp [shiftedKey, h]

theorem shiftedKey_endsAt (T : List Sym) : EndsAt (shiftedKey T) T.length :=
  ⟨fun _ h => by simp [shiftedKey_of_lt h], fun _ h => shiftedKey_of_le h⟩

theorem shiftedKey_drop (T : List Sym) (i d : Nat) : shiftedKey (T.drop i) d = shiftedKey T (i + d) := by
  simp only [shiftedKey, List.getD_eq_getElem?_getD, List.map_drop, List.getElem?_drop]

@[simp] theorem shiftedKey_nil (i : Nat) : shiftedKey [] i = 0 := by simp [shiftedKey]

@[simp] theorem shiftedKey_cons_zero (a : Sym) (T : List Sym) : shiftedKey (a :: T) 0 = symKey a + 1 := rfl

@[simp] theorem shiftedKey_cons_succ (a : Sym) (T : List Sym) (i : Nat) :
    shiftedKey (a :: T) (i + 1) = shiftedKey T i := rfl

/-- The lexicographic order of two sequences, by the first index where they differ (00_scope.md R13). -/
theorem symsLt_iff (as bs : List Sym) : symsLt as bs = true ↔
    ∃ d, (∀ e < d, shiftedKey as e = shiftedKey bs e) ∧ shiftedKey as d < shiftedKey bs d := by
  induction as generalizing bs with
  | nil =>
    cases bs with
    | nil => simp [symsLt]
    | cons b bs => simpa [symsLt] using ⟨0, by simp⟩
  | cons a as ih =>
    cases bs with
    | nil => simp [symsLt]
    | cons b bs =>
      simp only [symsLt]
      split
      · rename_i hab
        rw [ih]
        constructor
        · rintro ⟨d, hagree, hlt⟩
          refine ⟨d + 1, fun e he => ?_, hlt⟩
          cases e with
          | zero => simp [hab]
          | succ e => exact hagree e (by omega)
        · rintro ⟨d, hagree, hlt⟩
          cases d with
          | zero => simp [hab] at hlt
          | succ d => exact ⟨d, fun e he => hagree (e + 1) (by omega), hlt⟩
      · rename_i hab
        rw [decide_eq_true_eq]
        constructor
        · exact fun hlt => ⟨0, by simp, by simpa using hlt⟩
        · rintro ⟨d, hagree, hlt⟩
          cases d with
          | zero => simpa using hlt
          | succ d => exact absurd (by simpa using hagree 0 (by omega)) hab

theorem suffixLt_iff (T : List Sym) (i j : Nat) : suffixLt T i j = true ↔ SuffixBelow (shiftedKey T) i j := by
  simp only [suffixLt, symsLt_iff, shiftedKey_drop, SuffixBelow, AgreeFor]

theorem isSuffixArray_iff (T : List Sym) (sa : List Nat) :
    IsSuffixArray T sa ↔ SortsSuffixes (shiftedKey T) T.length sa := by
  simp only [IsSuffixArray, SortsSuffixes, suffixLt_iff]

/-! ### Existence and uniqueness -/

/-- A list in ascending suffix order is the only one of its entries (40_suffix_sorter.md R132). -/
theorem SortsSuffixes.unique {f : Nat → Nat} {N : Nat} {sa sa' : List Nat} (h : SortsSuffixes f N sa)
    (h' : SortsSuffixes f N sa') : sa = sa' :=
  List.Perm.eq_of_pairwise (fun _ _ _ _ hab hba => absurd hba hab.asymm) h.2 h'.2 (h.1.trans h'.1.symm)

/-- Sorting by "not above" is a weak order: suffixes that nothing separates compare alike with every third. -/
theorem naiveSort_pairwise (T : List Sym) :
    (naiveSort T).Pairwise fun i j => ¬ SuffixBelow (shiftedKey T) j i := by
  have htotal : Std.Total fun i j => suffixLt T j i = false := ⟨fun i j => by
    simp only [← Bool.not_eq_true, suffixLt_iff, ← not_and_or]
    exact fun h => h.1.asymm h.2⟩
  have htrans : IsTrans Nat fun i j => suffixLt T j i = false := ⟨fun i j k hij hjk => by
    simp only [← Bool.not_eq_true, suffixLt_iff] at hij hjk ⊢
    intro hki
    obtain h | h | h := suffixBelow_trichotomy (shiftedKey T) i j
    · exact hjk (hki.trans h)
    · exact hij h
    · obtain ⟨d, hagree, hlt⟩ := hki
      exact hjk ⟨d, hagree.trans (h d), hlt.trans_eq (h (d + 1) d (by omega))⟩⟩
  simpa only [naiveSort, ← Bool.not_eq_true, suffixLt_iff] using
    List.pairwise_insertionSort (fun i j => suffixLt T j i = false) (List.range T.length)

/-- The array of the commands is a suffix array, for every sequence of symbols. -/
theorem suffixArray_isSuffixArray (T : List Sym) : IsSuffixArray T (suffixArray T) := by
  have hperm : (naiveSort T).Perm (List.range T.length) := List.perm_insertionSort _ _
  have hnodup : (naiveSort T).Pairwise (· ≠ ·) := hperm.nodup_iff.2 List.nodup_range
  refine (isSuffixArray_iff _ _).2 ⟨hperm, ((naiveSort_pairwise T).and hnodup).imp_of_mem ?_⟩
  rintro i j hi hj ⟨hnot, hne⟩
  have hlt {p : Nat} (hp : p ∈ naiveSort T) : p ≤ T.length := (List.mem_range.1 (hperm.mem_iff.1 hp)).le
  exact ((shiftedKey_endsAt T).total (hlt hi) (hlt hj) hne).resolve_right hnot

theorem IsSuffixArray.eq_suffixArray {T : List Sym} {sa : List Nat} (h : IsSuffixArray T sa) : sa = suffixArray T :=
  ((isSuffixArray_iff _ _).1 h).unique ((isSuffixArray_iff _ _).1 (suffixArray_isSuffixArray T))

/-- Settles O21: the insertion sort by a total order sorts, and a sorted list is unique. -/
theorem suffixArrayExistsAndIsUnique : Obligations.SuffixArrayExistsAndIsUnique := fun text =>
  ⟨suffixArray_isSuffixArray (extendedText text), fun _ h => h.eq_suffixArray⟩

/-! ### The sentinel -/

theorem textKey_extendedText_of_lt {text : List Byte} {i : Nat} (h : i < text.length) :
    textKey (extendedText text) i = text[i].toNat + 1 := by
  simp [textKey, extendedText, List.getElem?_append, h, symKey]

theorem textKey_extendedText_of_le {text : List Byte} {i : Nat} (h : text.length ≤ i) :
    textKey (extendedText text) i = 0 := by
  obtain rfl | h := h.eq_or_lt
  · simp [textKey, extendedText, symKey]
  · rw [textKey, List.getD_eq_default _ _ (by simpa using h), symKey]

/-- The sentinel is the one symbol with key 0 (40_suffix_sorter.md R130), so that reading 0 past the end adds nothing. -/
theorem textKey_endsAt (text : List Byte) : EndsAt (textKey (extendedText text)) text.length :=
  ⟨fun _ h => by simp [textKey_extendedText_of_lt h], fun _ h => textKey_extendedText_of_le h⟩

/-- Two suffixes of a text differ at its one sentinel at the latest (40_suffix_sorter.md R131). -/
theorem suffixBelow_shiftedKey {text : List Byte} {i j : Nat} (hi : i ≤ text.length)
    (h : SuffixBelow (textKey (extendedText text)) i j) : SuffixBelow (shiftedKey (extendedText text)) i j := by
  obtain ⟨hpos, hzero⟩ := textKey_endsAt text
  obtain ⟨d, hagree, hlt⟩ := h
  have hj : j + d < text.length := by
    by_contra hge
    have := hzero (j + d) (by omega)
    omega
  have hi' : i + d ≤ text.length := by
    by_contra hgt
    have hsent := hagree (text.length - i) (by omega)
    have := hzero (i + (text.length - i)) (by omega)
    have := hpos (j + (text.length - i))
    omega
  have hkey {p : Nat} (hp : p ≤ text.length) :
      shiftedKey (extendedText text) p = textKey (extendedText text) p + 1 :=
    shiftedKey_of_lt (by simpa using Nat.lt_succ_of_le hp)
  refine ⟨d, fun e he => ?_, ?_⟩
  · rw [hkey (by omega), hkey (by omega), hagree e he]
  · rw [hkey hi', hkey (by omega)]
    omega

/-- A list sorted by the keys of a text is its suffix array. -/
theorem SortsSuffixes.eq_suffixArray {text : List Byte} {sa : List Nat}
    (h : SortsSuffixes (textKey (extendedText text)) (text.length + 1) sa) : sa = suffixArray (extendedText text) := by
  obtain ⟨hperm, hsorted⟩ := h
  refine IsSuffixArray.eq_suffixArray ((isSuffixArray_iff _ _).2 ⟨by simpa using hperm, ?_⟩)
  refine hsorted.imp_of_mem fun hi _ hij => suffixBelow_shiftedKey ?_ hij
  exact Nat.le_of_lt_succ (List.mem_range.1 (hperm.mem_iff.1 hi))

/-! ### First facts -/

/-- The suffix of the sentinel is below every other (40_suffix_sorter.md R139). -/
theorem head_suffixArray (text : List Byte) : (suffixArray (extendedText text)).head? = some text.length := by
  obtain ⟨hperm, hsorted⟩ := (isSuffixArray_iff _ _).1 (suffixArray_isSuffixArray (extendedText text))
  have hmem : text.length ∈ suffixArray (extendedText text) := hperm.mem_iff.2 (by simp)
  cases hsa : suffixArray (extendedText text) with
  | nil => simp [hsa] at hmem
  | cons p ps =>
    rw [hsa] at hmem hsorted hperm
    obtain ⟨hbelow, -⟩ := List.pairwise_cons.1 hsorted
    have hp : p ≤ text.length := by simpa [Nat.lt_succ_iff] using hperm.mem_iff.1 (List.mem_cons_self)
    obtain heq | hmem := List.mem_cons.1 hmem
    · rw [heq, List.head?_cons]
    · by_contra hne
      have hlt : p < text.length := lt_of_le_of_ne hp fun h => hne (by rw [h, List.head?_cons])
      have hkeys : textKey (extendedText text) text.length < textKey (extendedText text) p := by
        rw [textKey_extendedText_of_le le_rfl, textKey_extendedText_of_lt hlt]
        omega
      exact (hbelow _ hmem).asymm (suffixBelow_shiftedKey le_rfl (.of_lt hkeys))

/-- Of two runs of one byte the shorter is below (40_suffix_sorter.md R139). -/
theorem suffixBelow_replicate {k : Nat} (c : Byte) {i j : Nat} (hji : j < i) (hi : i ≤ k) :
    SuffixBelow (textKey (extendedText (List.replicate k c))) i j := by
  have hkey {p : Nat} (hp : p < k) : textKey (extendedText (List.replicate k c)) p = c.toNat + 1 := by
    rw [textKey_extendedText_of_lt (by simpa using hp), List.getElem_replicate]
  have hend : textKey (extendedText (List.replicate k c)) k = 0 := textKey_extendedText_of_le (by simp)
  refine ⟨k - i, fun e he => ?_, ?_⟩
  · rw [hkey (by omega), hkey (by omega)]
  · rw [Nat.add_sub_of_le hi, hend, hkey (by omega)]
    omega

/-- Settles O25: the sentinel comes first, and the positions of a run of one byte in descending order are sorted. -/
theorem suffixArrayFacts : Obligations.SuffixArrayFacts := by
  refine ⟨head_suffixArray, fun k c => (SortsSuffixes.eq_suffixArray ⟨?_, ?_⟩).symm⟩
  · simp
  · rw [List.pairwise_reverse]
    exact List.pairwise_lt_range.imp_of_mem fun _ hj hlt =>
      suffixBelow_replicate c hlt (Nat.le_of_lt_succ (List.mem_range.1 hj))

end Sys2Proof.Machine
end

section
/-! PROOFS. Counting sort and ranks along a sorted list (40_suffix_sorter.md R142), which the three faster methods share:
the sort is stable, and the ranks of a sorted list order its entries as the comparison that sorted them. -/

namespace Sys2Proof.Machine

/-! ### Counting sort -/

theorem flatMap_range_filter_perm (list : List Nat) (key : Nat → Nat) (n : Nat) :
    ((List.range n).flatMap fun c => list.filter fun i => key i = c).Perm (list.filter fun i => key i < n) := by
  induction n with
  | zero => simp
  | succ n ih =>
    rw [List.range_succ, List.flatMap_append, List.flatMap_singleton]
    refine (ih.append_right _).trans ?_
    have hlt : list.filter (fun i => decide (key i < n)) =
        (list.filter fun i => decide (key i < n + 1)).filter fun i => decide (key i < n) := by
      rw [List.filter_filter]
      exact List.filter_congr fun i _ => by simpa using fun h : key i < n => h.le
    have heq : list.filter (fun i => decide (key i = n)) =
        (list.filter fun i => decide (key i < n + 1)).filter fun i => !decide (key i < n) := by
      rw [List.filter_filter]
      exact List.filter_congr fun i _ => by rw [Bool.eq_iff_iff]; simp; omega
    rw [hlt, heq]
    exact List.filter_append_perm _ _

/-- Counting sort loses no element whose key has a bucket (40_suffix_sorter.md R143). -/
theorem countingSort_perm {list : List Nat} {key : Nat → Nat} {K : Nat} (h : ∀ i ∈ list, key i ≤ K) :
    (countingSort list key K).Perm list := by
  refine (flatMap_range_filter_perm list key (K + 1)).trans (List.Perm.of_eq ?_)
  exact List.filter_eq_self.2 fun i hi => by simpa [Nat.lt_succ_iff] using h i hi

/-- Counting sort is stable: it sorts by the key, and equal keys stay in the order they had (40_suffix_sorter.md R142). -/
theorem countingSort_pairwise {list : List Nat} {R : Nat → Nat → Prop} (h : list.Pairwise R) (key : Nat → Nat) (K : Nat) :
    (countingSort list key K).Pairwise fun i j => key i < key j ∨ key i = key j ∧ R i j := by
  refine List.pairwise_flatMap.2 ⟨fun c _ => ?_, List.pairwise_lt_range.imp fun hcd i hi j hj => ?_⟩
  · refine (h.filter _).imp_of_mem fun hi hj hij => .inr ⟨?_, hij⟩
    simp only [List.mem_filter, decide_eq_true_eq] at hi hj
    exact hi.2.trans hj.2.symm
  · simp only [List.mem_filter, decide_eq_true_eq] at hi hj
    exact .inl (by rw [hi.2, hj.2]; exact hcd)

/-! ### Ranks along a sorted list -/

/-- Position and rank along a sorted list, from rank `r` on: what `rankTable`, `lmsNames` and `skewSort` make of it. -/
def ranked (same : Nat → Nat → Bool) (r : Nat) : List Nat → List (Nat × Nat)
  | [] => []
  | p :: ps => (p, r) :: rankPairs same p r ps

/-- The rank that a list gives a position, 0 if it has none (40_suffix_sorter.md R142, R144, R145). -/
def rankOf (same : Nat → Nat → Bool) (r : Nat) (l : List Nat) (i : Nat) : Nat := (List.lookup i (ranked same r l)).getD 0

theorem ranked_cons_cons (same : Nat → Nat → Bool) (r p q : Nat) (l : List Nat) :
    ranked same r (p :: q :: l) = (p, r) :: ranked same (if same p q then r else r + 1) (q :: l) := rfl

@[simp] theorem map_fst_ranked (same : Nat → Nat → Bool) (r : Nat) (l : List Nat) : (ranked same r l).map Prod.fst = l := by
  induction l generalizing r with
  | nil => rfl
  | cons p l ih =>
    cases l with
    | nil => rfl
    | cons q l => rw [ranked_cons_cons, List.map_cons, ih]

/-- A table whose positions differ is read back by its lookups. -/
theorem eq_map_lookup {pairs : List (Nat × Nat)} (h : (pairs.map Prod.fst).Nodup) :
    pairs = (pairs.map Prod.fst).map fun i => (i, (List.lookup i pairs).getD 0) := by
  induction pairs with
  | nil => rfl
  | cons x pairs ih =>
    obtain ⟨p, v⟩ := x
    obtain ⟨hp, h⟩ := List.nodup_cons.1 h
    simp only [List.map_cons, List.lookup_cons, beq_self_eq_true, Option.getD_some, List.cons.injEq, true_and]
    conv_lhs => rw [ih h]
    refine List.map_congr_left fun i hi => ?_
    have hne : (i == p) = false := by simpa using fun heq : i = p => hp (heq ▸ hi)
    rw [hne]

theorem ranked_eq_map {l : List Nat} (hl : l.Nodup) (same : Nat → Nat → Bool) (r : Nat) :
    ranked same r l = l.map fun i => (i, rankOf same r l i) := by
  have h := eq_map_lookup (pairs := ranked same r l) (by simpa using hl)
  rwa [map_fst_ranked] at h

/-- A comparison `lt` that leaves some positions undecided, namely those that `eqv` holds of. -/
structure RankOrder (eqv lt : Nat → Nat → Prop) : Prop where
  refl : ∀ a, eqv a a
  symm : ∀ {a b}, eqv a b → eqv b a
  trans : ∀ {a b c}, eqv a b → eqv b c → eqv a c
  lt_trans : ∀ {a b c}, lt a b → lt b c → lt a c
  not_eqv : ∀ {a b}, lt a b → ¬ eqv a b

/-- Comparing `k` symbols leaves those undecided that agree for `k` symbols. -/
theorem rankOrder_within (f : Nat → Nat) (k : Nat) : RankOrder (AgreeFor f k) (BelowWithin f k) :=
  ⟨fun _ _ _ => rfl, .symm, .trans, .trans, BelowWithin.not_agreeFor⟩

/-- Ranks that order two positions as the comparison does. -/
def RanksDecide (eqv lt : Nat → Nat → Prop) (rank : Nat → Nat) (i j : Nat) : Prop :=
  (rank i < rank j ↔ lt i j) ∧ (rank i = rank j ↔ eqv i j) ∧ (rank j < rank i ↔ lt j i)

theorem RanksDecide.symm {eqv lt : Nat → Nat → Prop} (ho : RankOrder eqv lt) {rank : Nat → Nat} {i j : Nat}
    (h : RanksDecide eqv lt rank i j) : RanksDecide eqv lt rank j i :=
  let ⟨hlt, heq, hgt⟩ := h
  ⟨hgt, (eq_comm.trans heq).trans ⟨ho.symm, ho.symm⟩, hlt⟩

section
variable {eqv lt : Nat → Nat → Prop} {same : Nat → Nat → Bool} {l : List Nat}

/-- A rank lies between the first one and the number of entries. -/
theorem ranked_bounds {r : Nat} {x : Nat × Nat} (hx : x ∈ ranked same r l) : r ≤ x.2 ∧ x.2 < r + l.length := by
  induction l generalizing r with
  | nil => simp [ranked] at hx
  | cons p l ih =>
    cases l with
    | nil => simp_all [ranked, rankPairs]
    | cons q l =>
      obtain rfl | hx := List.mem_cons.1 (ranked_cons_cons same r p q l ▸ hx)
      · simp
      · have := ih hx
        simp only [List.length_cons] at this ⊢
        split at this <;> omega

/-- In a sorted list an entry has the first rank exactly when nothing decides it from the first entry. -/
theorem ranked_head (ho : RankOrder eqv lt) {r p : Nat} (hl : (p :: l).Pairwise fun a b => lt a b ∨ eqv a b)
    (hsame : ∀ a ∈ p :: l, ∀ b ∈ p :: l, same a b = true ↔ eqv a b) {x : Nat × Nat} (hx : x ∈ ranked same r (p :: l)) :
    x.2 = r ↔ eqv p x.1 := by
  induction l generalizing r p with
  | nil => simp_all [ranked, rankPairs, ho.refl]
  | cons q l ih =>
    obtain rfl | hx := List.mem_cons.1 (ranked_cons_cons same r p q l ▸ hx)
    · simp [ho.refl]
    · obtain ⟨hp, hql⟩ := List.pairwise_cons.1 hl
      have ih := ih hql (fun a ha b hb => hsame a (by simp [ha]) b (by simp [hb])) hx
      have hpq : same p q = true ↔ eqv p q := hsame p (by simp) q (by simp)
      split at ih
      · rename_i h
        exact ih.trans ⟨ho.trans (hpq.1 h), ho.trans (ho.symm (hpq.1 h))⟩
      · rename_i h
        have hlt : lt p q := (hp q (by simp)).resolve_right (mt hpq.2 h)
        have hbound := (ranked_bounds hx).1
        rw [if_neg h] at hbound
        refine iff_of_false (by omega) fun hpx => ?_
        have hxl : x.1 ∈ q :: l := by simpa using List.mem_map_of_mem (f := Prod.fst) hx
        obtain heq | hxl := List.mem_cons.1 hxl
        · exact ho.not_eqv hlt (heq ▸ hpx)
        · obtain hqx | hqx := (List.pairwise_cons.1 hql).1 _ hxl
          · exact ho.not_eqv (ho.lt_trans hlt hqx) hpx
          · exact ho.not_eqv hlt (ho.trans hpx (ho.symm hqx))

/-- Along a sorted list the ranks never fall, and stay where nothing decides. -/
theorem ranked_pairwise (ho : RankOrder eqv lt) {r : Nat} (hl : l.Pairwise fun a b => lt a b ∨ eqv a b)
    (hsame : ∀ a ∈ l, ∀ b ∈ l, same a b = true ↔ eqv a b) :
    (ranked same r l).Pairwise fun x y => x.2 ≤ y.2 ∧ (y.2 = x.2 ↔ eqv x.1 y.1) := by
  induction l generalizing r with
  | nil => exact List.Pairwise.nil
  | cons p l ih =>
    cases l with
    | nil => simp [ranked, rankPairs]
    | cons q l =>
      have ih := ih (r := if same p q then r else r + 1) (List.pairwise_cons.1 hl).2
        fun a ha b hb => hsame a (by simp [ha]) b (by simp [hb])
      rw [ranked_cons_cons]
      refine List.pairwise_cons.2 ⟨fun x hx => ?_, ih⟩
      have hx' : x ∈ ranked same r (p :: q :: l) := ranked_cons_cons same r p q l ▸ List.mem_cons_of_mem _ hx
      exact ⟨(ranked_bounds hx').1, ranked_head ho hl hsame hx'⟩

/-- A last rank equal to the number of entries means that the comparison decided every two of them. -/
theorem pairwise_of_ranked_last (ho : RankOrder eqv lt) {r : Nat} (hl : l.Pairwise fun a b => lt a b ∨ eqv a b)
    (hsame : ∀ a ∈ l, ∀ b ∈ l, same a b = true ↔ eqv a b) {x : Nat × Nat} (hx : x ∈ ranked same r l)
    (hlast : x.2 + 1 = r + l.length) : l.Pairwise lt := by
  induction l generalizing r with
  | nil => exact List.Pairwise.nil
  | cons p l ih =>
    cases l with
    | nil => exact List.pairwise_singleton _ _
    | cons q l =>
      obtain ⟨hp, hql⟩ := List.pairwise_cons.1 hl
      simp only [List.length_cons] at hlast
      obtain rfl | hx := List.mem_cons.1 (ranked_cons_cons same r p q l ▸ hx)
      · omega
      · have hbound := (ranked_bounds hx).2
        simp only [List.length_cons] at hbound
        have hpq : ¬ same p q = true := fun h => by rw [if_pos h] at hbound; omega
        rw [if_neg hpq] at hx
        have ih := ih hql (fun a ha b hb => hsame a (by simp [ha]) b (by simp [hb])) hx
          (by simp only [List.length_cons]; omega)
        have hlt : lt p q := (hp q (by simp)).resolve_right (mt (hsame p (by simp) q (by simp)).2 hpq)
        refine List.pairwise_cons.2 ⟨fun a ha => ?_, ih⟩
        obtain rfl | ha := List.mem_cons.1 ha
        · exact hlt
        · exact ho.lt_trans hlt ((List.pairwise_cons.1 ih).1 a ha)

theorem mem_ranked_rankOf (hnodup : l.Nodup) {i : Nat} (hi : i ∈ l) (same : Nat → Nat → Bool) (r : Nat) :
    (i, rankOf same r l i) ∈ ranked same r l := by
  rw [ranked_eq_map hnodup]
  exact List.mem_map_of_mem (f := fun i => (i, rankOf same r l i)) hi

theorem rankOf_bounds (hnodup : l.Nodup) {i : Nat} (hi : i ∈ l) (same : Nat → Nat → Bool) (r : Nat) :
    r ≤ rankOf same r l i ∧ rankOf same r l i < r + l.length :=
  ranked_bounds (mem_ranked_rankOf hnodup hi same r)

/-- A position that the list does not have gets no rank. -/
theorem rankOf_of_notMem {i : Nat} (hi : i ∉ l) (same : Nat → Nat → Bool) (r : Nat) : rankOf same r l i = 0 := by
  have : List.lookup i (ranked same r l) = none := by
    rw [List.lookup_eq_none_iff]
    intro x hx
    have hmem : x.1 ∈ l := by simpa using List.mem_map_of_mem (f := Prod.fst) hx
    simpa using fun h : i = x.1 => hi (h ▸ hmem)
  rw [rankOf, this, Option.getD_none]

/-- The ranks of a sorted list order its entries as the comparison does (40_suffix_sorter.md R142). -/
theorem rankOf_decides (ho : RankOrder eqv lt) (hnodup : l.Nodup) {r : Nat} (hl : l.Pairwise fun a b => lt a b ∨ eqv a b)
    (hsame : ∀ a ∈ l, ∀ b ∈ l, same a b = true ↔ eqv a b) {i j : Nat} (hi : i ∈ l) (hj : j ∈ l) :
    RanksDecide eqv lt (rankOf same r l) i j := by
  have hirrefl {a : Nat} : ¬ lt a a := fun h => ho.not_eqv h (ho.refl a)
  obtain rfl | hij := eq_or_ne i j
  · exact ⟨by simp [hirrefl], by simp [ho.refl], by simp [hirrefl]⟩
  have hranks := ranked_pairwise ho (r := r) hl hsame
  rw [ranked_eq_map hnodup, List.pairwise_map] at hranks
  have hall : l.Pairwise (RanksDecide eqv lt (rankOf same r l)) := by
    refine (hl.and hranks).imp ?_
    rintro a b ⟨hab, hle, heq⟩
    have hba : ¬ lt b a := fun h => hab.elim (fun h' => hirrefl (ho.lt_trans h h')) fun h' => ho.not_eqv h (ho.symm h')
    refine ⟨⟨fun h => hab.resolve_right fun h' => Nat.ne_of_gt h (heq.2 h'), fun h => ?_⟩, eq_comm.trans heq,
      iff_of_false (by omega) hba⟩
    exact lt_of_le_of_ne hle fun h' => ho.not_eqv h (heq.1 h'.symm)
  have hsymm : Std.Symm (RanksDecide eqv lt (rankOf same r l)) := ⟨fun _ _ => RanksDecide.symm ho⟩
  exact hall.forall hi hj hij

/-- As many ranks as entries: the comparison decided every two of them. -/
theorem pairwise_of_rankOf_last (ho : RankOrder eqv lt) (hnodup : l.Nodup) {r : Nat}
    (hl : l.Pairwise fun a b => lt a b ∨ eqv a b) (hsame : ∀ a ∈ l, ∀ b ∈ l, same a b = true ↔ eqv a b) {i : Nat}
    (hi : i ∈ l) (hlast : rankOf same r l i + 1 = r + l.length) : l.Pairwise lt :=
  pairwise_of_ranked_last ho hl hsame (mem_ranked_rankOf hnodup hi same r) hlast

/-- As many ranks as entries: no two entries have one rank. -/
theorem nodup_map_rankOf (ho : RankOrder eqv lt) (hnodup : l.Nodup) {r : Nat} (hl : l.Pairwise fun a b => lt a b ∨ eqv a b)
    (hsame : ∀ a ∈ l, ∀ b ∈ l, same a b = true ↔ eqv a b) {i : Nat} (hi : i ∈ l)
    (hlast : rankOf same r l i + 1 = r + l.length) : (l.map (rankOf same r l)).Nodup := by
  have hstrict := pairwise_of_rankOf_last ho hnodup hl hsame hi hlast
  refine List.pairwise_map.2 (hstrict.imp_of_mem fun ha hb hab => Nat.ne_of_lt ?_)
  exact (rankOf_decides ho hnodup hl hsame ha hb).1.2 hab

end

theorem getD_rankTable {N : Nat} {sa : List Nat} (hsa : sa.Perm (List.range N)) (same : Nat → Nat → Bool) (i : Nat) :
    (rankTable N sa same).getD i 0 = rankOf same 1 sa i := by
  by_cases hi : i < N
  · cases sa with
    | nil => simpa using (hsa.mem_iff.2 (List.mem_range.2 hi))
    | cons p ps => simp [rankTable, rankOf, ranked, hi]
  · rw [rankOf_of_notMem (mt hsa.mem_iff.1 (by simpa using hi))]
    cases sa with
    | nil => rfl
    | cons p ps => simp [rankTable, hi]

end Sys2Proof.Machine
end

section
/-! PROOFS. Method PrefixDoubling sorts the suffixes (40_suffix_sorter.md R142, R143): after the round with window `k` the
ranks order the positions by their first `2k` symbols. -/

namespace Sys2Proof.Machine

/-! ### Comparing twice as many symbols -/

/-- `r` orders the positions by their first `k` symbols (40_suffix_sorter.md R142). -/
def Ranks (f : Nat → Nat) (k : Nat) (r : Nat → Nat) : Prop := ∀ i j, r i < r j ↔ BelowWithin f k i j

section
variable {f r : Nat → Nat} {k l i j : Nat}

/-- The first `k` symbols decide, or the `l` after them. -/
theorem belowWithin_add : BelowWithin f (k + l) i j ↔
    BelowWithin f k i j ∨ AgreeFor f k i j ∧ BelowWithin f l (i + k) (j + k) := by
  constructor
  · rintro ⟨d, hd, hagree, hlt⟩
    by_cases hdk : d < k
    · exact .inl ⟨d, hdk, hagree, hlt⟩
    · obtain ⟨d, rfl⟩ := Nat.exists_eq_add_of_le (Nat.le_of_not_lt hdk)
      obtain ⟨hk, hl⟩ := agreeFor_add.1 hagree
      exact .inr ⟨hk, d, by omega, hl, by simpa only [Nat.add_assoc] using hlt⟩
  · rintro (⟨d, hd, hagree, hlt⟩ | ⟨hk, d, hd, hagree, hlt⟩)
    · exact ⟨d, by omega, hagree, hlt⟩
    · exact ⟨k + d, by omega, agreeFor_add.2 ⟨hk, hagree⟩, by simpa only [Nat.add_assoc] using hlt⟩

theorem belowWithin_one : BelowWithin f 1 i j ↔ f i < f j := by
  constructor
  · rintro ⟨d, hd, -, hlt⟩
    obtain rfl : d = 0 := by omega
    exact hlt
  · exact fun h => ⟨0, by omega, fun _ he => by omega, h⟩

theorem Ranks.eq_iff (h : Ranks f k r) : r i = r j ↔ AgreeFor f k i j := by
  have hij := h i j
  have hji := h j i
  obtain hlt | hgt | hagree := belowWithin_trichotomy f k i j
  · exact iff_of_false (Nat.ne_of_lt (hij.2 hlt)) hlt.not_agreeFor
  · exact iff_of_false (Nat.ne_of_gt (hji.2 hgt)) fun h => hgt.not_agreeFor h.symm
  · refine iff_of_true (Nat.le_antisymm ?_ ?_) hagree
    · exact Nat.le_of_not_lt fun hlt => (hji.1 hlt).not_agreeFor hagree.symm
    · exact Nat.le_of_not_lt fun hlt => (hij.1 hlt).not_agreeFor hagree

/-- Two ranks by `k` symbols, `k` apart, decide `2k` symbols (40_suffix_sorter.md R142). -/
theorem Ranks.below_double_iff (h : Ranks f k r) :
    r i < r j ∨ r i = r j ∧ r (i + k) < r (j + k) ↔ BelowWithin f (2 * k) i j := by
  rw [Nat.two_mul, belowWithin_add, h i j, h.eq_iff, h (i + k) (j + k)]

theorem Ranks.agree_double_iff (h : Ranks f k r) :
    r i = r j ∧ r (i + k) = r (j + k) ↔ AgreeFor f (2 * k) i j := by
  rw [Nat.two_mul, agreeFor_add, h.eq_iff, h.eq_iff]

end

/-! ### The rounds -/

/-- What holds before each round with window `k` (40_suffix_sorter.md R142): the positions are sorted by their first `k`
symbols, the ranks order them so, and a last rank of `N` means that no two of them agree. -/
structure Doubled (f : Nat → Nat) (N k : Nat) (sa rank : List Nat) : Prop where
  perm : sa.Perm (List.range N)
  sorted : sa.Pairwise fun i j => BelowWithin f k i j ∨ AgreeFor f k i j
  ranks : Ranks f k fun i => rank.getD i 0
  rank_le : ∀ i, rank.getD i 0 ≤ N
  decided : rank.getD (sa.getD (N - 1) 0) 0 = N → sa.Pairwise (BelowWithin f k)

section
variable {f : Nat → Nat} {N k : Nat} {sa : List Nat}

/-- Sorted by `k` symbols and ranked along the list, the positions are as a round needs them. -/
theorem doubled_rankTable (hf : EndsAt f N) (hk : 0 < k) (hperm : sa.Perm (List.range N))
    (hsorted : sa.Pairwise fun i j => BelowWithin f k i j ∨ AgreeFor f k i j) {same : Nat → Nat → Bool}
    (hsame : ∀ a < N, ∀ b < N, same a b = true ↔ AgreeFor f k a b) : Doubled f N k sa (rankTable N sa same) := by
  obtain ⟨hpos, hzero⟩ := hf
  have hmem {i : Nat} : i ∈ sa ↔ i < N := hperm.mem_iff.trans List.mem_range
  have hnodup : sa.Nodup := hperm.nodup_iff.2 List.nodup_range
  have hlen : sa.length = N := by simpa using hperm.length_eq
  have hsame' : ∀ a ∈ sa, ∀ b ∈ sa, same a b = true ↔ AgreeFor f k a b :=
    fun a ha b hb => hsame a (hmem.1 ha) b (hmem.1 hb)
  have hout {i : Nat} (hi : ¬ i < N) : rankOf same 1 sa i = 0 := rankOf_of_notMem (mt hmem.1 hi) same 1
  have hin {i : Nat} (hi : i < N) := rankOf_bounds hnodup (hmem.2 hi) same 1
  have horder := rankOrder_within f k
  refine ⟨hperm, hsorted, fun i j => ?_, fun i => ?_, fun hlast => ?_⟩
  · simp only [getD_rankTable hperm]
    by_cases hj : j < N
    · by_cases hi : i < N
      · exact (rankOf_decides horder hnodup hsorted hsame' (hmem.2 hi) (hmem.2 hj)).1
      · rw [hout hi]
        have := hzero i (by omega)
        have := hpos j hj
        exact iff_of_true (hin hj).1 ⟨0, hk, fun _ he => by omega, by simpa only [Nat.add_zero] using by omega⟩
    · rw [hout hj]
      refine iff_of_false (by omega) fun ⟨d, _, _, hlt⟩ => ?_
      have := hzero (j + d) (by omega)
      omega
  · rw [getD_rankTable hperm]
    by_cases hi : i < N
    · have := (hin hi).2
      omega
    · rw [hout hi]
      omega
  · rw [getD_rankTable hperm] at hlast
    obtain hN | hN := Nat.eq_zero_or_pos N
    · rw [List.eq_nil_of_length_eq_zero (hlen.trans hN)]
      exact List.Pairwise.nil
    · have hi : sa.getD (N - 1) 0 ∈ sa := by
        rw [List.getD_eq_getElem _ _ (by omega)]
        exact List.getElem_mem _
      exact pairwise_of_rankOf_last (r := 1) horder hnodup hsorted hsame' hi (by omega)

/-- The first sort, on symbols, is a round with window 1 (40_suffix_sorter.md R142, R143). -/
theorem doubled_init (hf : EndsAt f N) {key : Nat → Nat} {K : Nat} (hkey : ∀ i < N, key i ≤ K)
    (hlt : ∀ i < N, ∀ j < N, key i < key j ↔ f i < f j) :
    Doubled f N 1 (countingSort (List.range N) key K)
      (rankTable N (countingSort (List.range N) key K) fun a b => key a = key b) := by
  have hperm := countingSort_perm (list := List.range N) (K := K) fun i hi => hkey i (List.mem_range.1 hi)
  have heq {i j : Nat} (hi : i < N) (hj : j < N) : key i = key j ↔ f i = f j := by
    have := hlt i hi j hj
    have := hlt j hj i hi
    omega
  refine doubled_rankTable hf Nat.one_pos hperm ?_ fun a ha b hb => ?_
  · refine (countingSort_pairwise (List.pairwise_lt_range (n := N)) key K).imp_of_mem fun hi hj hij => ?_
    have hi := List.mem_range.1 (hperm.mem_iff.1 hi)
    have hj := List.mem_range.1 (hperm.mem_iff.1 hj)
    rw [belowWithin_one, agreeFor_one, ← hlt _ hi _ hj, ← heq hi hj]
    exact hij.imp_right And.left
  · rw [decide_eq_true_eq, agreeFor_one, heq ha hb]

/-- A round doubles the window: two stable passes sort by the pair of ranks (40_suffix_sorter.md R142). -/
theorem Doubled.round {rank : List Nat} (hf : EndsAt f N) (hk : 0 < k) (h : Doubled f N k sa rank) :
    let key1 := fun i => rank.getD i 0
    let key2 := fun i => if i + k < N then rank.getD (i + k) 0 else 0
    let sa' := countingSort (countingSort sa key2 N) key1 N
    Doubled f N (2 * k) sa' (rankTable N sa' fun a b => key1 a = key1 b && key2 a = key2 b) := by
  intro key1 key2 sa'
  have hkey2 (i : Nat) : key2 i = rank.getD (i + k) 0 := by
    by_cases hi : i + k < N
    · exact if_pos hi
    · have hend : AgreeFor f k (i + k) N := fun e _ => by rw [hf.2 _ (by omega), hf.2 _ (by omega)]
      have hzero : rank.getD N 0 = 0 := by
        by_contra hne
        have hout : rank.getD rank.length 0 = 0 := List.getD_eq_default _ _ le_rfl
        obtain ⟨d, -, -, hd⟩ := (h.ranks rank.length N).1 (by simpa only [hout] using Nat.pos_of_ne_zero hne)
        have := hf.2 (N + d) (by omega)
        omega
      rw [show key2 i = 0 from if_neg hi, h.ranks.eq_iff.2 hend, hzero]
  have hperm2 : (countingSort sa key2 N).Perm sa := countingSort_perm fun i _ => hkey2 i ▸ h.rank_le _
  have hperm1 : sa'.Perm (countingSort sa key2 N) := countingSort_perm fun i _ => h.rank_le i
  refine doubled_rankTable hf (by omega) (hperm1.trans (hperm2.trans h.perm)) ?_ fun a _ b _ => ?_
  · refine (countingSort_pairwise (countingSort_pairwise h.sorted key2 N) key1 N).imp fun {i j} hij => ?_
    rw [← h.ranks.below_double_iff, ← h.ranks.agree_double_iff]
    simp only [hkey2] at hij
    tauto
  · rw [← h.ranks.agree_double_iff, Bool.and_eq_true, decide_eq_true_eq, decide_eq_true_eq, hkey2, hkey2]

/-- A window that reaches past the end decides every two positions. -/
theorem Doubled.sorts {rank : List Nat} (hf : EndsAt f N) (h : Doubled f N k sa rank) (hk : N ≤ k) :
    SortsSuffixes f N sa := by
  have hnodup : sa.Pairwise (· ≠ ·) := h.perm.nodup_iff.2 List.nodup_range
  refine ⟨h.perm, (h.sorted.and hnodup).imp_of_mem ?_⟩
  rintro i j hi hj ⟨hbelow | hagree, hne⟩
  · exact hbelow.suffixBelow
  · have hlt {p : Nat} (hp : p ∈ sa) : p ≤ N := (List.mem_range.1 (h.perm.mem_iff.1 hp)).le
    refine absurd (hf.eq_of_agreeFor (hlt hi) (hlt hj) fun l e _ => ?_) hne
    by_cases he : e < k
    · exact hagree e he
    · rw [hf.2 _ (by omega), hf.2 _ (by omega)]

/-- The rounds sort, by the early exit or by a window that has grown past the end (40_suffix_sorter.md R142). -/
theorem doublingRounds_sorts (hf : EndsAt f N) {fuel : Nat} {rank : List Nat} (hk : 0 < k)
    (h : Doubled f N k sa rank) (hfuel : N ≤ k * 2 ^ fuel) : SortsSuffixes f N (doublingRounds N fuel k sa rank) := by
  induction fuel generalizing k sa rank with
  | zero => exact h.sorts hf (by simpa using hfuel)
  | succ fuel ih =>
    rw [doublingRounds]
    split
    · rename_i hlast
      exact ⟨h.perm, (h.decided hlast).imp BelowWithin.suffixBelow⟩
    · exact ih (by omega) (h.round hf hk) (by rwa [Nat.mul_comm 2, Nat.mul_assoc, ← Nat.pow_succ'])

end

/-- PrefixDoubling sorts the suffixes of every sequence of symbols. -/
theorem prefixDoublingSort_sorts (T : List Sym) :
    SortsSuffixes (shiftedKey T) T.length (prefixDoublingSort T) := by
  have hinit : Doubled (shiftedKey T) T.length 1 _ _ :=
    doubled_init (shiftedKey_endsAt T) (key := textKey T) (fun i _ => textKey_le T i) fun i hi j hj => by
      rw [shiftedKey_of_lt hi, shiftedKey_of_lt hj, Nat.add_lt_add_iff_right]
  refine doublingRounds_sorts (shiftedKey_endsAt T) Nat.one_pos hinit ?_
  have := Nat.lt_two_pow_self (n := T.length + 1)
  omega

/-- Settles O22: `doublingRounds_sorts` on the keys of the text. -/
theorem prefixDoublingComputesTheSuffixArray : Obligations.PrefixDoublingComputesTheSuffixArray := fun text =>
  IsSuffixArray.eq_suffixArray ((isSuffixArray_iff _ _).2 (prefixDoublingSort_sorts (extendedText text)))

end Sys2Proof.Machine
end

section
/-! PROOFS. Sequences of numbers, and the array of a sequence whose symbols all differ: the base of the recursions of
SA-IS and Skew/DC3 (40_suffix_sorter.md R144, R145). -/

namespace Sys2Proof.Machine

/-- The symbol of a sequence of numbers at a position, 0 past its end (40_suffix_sorter.md R145). -/
def symbolAt (s : List Nat) (i : Nat) : Nat := s.getD i 0

theorem symbolAt_of_lt {s : List Nat} {i : Nat} (h : i < s.length) : symbolAt s i = s[i] := List.getD_eq_getElem _ _ h

theorem symbolAt_of_le {s : List Nat} {i : Nat} (h : s.length ≤ i) : symbolAt s i = 0 := List.getD_eq_default _ _ h

theorem symbolAt_map_range (g : Nat → Nat) {N i : Nat} (h : i < N) : symbolAt ((List.range N).map g) i = g i := by
  simp [symbolAt, h]

theorem symbolAt_endsAt {s : List Nat} (h : ∀ c ∈ s, 1 ≤ c) : EndsAt (symbolAt s) s.length :=
  ⟨fun _ hi => symbolAt_of_lt hi ▸ h _ (List.getElem_mem hi), fun _ hi => symbolAt_of_le hi⟩

theorem symbolAt_le {s : List Nat} {K : Nat} (h : ∀ c ∈ s, c ≤ K) (i : Nat) : symbolAt s i ≤ K := by
  by_cases hi : i < s.length
  · exact symbolAt_of_lt hi ▸ h _ (List.getElem_mem hi)
  · exact symbolAt_of_le (Nat.le_of_not_lt hi) ▸ Nat.zero_le K

/-! ### The largest name -/

theorem le_foldl_max {l : List Nat} {a c : Nat} (h : c = a ∨ c ∈ l) : c ≤ l.foldl Nat.max a := by
  induction l generalizing a c with
  | nil => simpa using h.resolve_right (by simp) |>.le
  | cons b l ih =>
    rw [List.foldl_cons]
    obtain rfl | h := h
    · exact (Nat.le_max_left c b).trans (ih (c := Nat.max c b) (.inl rfl))
    · obtain rfl | h := List.mem_cons.1 h
      · exact (Nat.le_max_right a c).trans (ih (c := Nat.max a c) (.inl rfl))
      · exact ih (.inr h)

theorem foldl_max_mem {l : List Nat} {a : Nat} : l.foldl Nat.max a = a ∨ l.foldl Nat.max a ∈ l := by
  induction l generalizing a with
  | nil => exact .inl rfl
  | cons b l ih =>
    rw [List.foldl_cons]
    obtain h | h := ih (a := Nat.max a b)
    · rw [h]
      obtain hab | hab := Nat.le_total a b
      · exact .inr (by simp [Nat.max_eq_right hab])
      · exact .inl (Nat.max_eq_left hab)
    · exact .inr (List.mem_cons_of_mem _ h)

/-! ### All symbols different -/

/-- A sequence that holds each of the numbers `a .. a + N - 1` once is sorted by their places (40_suffix_sorter.md R144
step 4, R145). -/
theorem sortsSuffixes_idxOf {R : List Nat} {a : Nat} (hnodup : R.Nodup) (hR : ∀ c ∈ R, a ≤ c ∧ c < a + R.length) :
    SortsSuffixes (symbolAt R) R.length ((List.range R.length).map fun r => R.idxOf (r + a)) := by
  have hperm : R.Perm ((List.range R.length).map (· + a)) := by
    refine (List.subperm_of_subset hnodup fun c hc => ?_).perm_of_length_le (by simp)
    have := hR c hc
    exact List.mem_map.2 ⟨c - a, List.mem_range.2 (by omega), by omega⟩
  have hmem {r : Nat} (hr : r < R.length) : r + a ∈ R :=
    hperm.mem_iff.2 (List.mem_map_of_mem (List.mem_range.2 hr))
  have hat {r : Nat} (hr : r < R.length) : symbolAt R (R.idxOf (r + a)) = r + a := by
    rw [symbolAt_of_lt (List.idxOf_lt_length_of_mem (hmem hr)), List.getElem_idxOf]
  have hsorted : ((List.range R.length).map fun r => R.idxOf (r + a)).Pairwise fun i j =>
      symbolAt R i < symbolAt R j := by
    refine List.pairwise_map.2 (List.pairwise_lt_range.imp_of_mem fun hi hj hij => ?_)
    rw [hat (List.mem_range.1 hi), hat (List.mem_range.1 hj)]
    omega
  refine ⟨(List.subperm_of_subset ?_ fun i hi => ?_).perm_of_length_le (by simp), hsorted.imp .of_lt⟩
  · exact hsorted.imp fun hlt heq => Nat.ne_of_lt hlt (congrArg _ heq)
  · obtain ⟨r, hr, rfl⟩ := List.mem_map.1 hi
    exact List.mem_range.2 (List.idxOf_lt_length_of_mem (hmem (List.mem_range.1 hr)))

end Sys2Proof.Machine
end

section
/-! PROOFS. Method Skew/DC3 sorts the suffixes (40_suffix_sorter.md R145): the order of the samples is the order of the
reduced sequence, and the merge compares by it. -/

namespace Sys2Proof.Machine

/-! ### The parts of the method -/

/-- `n02`, the number of samples of a sequence of `n` symbols (40_suffix_sorter.md R145). -/
def sampleCount (n : Nat) : Nat := (n + 2) / 3 + n / 3

/-- The bound below which the samples lie: `n`, or past the dummy position `n` where `n mod 3 = 1`
(40_suffix_sorter.md R145). -/
def sampleBound (n : Nat) : Nat := n + ((n + 2) / 3 - (n + 1) / 3)

/-- `pos(j)` for a sequence of `n` symbols (40_suffix_sorter.md R145). -/
def samplePosOf (n j : Nat) : Nat := samplePos ((n + 2) / 3) j

/-- `s12`, the samples in text order (40_suffix_sorter.md R145). -/
def samples (n : Nat) : List Nat := (List.range (sampleBound n)).filter fun i => decide (i % 3 ≠ 0)

/-- The samples sorted by their triples (40_suffix_sorter.md R145). -/
def sortedSamples (f : Nat → Nat) (n K : Nat) : List Nat :=
  countingSort (countingSort (countingSort (samples n) (fun i => f (i + 2)) K) (fun i => f (i + 1)) K) f K

/-- Equal triples (40_suffix_sorter.md R145). -/
def sameTriple (f : Nat → Nat) (p q : Nat) : Bool :=
  decide (f p = f q) && decide (f (p + 1) = f (q + 1)) && decide (f (p + 2) = f (q + 2))

/-- `R`, the names of the triples, residue 1 before residue 2 (40_suffix_sorter.md R145). -/
def reduced (f : Nat → Nat) (n K : Nat) : List Nat :=
  (List.range (sampleCount n)).map fun j => rankOf (sameTriple f) 1 (sortedSamples f n K) (samplePosOf n j)

/-- `rk`, the rank of a sample in the order `SAR` (40_suffix_sorter.md R145). -/
def sampleRank (n : Nat) (SAR : List Nat) (i : Nat) : Nat :=
  (List.lookup i (SAR.zipIdx.map fun c => (samplePosOf n c.1, c.2 + 1))).getD 0

/-- The comparison of the merge: a sample `i` with a position `j` of residue 0 (40_suffix_sorter.md R145). -/
def sampleLess (f rk : Nat → Nat) (i j : Nat) : Bool :=
  if i % 3 = 1 then pairLt (f i) (rk (i + 1)) (f j) (rk (j + 1))
  else decide (f i < f j) || (decide (f i = f j) && pairLt (f (i + 1)) (rk (i + 2)) (f (j + 1)) (rk (j + 2)))

/-- `sa12`, the samples that are positions of the sequence, in the order `SAR` (40_suffix_sorter.md R145). -/
def orderedSamples (n : Nat) (SAR : List Nat) : List Nat := (SAR.map (samplePosOf n)).filter fun p => decide (p < n)

/-- The positions of residue 0 in the order in which the samples after them stand in `SAR` (40_suffix_sorter.md R145). -/
def residueZero (n : Nat) (SAR : List Nat) : List Nat :=
  (SAR.filter fun j => decide (j < (n + 2) / 3)).map fun j => samplePosOf n j - 1

/-- The last phase: residue 0 sorted, and merged with the samples (40_suffix_sorter.md R145). -/
def skewMerge (f : Nat → Nat) (n K : Nat) (SAR : List Nat) : List Nat :=
  mergeBy (sampleLess f (sampleRank n SAR)) n (orderedSamples n SAR) (countingSort (residueZero n SAR) f K)

/-- One level of the recursion in its parts. -/
theorem skewSort_succ {s : List Nat} (hs : 2 ≤ s.length) (fuel K : Nat) :
    skewSort (fuel + 1) s K = skewMerge (symbolAt s) s.length K
      (if (reduced (symbolAt s) s.length K).foldl Nat.max 0 < sampleCount s.length then
        skewSort fuel (reduced (symbolAt s) s.length K) ((reduced (symbolAt s) s.length K).foldl Nat.max 0)
      else (List.range (sampleCount s.length)).map fun r => (reduced (symbolAt s) s.length K).idxOf (r + 1)) := by
  rw [skewSort, if_neg (by omega), if_neg (by omega)]
  rfl

/-! ### Sample positions -/

section
variable {n j j' i : Nat}

theorem samplePosOf_of_lt (h : j < (n + 2) / 3) : samplePosOf n j = 3 * j + 1 := if_pos h

theorem samplePosOf_of_le (h : (n + 2) / 3 ≤ j) : samplePosOf n j = 3 * (j - (n + 2) / 3) + 2 := if_neg (by omega)

theorem samplePosOf_cases (n j : Nat) :
    j < (n + 2) / 3 ∧ samplePosOf n j = 3 * j + 1 ∨
      (n + 2) / 3 ≤ j ∧ samplePosOf n j = 3 * (j - (n + 2) / 3) + 2 := by
  obtain h | h := Nat.lt_or_ge j ((n + 2) / 3)
  · exact .inl ⟨h, samplePosOf_of_lt h⟩
  · exact .inr ⟨h, samplePosOf_of_le h⟩

theorem samplePosOf_spec (hj : j < sampleCount n) : samplePosOf n j < sampleBound n ∧ samplePosOf n j % 3 ≠ 0 := by
  unfold sampleCount at hj
  unfold sampleBound
  have := samplePosOf_cases n j
  omega

theorem samplePosOf_injective (h : samplePosOf n j = samplePosOf n j') : j = j' := by
  have := samplePosOf_cases n j
  have := samplePosOf_cases n j'
  omega

theorem exists_samplePosOf (hi : i < sampleBound n) (h3 : i % 3 ≠ 0) : ∃ j < sampleCount n, samplePosOf n j = i := by
  unfold sampleBound at hi
  unfold sampleCount
  by_cases h1 : i % 3 = 1
  · exact ⟨i / 3, by omega, by rw [samplePosOf_of_lt (by omega)]; omega⟩
  · exact ⟨i / 3 + (n + 2) / 3, by omega, by rw [samplePosOf_of_le (by omega)]; omega⟩

theorem sampleBound_bounds (n : Nat) : n ≤ sampleBound n ∧ sampleBound n ≤ n + 1 := by
  unfold sampleBound
  omega

theorem mem_samples : i ∈ samples n ↔ i < sampleBound n ∧ i % 3 ≠ 0 := by simp [samples]

theorem samplePosOf_mem (hj : j < sampleCount n) : samplePosOf n j ∈ samples n := mem_samples.2 (samplePosOf_spec hj)

theorem samples_nodup (n : Nat) : (samples n).Nodup := List.nodup_range.filter _

/-- The indices of the reduced sequence are the samples, each once. -/
theorem map_samplePosOf_perm (n : Nat) : ((List.range (sampleCount n)).map (samplePosOf n)).Perm (samples n) := by
  refine (List.perm_ext_iff_of_nodup (List.nodup_range.map fun _ _ => samplePosOf_injective) (samples_nodup n)).2 ?_
  intro i
  simp only [List.mem_map, List.mem_range, mem_samples]
  constructor
  · rintro ⟨j, hj, rfl⟩
    exact samplePosOf_spec hj
  · exact fun ⟨hi, h3⟩ => exists_samplePosOf hi h3

end

/-! ### Names of triples -/

section
variable {f : Nat → Nat} {n K : Nat}

theorem belowWithin_succ {k i j : Nat} :
    BelowWithin f (k + 1) i j ↔ f i < f j ∨ f i = f j ∧ BelowWithin f k (i + 1) (j + 1) := by
  rw [Nat.add_comm, belowWithin_add, belowWithin_one, agreeFor_one]

theorem sortedSamples_perm (hK : ∀ i, f i ≤ K) : (sortedSamples f n K).Perm (samples n) :=
  (countingSort_perm fun _ _ => hK _).trans
    ((countingSort_perm fun _ _ => hK _).trans (countingSort_perm fun _ _ => hK _))

theorem sortedSamples_nodup (hK : ∀ i, f i ≤ K) : (sortedSamples f n K).Nodup :=
  (sortedSamples_perm hK).nodup_iff.2 (samples_nodup n)

/-- Three stable passes, the last symbol first, sort by triples (40_suffix_sorter.md R145). -/
theorem sortedSamples_pairwise (f : Nat → Nat) (n K : Nat) :
    (sortedSamples f n K).Pairwise fun i j => BelowWithin f 3 i j ∨ AgreeFor f 3 i j := by
  have hany : (samples n).Pairwise fun _ _ => True := List.pairwise_of_forall fun _ _ => trivial
  refine (countingSort_pairwise (countingSort_pairwise (countingSort_pairwise hany _ K) _ K) f K).imp fun {i j} h => ?_
  rw [belowWithin_succ, belowWithin_succ, belowWithin_one, agreeFor_succ, agreeFor_succ, agreeFor_one]
  simp only [Nat.add_assoc, Nat.reduceAdd]
  tauto

theorem sameTriple_iff (f : Nat → Nat) (a b : Nat) : sameTriple f a b = true ↔ AgreeFor f 3 a b := by
  rw [agreeFor_succ, agreeFor_succ, agreeFor_one]
  simp [sameTriple, Nat.add_assoc, and_assoc]

@[simp] theorem length_reduced (f : Nat → Nat) (n K : Nat) : (reduced f n K).length = sampleCount n := by
  simp [reduced]

/-- The names order the triples of the samples (40_suffix_sorter.md R145). -/
theorem reduced_decides (hK : ∀ i, f i ≤ K) {i j : Nat} (hi : i < sampleCount n) (hj : j < sampleCount n) :
    (symbolAt (reduced f n K) i < symbolAt (reduced f n K) j ↔ BelowWithin f 3 (samplePosOf n i) (samplePosOf n j)) ∧
    (symbolAt (reduced f n K) i = symbolAt (reduced f n K) j ↔ AgreeFor f 3 (samplePosOf n i) (samplePosOf n j)) := by
  have hmem {j : Nat} (hj : j < sampleCount n) := (sortedSamples_perm hK).mem_iff.2 (samplePosOf_mem hj)
  obtain ⟨hlt, heq, -⟩ := rankOf_decides (r := 1) (rankOrder_within f 3) (sortedSamples_nodup hK)
    (sortedSamples_pairwise f n K) (fun a _ b _ => sameTriple_iff f a b) (hmem hi) (hmem hj)
  rw [reduced, symbolAt_map_range _ hi, symbolAt_map_range _ hj]
  exact ⟨hlt, heq⟩

theorem reduced_bounds (hK : ∀ i, f i ≤ K) {c : Nat} (hc : c ∈ reduced f n K) : 1 ≤ c ∧ c < 1 + sampleCount n := by
  obtain ⟨j, hj, rfl⟩ := List.mem_map.1 hc
  have hperm := sortedSamples_perm (n := n) hK
  have hlen : (sortedSamples f n K).length = sampleCount n := by
    simpa using (hperm.trans (map_samplePosOf_perm n).symm).length_eq
  rw [← hlen]
  exact rankOf_bounds (sortedSamples_nodup hK) (hperm.mem_iff.2 (samplePosOf_mem (List.mem_range.1 hj))) _ _

theorem reduced_endsAt (hK : ∀ i, f i ≤ K) : EndsAt (symbolAt (reduced f n K)) (sampleCount n) := by
  simpa using symbolAt_endsAt fun c hc => (reduced_bounds (n := n) hK hc).1

/-- As many names as samples: no two triples are equal. -/
theorem reduced_nodup (hK : ∀ i, f i ≤ K) (h : sampleCount n ≤ (reduced f n K).foldl Nat.max 0) :
    (reduced f n K).Nodup := by
  obtain hn | hn := Nat.eq_zero_or_pos (sampleCount n)
  · rw [List.eq_nil_of_length_eq_zero ((length_reduced f n K).trans hn)]
    exact List.nodup_nil
  · have hmax := (foldl_max_mem (l := reduced f n K) (a := 0)).resolve_left (by omega)
    have hbound := reduced_bounds hK hmax
    obtain ⟨j, hj, hlast⟩ := List.mem_map.1 hmax
    have hperm := sortedSamples_perm (n := n) hK
    have hlen : (sortedSamples f n K).length = sampleCount n := by
      simpa using (hperm.trans (map_samplePosOf_perm n).symm).length_eq
    have hnodup := nodup_map_rankOf (r := 1) (rankOrder_within f 3) (sortedSamples_nodup hK)
      (sortedSamples_pairwise f n K) (fun a _ b _ => sameTriple_iff f a b)
      (hperm.mem_iff.2 (samplePosOf_mem (List.mem_range.1 hj))) (by omega)
    have hreduced : reduced f n K =
        ((List.range (sampleCount n)).map (samplePosOf n)).map (rankOf (sameTriple f) 1 (sortedSamples f n K)) := by
      rw [List.map_map]
      rfl
    rw [hreduced]
    exact (((map_samplePosOf_perm n).trans hperm.symm).map _).nodup_iff.2 hnodup

/-- A triple that reaches the end of the sequence is that of one sample alone: the others reach it elsewhere. -/
theorem eq_of_agreeFor_end (hf : EndsAt f n) {p q : Nat} (hp : p ≤ n) (hq : q ≤ n) (hend : n ≤ p + 2)
    (h : AgreeFor f 3 p q) : p = q := by
  obtain ⟨hpos, hzero⟩ := hf
  have hreach {e : Nat} (he : e < 3) : n ≤ p + e ↔ n ≤ q + e := by
    have heq := h e he
    have := hzero (p + e)
    have := hzero (q + e)
    have := hpos (p + e)
    have := hpos (q + e)
    omega
  have h0 := hreach (e := 0) (by omega)
  have h1 := hreach (e := 1) (by omega)
  have h2 := hreach (e := 2) (by omega)
  omega

/-- The suffixes of the reduced sequence compare as those of the samples: triple by triple, up to the first that differ,
and no two that agree reach the end of the sequence or of the residue-1 part (40_suffix_sorter.md R145). -/
theorem suffixBelow_of_reduced (hf : EndsAt f n) (hK : ∀ i, f i ≤ K) {i j : Nat} (hi : i < sampleCount n)
    (hj : j < sampleCount n) (h : SuffixBelow (symbolAt (reduced f n K)) i j) :
    SuffixBelow f (samplePosOf n i) (samplePosOf n j) := by
  obtain ⟨d, hagree, hlt⟩ := h
  induction d generalizing i j with
  | zero => exact ((reduced_decides hK hi hj).1.1 hlt).suffixBelow
  | succ d ih =>
    obtain ⟨hname, hrest⟩ := agreeFor_succ.1 hagree
    have htriple : AgreeFor f 3 (samplePosOf n i) (samplePosOf n j) := (reduced_decides hK hi hj).2.1 hname
    have hij : samplePosOf n i ≠ samplePosOf n j := fun h => by
      rw [samplePosOf_injective h] at hlt
      omega
    have hpi := samplePosOf_spec hi
    have hpj := samplePosOf_spec hj
    have hbound := sampleBound_bounds n
    have hiEnd : samplePosOf n i + 2 < n := by
      by_contra hge
      exact hij (eq_of_agreeFor_end hf (by omega) (by omega) (by omega) htriple)
    have hjEnd : samplePosOf n j + 2 < n := by
      by_contra hge
      exact hij (eq_of_agreeFor_end hf (by omega) (by omega) (by omega) htriple.symm).symm
    have hnext {p : Nat} (hp : samplePosOf n p + 2 < n) : samplePosOf n (p + 1) = samplePosOf n p + 3 := by
      have := samplePosOf_cases n p
      have := samplePosOf_cases n (p + 1)
      omega
    have hj1 : j + 1 < sampleCount n := by
      by_contra hge
      have := (reduced_endsAt (n := n) hK).2 (j + (d + 1)) (by omega)
      omega
    refine .of_agreeFor htriple ?_
    rw [← hnext hiEnd, ← hnext hjEnd]
    by_cases hi1 : i + 1 < sampleCount n
    · exact ih hi1 hj1 hrest (by simpa only [Nat.add_assoc, Nat.add_comm 1] using hlt)
    · have hlast : samplePosOf n (i + 1) = n ∧ n % 3 = 2 := by
        rw [hnext hiEnd]
        unfold sampleCount at hi hi1
        have := samplePosOf_cases n i
        omega
      have hbefore := samplePosOf_spec hj1
      have hin : samplePosOf n (j + 1) < n := by
        unfold sampleBound at hbefore
        omega
      exact .of_lt (by rw [hf.2 _ hlast.1.ge]; exact hf.1 _ hin)

end

/-! ### Merging -/

theorem mergeBy_perm (less : Nat → Nat → Bool) (fuel : Nat) (as bs : List Nat) :
    (mergeBy less fuel as bs).Perm (as ++ bs) := by
  induction fuel generalizing as bs with
  | zero => exact .refl _
  | succ fuel ih =>
    cases as with
    | nil => exact .refl _
    | cons a as =>
      cases bs with
      | nil => simp [mergeBy]
      | cons b bs =>
        rw [mergeBy]
        split
        · exact (ih as (b :: bs)).cons a
        · exact ((ih (a :: as) bs).cons b).trans List.perm_middle.symm

/-- The merge of two sorted lists is sorted, if `less` says which of two heads comes first. -/
theorem mergeBy_pairwise {R : Nat → Nat → Prop} (htrans : ∀ {a b c}, R a b → R b c → R a c) {less : Nat → Nat → Bool}
    {fuel : Nat} {as bs : List Nat} (hfuel : as.length + bs.length ≤ fuel) (has : as.Pairwise R) (hbs : bs.Pairwise R)
    (hless : ∀ a ∈ as, ∀ b ∈ bs, if less a b then R a b else R b a) : (mergeBy less fuel as bs).Pairwise R := by
  induction fuel generalizing as bs with
  | zero =>
    rw [List.eq_nil_of_length_eq_zero (l := as) (by omega), List.eq_nil_of_length_eq_zero (l := bs) (by omega)]
    exact List.Pairwise.nil
  | succ fuel ih =>
    cases as with
    | nil => exact hbs
    | cons a as =>
      cases bs with
      | nil => exact has
      | cons b bs =>
        simp only [List.length_cons] at hfuel
        obtain ⟨ha, has'⟩ := List.pairwise_cons.1 has
        obtain ⟨hb, hbs'⟩ := List.pairwise_cons.1 hbs
        have hab := hless a (by simp) b (by simp)
        rw [mergeBy]
        split at hab <;> rename_i h
        · rw [if_pos h]
          refine List.pairwise_cons.2 ⟨fun c hc => ?_, ih (by simp only [List.length_cons]; omega) has' hbs
            fun a' ha' => hless a' (List.mem_cons_of_mem _ ha')⟩
          obtain hc | hc := List.mem_append.1 ((mergeBy_perm _ _ _ _).mem_iff.1 hc)
          · exact ha c hc
          · obtain rfl | hc := List.mem_cons.1 hc
            · exact hab
            · exact htrans hab (hb c hc)
        · rw [if_neg h]
          refine List.pairwise_cons.2 ⟨fun c hc => ?_, ih (by simp only [List.length_cons]; omega) has hbs'
            fun a' ha' b' hb' => hless a' ha' b' (List.mem_cons_of_mem _ hb')⟩
          obtain hc | hc := List.mem_append.1 ((mergeBy_perm _ _ _ _).mem_iff.1 hc)
          · obtain rfl | hc := List.mem_cons.1 hc
            · exact hab
            · exact htrans hab (ha c hc)
          · exact hb c hc

/-! ### Ranks of samples -/

/-- The lookup of a position in a numbered list is its place there. -/
theorem lookup_zipIdx {g : Nat → Nat} {l : List Nat} {i : Nat} (h : i ∈ l.map g) (k : Nat) :
    List.lookup i ((l.zipIdx k).map fun c => (g c.1, c.2 + 1)) = some (k + (l.map g).idxOf i + 1) := by
  induction l generalizing k with
  | nil => simp at h
  | cons a l ih =>
    rw [List.zipIdx_cons, List.map_cons, List.map_cons, List.lookup_cons, List.idxOf_cons]
    by_cases hia : i = g a
    · simp [hia]
    · have hmem : i ∈ l.map g := (List.mem_cons.1 h).resolve_left hia
      rw [ih hmem (k + 1)]
      simp only [beq_eq_false_iff_ne.2 hia, beq_eq_false_iff_ne.2 (Ne.symm hia), cond_false]
      congr 1
      omega

/-- The places in a sorted list order its entries. -/
theorem idxOf_lt_idxOf_iff {R : Nat → Nat → Prop} (hasymm : ∀ {a b}, R a b → ¬ R b a) {l : List Nat} (hl : l.Pairwise R)
    {a b : Nat} (ha : a ∈ l) (hb : b ∈ l) : l.idxOf a < l.idxOf b ↔ R a b := by
  have ha' := List.idxOf_lt_length_of_mem ha
  have hb' := List.idxOf_lt_length_of_mem hb
  rw [List.pairwise_iff_getElem] at hl
  constructor
  · exact fun h => by simpa using hl _ _ ha' hb' h
  · intro h
    obtain hlt | heq | hgt := Nat.lt_trichotomy (l.idxOf a) (l.idxOf b)
    · exact hlt
    · obtain rfl := (List.idxOf_inj ha).1 heq
      exact absurd h (hasymm h)
    · exact absurd h (by simpa using hasymm (hl _ _ hb' ha' hgt))

section
variable {f : Nat → Nat} {n K : Nat} {SAR : List Nat}

/-- The order `SAR` of the reduced sequence, read as an order of the samples. -/
theorem map_samplePosOf_sorted (hf : EndsAt f n) (hK : ∀ i, f i ≤ K)
    (hSAR : SortsSuffixes (symbolAt (reduced f n K)) (sampleCount n) SAR) :
    (SAR.map (samplePosOf n)).Pairwise (SuffixBelow f) :=
  List.pairwise_map.2 <| hSAR.2.imp_of_mem fun hi hj hij => suffixBelow_of_reduced hf hK
    (List.mem_range.1 (hSAR.1.mem_iff.1 hi)) (List.mem_range.1 (hSAR.1.mem_iff.1 hj)) hij

theorem map_samplePosOf_perm_samples (hSAR : SAR.Perm (List.range (sampleCount n))) :
    (SAR.map (samplePosOf n)).Perm (samples n) := (hSAR.map _).trans (map_samplePosOf_perm n)

theorem sampleRank_of_mem (hSAR : SAR.Perm (List.range (sampleCount n))) {i : Nat} (hi : i ∈ samples n) :
    sampleRank n SAR i = (SAR.map (samplePosOf n)).idxOf i + 1 := by
  rw [sampleRank, lookup_zipIdx ((map_samplePosOf_perm_samples hSAR).mem_iff.2 hi), Option.getD_some, Nat.zero_add]

theorem sampleRank_of_notMem (hSAR : SAR.Perm (List.range (sampleCount n))) {i : Nat} (hi : i ∉ samples n) :
    sampleRank n SAR i = 0 := by
  have hnone : List.lookup i (SAR.zipIdx.map fun c => (samplePosOf n c.1, c.2 + 1)) = none := by
    rw [List.lookup_eq_none_iff]
    intro x hx
    obtain ⟨c, hc, rfl⟩ := List.mem_map.1 hx
    have hmem : samplePosOf n c.1 ∈ samples n := (map_samplePosOf_perm_samples hSAR).mem_iff.1
      (List.mem_map_of_mem (List.fst_mem_of_mem_zipIdx hc))
    simpa using fun h : i = samplePosOf n c.1 => hi (h ▸ hmem)
  rw [sampleRank, hnone, Option.getD_none]

/-- The ranks compare two positions that are no multiples of 3 as their suffixes, unless the first lies past the samples
and the second is the dummy position (40_suffix_sorter.md R145). -/
theorem sampleRank_lt_iff (hf : EndsAt f n) (hK : ∀ i, f i ≤ K)
    (hSAR : SortsSuffixes (symbolAt (reduced f n K)) (sampleCount n) SAR) {p q : Nat} (hp : p % 3 ≠ 0) (hq : q % 3 ≠ 0)
    (hpq : p < sampleBound n ∨ q ≠ n) : sampleRank n SAR p < sampleRank n SAR q ↔ SuffixBelow f p q := by
  have hbound := sampleBound_bounds n
  by_cases hqb : q < sampleBound n
  · have hqs : q ∈ samples n := mem_samples.2 ⟨hqb, hq⟩
    rw [sampleRank_of_mem hSAR.1 hqs]
    by_cases hpb : p < sampleBound n
    · have hps : p ∈ samples n := mem_samples.2 ⟨hpb, hp⟩
      have hperm := map_samplePosOf_perm_samples hSAR.1
      rw [sampleRank_of_mem hSAR.1 hps, Nat.add_lt_add_iff_right]
      exact idxOf_lt_idxOf_iff SuffixBelow.asymm (map_samplePosOf_sorted hf hK hSAR) (hperm.mem_iff.2 hps) (hperm.mem_iff.2 hqs)
    · rw [sampleRank_of_notMem hSAR.1 fun h => hpb (mem_samples.1 h).1]
      have := hf.1 q (by omega)
      have := hf.2 p (by omega)
      exact iff_of_true (by omega) (.of_lt (by omega))
  · rw [sampleRank_of_notMem (i := q) hSAR.1 fun h => hqb (mem_samples.1 h).1]
    refine iff_of_false (by omega) fun ⟨d, _, hlt⟩ => ?_
    have := hf.2 (q + d) (by omega)
    omega

theorem pairLt_iff (a b c d : Nat) : pairLt a b c d = true ↔ a < c ∨ a = c ∧ b < d := by simp [pairLt]

/-- The merge compares a sample and a position of residue 0 by one or two symbols and then by ranks of samples
(40_suffix_sorter.md R145). -/
theorem sampleLess_iff (hf : EndsAt f n) (hK : ∀ i, f i ≤ K)
    (hSAR : SortsSuffixes (symbolAt (reduced f n K)) (sampleCount n) SAR) {i j : Nat} (hi : i < n) (hi3 : i % 3 ≠ 0)
    (hj3 : j % 3 = 0) : sampleLess f (sampleRank n SAR) i j = true ↔ SuffixBelow f i j := by
  rw [sampleLess]
  split
  · rw [pairLt_iff, sampleRank_lt_iff hf hK hSAR (by omega) (by omega) (by unfold sampleBound; omega), ← suffixBelow_iff]
  · rw [Bool.or_eq_true, Bool.and_eq_true, decide_eq_true_eq, decide_eq_true_eq, pairLt_iff,
      sampleRank_lt_iff hf hK hSAR (by omega) (by omega) (by unfold sampleBound; omega), suffixBelow_iff (i := i), suffixBelow_iff (i := i + 1)]

/-! ### The last phase -/

theorem orderedSamples_perm (hSAR : SAR.Perm (List.range (sampleCount n))) :
    (orderedSamples n SAR).Perm ((List.range n).filter fun i => decide (i % 3 ≠ 0)) := by
  refine (List.perm_ext_iff_of_nodup ?_ (List.nodup_range.filter _)).2 fun i => ?_
  · exact ((map_samplePosOf_perm_samples hSAR).nodup_iff.2 (samples_nodup n)).filter _
  · have hbound := sampleBound_bounds n
    simp only [orderedSamples, List.mem_filter, (map_samplePosOf_perm_samples hSAR).mem_iff, mem_samples, List.mem_range,
      decide_eq_true_eq]
    omega

theorem residueZero_perm (hSAR : SAR.Perm (List.range (sampleCount n))) :
    (residueZero n SAR).Perm ((List.range n).filter fun i => !decide (i % 3 ≠ 0)) := by
  have hpos {j : Nat} (hj : j < (n + 2) / 3) : samplePosOf n j - 1 = 3 * j := by
    rw [samplePosOf_of_lt hj, Nat.add_sub_cancel]
  refine (List.perm_ext_iff_of_nodup ?_ (List.nodup_range.filter _)).2 fun i => ?_
  · refine List.Nodup.map_on (fun j hj j' hj' heq => ?_) ((hSAR.nodup_iff.2 List.nodup_range).filter _)
    rw [List.mem_filter, decide_eq_true_eq] at hj hj'
    rw [hpos hj.2, hpos hj'.2] at heq
    omega
  · simp only [residueZero, List.mem_map, List.mem_filter, hSAR.mem_iff, List.mem_range, decide_eq_true_eq,
      Bool.not_eq_true', decide_eq_false_iff_not, not_not]
    constructor
    · rintro ⟨j, ⟨-, hj⟩, rfl⟩
      rw [hpos hj]
      omega
    · exact fun ⟨hi, hi3⟩ => ⟨i / 3, ⟨by unfold sampleCount; omega, by omega⟩, by rw [hpos (by omega)]; omega⟩

/-- A stable pass by symbols after the order of the samples sorts residue 0 (40_suffix_sorter.md R145). -/
theorem residueZero_sorted (hf : EndsAt f n) (hK : ∀ i, f i ≤ K)
    (hSAR : SortsSuffixes (symbolAt (reduced f n K)) (sampleCount n) SAR) :
    (countingSort (residueZero n SAR) f K).Pairwise (SuffixBelow f) := by
  have hnext : (residueZero n SAR).Pairwise fun i j => SuffixBelow f (i + 1) (j + 1) := by
    refine List.pairwise_map.2 (((List.pairwise_map.1 (map_samplePosOf_sorted hf hK hSAR)).filter _).imp fun {i j} h => ?_)
    have := samplePosOf_cases n i
    have := samplePosOf_cases n j
    rwa [Nat.sub_add_cancel (by omega), Nat.sub_add_cancel (by omega)]
  exact (countingSort_pairwise hnext f K).imp suffixBelow_iff.2

/-- The merge sorts all positions (40_suffix_sorter.md R145). -/
theorem skewMerge_sorts (hf : EndsAt f n) (hK : ∀ i, f i ≤ K)
    (hSAR : SortsSuffixes (symbolAt (reduced f n K)) (sampleCount n) SAR) :
    SortsSuffixes f n (skewMerge f n K SAR) := by
  have h12 := orderedSamples_perm hSAR.1
  have h0 : (countingSort (residueZero n SAR) f K).Perm _ :=
    (countingSort_perm fun i _ => hK i).trans (residueZero_perm hSAR.1)
  have hall := (h12.append h0).trans (List.filter_append_perm _ _)
  refine ⟨(mergeBy_perm _ _ _ _).trans hall, mergeBy_pairwise (R := SuffixBelow f) .trans ?_ ?_ (residueZero_sorted hf hK hSAR) ?_⟩
  · simpa using hall.length_eq.le
  · exact (map_samplePosOf_sorted hf hK hSAR).filter _
  · intro i hi j hj
    have hi := h12.mem_iff.1 hi
    have hj := h0.mem_iff.1 hj
    simp only [List.mem_filter, List.mem_range, decide_eq_true_eq, Bool.not_eq_true', decide_eq_false_iff_not,
      not_not] at hi hj
    have hless := sampleLess_iff hf hK hSAR hi.1 hi.2 hj.2
    split <;> rename_i h
    · exact hless.1 h
    · exact (hf.total hj.1.le hi.1.le (by omega)).resolve_right fun h' => h (hless.2 h')

end

/-! ### The recursion -/

/-- Skew/DC3 sorts the suffixes of every sequence over `1..K` (40_suffix_sorter.md R145). -/
theorem skewSort_sorts {fuel : Nat} {s : List Nat} {K : Nat} (hfuel : s.length ≤ fuel)
    (hs : ∀ c ∈ s, 1 ≤ c ∧ c ≤ K) : SortsSuffixes (symbolAt s) s.length (skewSort fuel s K) := by
  induction fuel generalizing s K with
  | zero =>
    rw [List.eq_nil_of_length_eq_zero (l := s) (by omega)]
    exact ⟨.refl _, List.Pairwise.nil⟩
  | succ fuel ih =>
    by_cases h2 : 2 ≤ s.length
    · have hf : EndsAt (symbolAt s) s.length := symbolAt_endsAt fun c hc => (hs c hc).1
      have hK : ∀ i, symbolAt s i ≤ K := symbolAt_le fun c hc => (hs c hc).2
      rw [skewSort_succ h2]
      refine skewMerge_sorts hf hK ?_
      split
      · have hcount : sampleCount s.length ≤ fuel := by
          unfold sampleCount
          omega
        simpa using ih (s := reduced (symbolAt s) s.length K) (by simpa using hcount)
          fun c hc => ⟨(reduced_bounds hK hc).1, le_foldl_max (.inr hc)⟩
      · rename_i hnames
        simpa using sortsSuffixes_idxOf (a := 1) (reduced_nodup hK (Nat.le_of_not_lt hnames))
          fun c hc => by simpa using reduced_bounds hK hc
    · match s, h2 with
      | [], _ => exact ⟨.refl _, List.Pairwise.nil⟩
      | [a], _ => exact ⟨.refl _, List.pairwise_singleton _ _⟩
      | _ :: _ :: _, h2 => simp at h2

/-- Settles O24: at the top level the symbols are the keys above 0, at most 257 (40_suffix_sorter.md R145). -/
theorem skewComputesTheSuffixArray : Obligations.SkewComputesTheSuffixArray := by
  intro text
  refine IsSuffixArray.eq_suffixArray ((isSuffixArray_iff _ _).2 ?_)
  have hkeys : ∀ c ∈ (extendedText text).map fun c => symKey c + 1, 1 ≤ c ∧ c ≤ 257 := by
    intro c hc
    obtain ⟨a, -, rfl⟩ := List.mem_map.1 hc
    cases a with
    | sentinel => simp [symKey]
    | byte b =>
      have := b.isLt
      simp only [symKey]
      omega
  have h := skewSort_sorts (fuel := (extendedText text).length) (by simp) hkeys
  rw [List.length_map] at h
  exact h

end Sys2Proof.Machine
end

section
/-! PROOFS. The types of positions and the LMS positions (40_suffix_sorter.md R144 step 1). -/

namespace Sys2Proof.Machine

/-- Is position `i` S-type? (40_suffix_sorter.md R144) -/
def typeAt (S : List Nat) (i : Nat) : Bool := (suffixTypes S).getD i false

/-- Is position `i` LMS? (40_suffix_sorter.md R144) -/
def lmsAt (S : List Nat) (i : Nat) : Bool := isLms (suffixTypes S) i

/-- `lms`, the LMS positions in ascending order (40_suffix_sorter.md R144). -/
def lmsList (S : List Nat) : List Nat := (List.range S.length).filter (lmsAt S)

/-! ### Types -/

@[simp] theorem length_suffixTypes (S : List Nat) : (suffixTypes S).length = S.length := by
  induction S using suffixTypes.induct with
  | case1 => rfl
  | case2 => rfl
  | case3 a b S ih => simp only [suffixTypes, List.length_cons, ih]

theorem getD_suffixTypes {S : List Nat} {i : Nat} (h : i < S.length) (d : Bool) :
    (suffixTypes S).getD i d = typeAt S i := by
  rw [typeAt, List.getD_eq_getElem _ _ (by simpa using h), List.getD_eq_getElem _ _ (by simpa using h)]

theorem typeAt_of_le {S : List Nat} {i : Nat} (h : S.length ≤ i) : typeAt S i = false :=
  List.getD_eq_default _ _ (by simpa using h)

theorem lt_length_of_typeAt {S : List Nat} {i : Nat} (h : typeAt S i = true) : i < S.length := by
  by_contra hge
  simp [typeAt_of_le (Nat.le_of_not_lt hge)] at h

theorem typeAt_cons_cons_zero (a b : Nat) (S : List Nat) :
    typeAt (a :: b :: S) 0 = (decide (a < b) || (decide (a = b) && typeAt (b :: S) 0)) := by
  have hhead : (suffixTypes (b :: S)).headD true = typeAt (b :: S) 0 := by
    rw [← getD_suffixTypes (d := true) (by simp)]
    cases suffixTypes (b :: S) <;> rfl
  rw [← hhead]
  rfl

theorem typeAt_cons_cons_succ (a b : Nat) (S : List Nat) (i : Nat) : typeAt (a :: b :: S) (i + 1) = typeAt (b :: S) i :=
  rfl

theorem typeAt_last {S : List Nat} (h : 0 < S.length) : typeAt S (S.length - 1) = true := by
  induction S using suffixTypes.induct with
  | case1 => simp at h
  | case2 => rfl
  | case3 a b S ih => exact ih (by simp)

/-- A position is S-type if its symbol is below the next one, or equal to it before an S-type (40_suffix_sorter.md
R144). -/
theorem typeAt_iff {S : List Nat} {i : Nat} (h : i + 1 < S.length) : typeAt S i = true ↔
    symbolAt S i < symbolAt S (i + 1) ∨ symbolAt S i = symbolAt S (i + 1) ∧ typeAt S (i + 1) = true := by
  induction S using suffixTypes.induct generalizing i with
  | case1 => simp at h
  | case2 => simp at h
  | case3 a b S ih =>
    cases i with
    | zero =>
      rw [typeAt_cons_cons_zero, typeAt_cons_cons_succ]
      simp [symbolAt]
    | succ i =>
      simpa [typeAt_cons_cons_succ, symbolAt] using ih (i := i) (by simpa using h)

/-- Every position but the last has a successor; the last is S-type. -/
theorem succ_lt_of_typeAt_false {S : List Nat} {i : Nat} (hi : i < S.length) (h : typeAt S i = false) :
    i + 1 < S.length := by
  by_contra hge
  have hlast : i = S.length - 1 := by omega
  simp [hlast, typeAt_last (by omega : 0 < S.length)] at h

/-- After an L-type the symbol does not rise, and an equal one is L-type. -/
theorem next_of_typeAt_false {S : List Nat} {i : Nat} (hi : i < S.length) (h : typeAt S i = false) :
    symbolAt S (i + 1) < symbolAt S i ∨ symbolAt S (i + 1) = symbolAt S i ∧ typeAt S (i + 1) = false := by
  have hnot := mt (typeAt_iff (succ_lt_of_typeAt_false hi h)).2 (by simp [h])
  rw [not_or, not_and, Bool.not_eq_true] at hnot
  obtain heq | hne := eq_or_ne (symbolAt S (i + 1)) (symbolAt S i)
  · exact .inr ⟨heq, hnot.2 heq.symm⟩
  · exact .inl (by omega)

/-! ### Sequences that end in a unique minimum -/

section
variable {S : List Nat} (hS : EndsAt (symbolAt S) (S.length - 1)) {i j : Nat}
include hS

/-- The last position is the one with symbol 0. -/
theorem eq_last_of_symbolAt_eq_zero (hi : i < S.length) (h : symbolAt S i = 0) : i = S.length - 1 := by
  by_contra hne
  have := hS.1 i (by omega)
  omega

/-- In one bucket every L-type suffix is below every S-type suffix: their runs of one symbol end in a smaller and in a
larger symbol (40_suffix_sorter.md R144). -/
theorem suffixBelow_of_typeAt (hi : i < S.length) (hj : j < S.length) (heq : symbolAt S i = symbolAt S j)
    (hti : typeAt S i = false) (htj : typeAt S j = true) : SuffixBelow (symbolAt S) i j := by
  induction hd : S.length - i using Nat.strongRecOn generalizing i j with
  | _ d ih =>
    have hi1 := succ_lt_of_typeAt_false hi hti
    have hj1 : j + 1 < S.length := by
      by_contra hge
      have hzero := hS.2 j (by omega)
      have := eq_last_of_symbolAt_eq_zero hS hi (heq.trans hzero)
      omega
    refine .of_eq heq ?_
    obtain hlt | ⟨hieq, hti1⟩ := next_of_typeAt_false hi hti
    · obtain hjlt | ⟨hjeq, -⟩ := (typeAt_iff hj1).1 htj
      · exact .of_lt (by omega)
      · exact .of_lt (by omega)
    · obtain hjlt | ⟨hjeq, htj1⟩ := (typeAt_iff hj1).1 htj
      · exact .of_lt (by omega)
      · exact ih _ (by omega) hi1 hj1 (by omega) hti1 htj1 rfl

end

/-! ### LMS positions -/

section
variable {S : List Nat} {i : Nat}

theorem lmsAt_iff : lmsAt S i = true ↔ 1 ≤ i ∧ typeAt S i = true ∧ typeAt S (i - 1) = false := by
  simp only [lmsAt, isLms, Bool.and_eq_true, decide_eq_true_eq, Bool.not_eq_true', and_assoc]
  refine and_congr_right fun _ => and_congr_right fun ht => ?_
  have hi : i < S.length := lt_length_of_typeAt ht
  rw [getD_suffixTypes (by omega)]

theorem lmsAt_succ_iff : lmsAt S (i + 1) = true ↔ typeAt S (i + 1) = true ∧ typeAt S i = false := by
  simp [lmsAt_iff]

theorem lt_length_of_lmsAt (h : lmsAt S i = true) : i < S.length := lt_length_of_typeAt (lmsAt_iff.1 h).2.1

theorem mem_lmsList : i ∈ lmsList S ↔ lmsAt S i = true := by
  simpa [lmsList] using lt_length_of_lmsAt

theorem lmsList_pairwise (S : List Nat) : (lmsList S).Pairwise (· < ·) := List.pairwise_lt_range.filter _

theorem lmsList_nodup (S : List Nat) : (lmsList S).Nodup := List.nodup_range.filter _

/-- The last position of two or more is LMS (40_suffix_sorter.md R144). -/
theorem lmsAt_last (hS : EndsAt (symbolAt S) (S.length - 1)) (h2 : 2 ≤ S.length) : lmsAt S (S.length - 1) = true := by
  refine lmsAt_iff.2 ⟨by omega, typeAt_last (by omega), Bool.eq_false_iff.2 fun ht => ?_⟩
  have hpos := hS.1 (S.length - 1 - 1) (by omega)
  have hzero := hS.2 (S.length - 1) le_rfl
  have hstep := (typeAt_iff (S := S) (i := S.length - 1 - 1) (by omega)).1 ht
  rw [show S.length - 1 - 1 + 1 = S.length - 1 by omega] at hstep
  omega

/-- Position 0 is not LMS, so a recursion is on fewer positions (40_suffix_sorter.md R144). -/
theorem length_lmsList_lt (h : 0 < S.length) : (lmsList S).length < S.length := by
  have hlt : ((List.range S.length).filter (lmsAt S)).length < (List.range S.length).length :=
    List.length_filter_lt_length_iff_exists.2 ⟨0, by simpa using h, by simp [lmsAt_iff]⟩
  simpa [lmsList] using hlt

end

end Sys2Proof.Machine
end

section
/-! PROOFS. Positions placed into buckets (40_suffix_sorter.md R144): a sequence of placements fills the slots that the
counts in its buckets give, and a scan is such a sequence if it finds at each slot what it has placed there. -/

namespace Sys2Proof.Machine

/-! ### Sequences of placements -/

/-- `A[h[S[p]]] <- p` and a bucket position moved by `move`: `placeAtHead` and `placeAtTail` in one. -/
def place (move : Nat → Nat) (S : List Nat) (a : Buckets) (p : Nat) : Buckets :=
  { slots := a.slots.set (a.next.getD (symbolAt S p) 0) (some p)
    next := a.next.set (symbolAt S p) (move (a.next.getD (symbolAt S p) 0)) }

theorem placeAtHead_eq : placeAtHead = place (· + 1) := rfl

theorem placeAtTail_eq : placeAtTail = place (· - 1) := rfl

/-- `slot` says where the placements `qs`, one after the other, put each position: `move` is applied once for each
earlier position of the same bucket. -/
def PlacesAt (move : Nat → Nat) (f start : Nat → Nat) (qs : List Nat) (slot : Nat → Nat) : Prop :=
  ∀ before q after, qs = before ++ q :: after →
    slot q = move^[before.countP fun p => f p = f q] (start (f q))

section
variable {move : Nat → Nat} {S : List Nat} {a : Buckets} {qs : List Nat}

@[simp] theorem length_slots_foldl_place (move : Nat → Nat) (S : List Nat) (a : Buckets) (qs : List Nat) :
    (qs.foldl (place move S) a).slots.length = a.slots.length := by
  induction qs generalizing a with
  | nil => rfl
  | cons q qs ih => simp [ih, place]

@[simp] theorem length_next_foldl_place (move : Nat → Nat) (S : List Nat) (a : Buckets) (qs : List Nat) :
    (qs.foldl (place move S) a).next.length = a.next.length := by
  induction qs generalizing a with
  | nil => rfl
  | cons q qs ih => simp [ih, place]

/-- A bucket position has moved once for each placement in its bucket. -/
theorem next_foldl_place (hS : ∀ i, symbolAt S i < a.next.length) (c : Nat) :
    (qs.foldl (place move S) a).next.getD c 0 = move^[qs.countP fun p => symbolAt S p = c] (a.next.getD c 0) := by
  induction qs using List.reverseRecOn with
  | nil => rfl
  | append_singleton qs q ih =>
    rw [List.foldl_append, List.foldl_cons, List.foldl_nil, place, List.countP_append, List.countP_singleton]
    by_cases hc : symbolAt S q = c
    · subst hc
      simp only [decide_true, if_true, Function.iterate_succ_apply', ← ih]
      simp [hS]
    · simp only [hc, decide_false, Bool.false_eq_true, if_false, Nat.add_zero, ← ih]
      simp [List.getD_eq_getElem?_getD, hc]

/-- After the placements each placed position stands in its slot, and every other slot is as it was. -/
theorem slots_foldl_place (hS : ∀ i, symbolAt S i < a.next.length) {slot : Nat → Nat}
    (hslot : PlacesAt move (symbolAt S) (fun c => a.next.getD c 0) qs slot)
    (hinj : ∀ p ∈ qs, ∀ q ∈ qs, slot p = slot q → p = q) (hlt : ∀ q ∈ qs, slot q < a.slots.length) :
    (∀ q ∈ qs, (qs.foldl (place move S) a).slots.getD (slot q) none = some q) ∧
    (∀ j, (∀ q ∈ qs, slot q ≠ j) → (qs.foldl (place move S) a).slots.getD j none = a.slots.getD j none) := by
  induction qs using List.reverseRecOn with
  | nil => exact ⟨fun q hq => by simp at hq, fun _ _ => rfl⟩
  | append_singleton qs q ih =>
    have ih := ih (fun before p after h => hslot before p (after ++ [q]) (by rw [h, List.append_assoc, List.cons_append]))
      (fun p hp p' hp' => hinj p (by simp [hp]) p' (by simp [hp'])) (fun p hp => hlt p (by simp [hp]))
    have hq : (qs.foldl (place move S) a).next.getD (symbolAt S q) 0 = slot q := by
      rw [next_foldl_place hS, hslot qs q [] rfl]
    have hslots : ((qs ++ [q]).foldl (place move S) a).slots =
        (qs.foldl (place move S) a).slots.set (slot q) (some q) := by
      rw [List.foldl_append, List.foldl_cons, List.foldl_nil, place, hq]
    have hqlt := hlt q (by simp)
    rw [hslots]
    constructor
    · intro p hp
      by_cases hpq : slot q = slot p
      · obtain rfl := hinj q (by simp) p hp hpq
        simp [hqlt]
      · obtain hp | hp := List.mem_append.1 hp
        · rw [← ih.1 p hp]
          simp [List.getD_eq_getElem?_getD, hpq]
        · exact absurd (by rw [List.mem_singleton.1 hp]) hpq
    · intro j hj
      rw [← ih.2 j fun p hp => hj p (by simp [hp])]
      simp [List.getD_eq_getElem?_getD, hj q (by simp)]

end

/-! ### Scans -/

/-- What a scan places on finding `o` in a slot: the predecessor, if there is one that `wanted` holds of. -/
def nextPlaced (wanted : Nat → Bool) (o : Option Nat) : Option Nat :=
  o.bind fun p => if 1 ≤ p ∧ wanted (p - 1) = true then some (p - 1) else none

/-- One slot of a scan: `induceLStep` and `induceSStep` in one. -/
def scanStep (move : Nat → Nat) (S : List Nat) (wanted : Nat → Bool) (a : Buckets) (j : Nat) : Buckets :=
  match nextPlaced wanted (a.slots.getD j none) with
  | none => a
  | some q => place move S a q

theorem nextPlaced_eq_some_iff {wanted : Nat → Bool} {o : Option Nat} {q : Nat} :
    nextPlaced wanted o = some q ↔ o = some (q + 1) ∧ wanted q = true := by
  cases o with
  | none => simp [nextPlaced]
  | some p =>
    simp only [nextPlaced, Option.bind_some, Option.ite_none_right_eq_some, Option.some.injEq]
    constructor
    · rintro ⟨⟨hp, hw⟩, rfl⟩
      exact ⟨(Nat.sub_add_cancel hp).symm, hw⟩
    · rintro ⟨rfl, hw⟩
      simp [hw]

theorem induceLStep_eq (S : List Nat) (t : List Bool) :
    induceLStep S t = scanStep (· + 1) S fun i => !t.getD i true := by
  funext a j
  rw [induceLStep, scanStep]
  cases a.slots.getD j none with
  | none => rfl
  | some p =>
    simp only [nextPlaced, Option.bind_some, Bool.not_eq_true', placeAtHead_eq]
    split <;> rfl

theorem induceSStep_eq (S : List Nat) (t : List Bool) :
    induceSStep S t = scanStep (· - 1) S fun i => t.getD i false := by
  funext a j
  rw [induceSStep, scanStep]
  cases a.slots.getD j none with
  | none => rfl
  | some p =>
    simp only [nextPlaced, Option.bind_some, placeAtTail_eq]
    split <;> rfl

/-- A scan of the slots `js` is the sequence of placements that `content` calls for, if it finds in each slot, after the
placements before, what calls for the same placement as `content`. -/
theorem foldl_scanStep {move : Nat → Nat} {S : List Nat} {wanted : Nat → Bool} {content : Nat → Option Nat} {a : Buckets}
    {js : List Nat}
    (h : ∀ before j after, js = before ++ j :: after →
      ((before.filterMap fun k => nextPlaced wanted (content k)).foldl (place move S) a).slots.getD j none = content j) :
    js.foldl (scanStep move S wanted) a =
      (js.filterMap fun k => nextPlaced wanted (content k)).foldl (place move S) a := by
  induction js using List.reverseRecOn with
  | nil => rfl
  | append_singleton js j ih =>
    have ih := ih fun before k after hk => h before k (after ++ [j]) (by rw [hk, List.append_assoc, List.cons_append])
    rw [List.foldl_append, ih, List.filterMap_append, List.foldl_append, List.foldl_cons, List.foldl_nil, scanStep,
      h js j [] rfl, List.filterMap_cons, List.filterMap_nil]
    cases nextPlaced wanted (content j) <;> rfl

end Sys2Proof.Machine
end

section
/-! PROOFS. Inducing an order (40_suffix_sorter.md R144): from the LMS positions at the bucket tails in an order of their
own, `Induce` computes the one array that is sorted by the order they induce. -/

namespace Sys2Proof.Machine

/-! ### Strict orders of the positions -/

/-- A strict order that is total on the positions below `n`. -/
structure StrictTotal (n : Nat) (lt : Nat → Nat → Prop) : Prop where
  irrefl : ∀ i, ¬ lt i i
  trans : ∀ {i j k}, lt i j → lt j k → lt i k
  total : ∀ {i j}, i < n → j < n → i ≠ j → lt i j ∨ lt j i

theorem StrictTotal.asymm {n : Nat} {lt : Nat → Nat → Prop} (h : StrictTotal n lt) {i j : Nat} (hij : lt i j) :
    ¬ lt j i := fun hji => h.irrefl i (h.trans hij hji)

/-- A list of positions can be sorted: each is inserted between those below it and those above it. -/
theorem StrictTotal.exists_sorted {n : Nat} {lt : Nat → Nat → Prop} (h : StrictTotal n lt) {l : List Nat}
    (hl : ∀ i ∈ l, i < n) (hnodup : l.Nodup) : ∃ A : List Nat, A.Perm l ∧ A.Pairwise lt := by
  classical
  induction l with
  | nil => exact ⟨[], .refl _, List.Pairwise.nil⟩
  | cons a l ih =>
    obtain ⟨ha, hnodup⟩ := List.nodup_cons.1 hnodup
    obtain ⟨A, hperm, hA⟩ := ih (fun i hi => hl i (List.mem_cons_of_mem _ hi)) hnodup
    refine ⟨A.filter (fun i => decide (lt i a)) ++ a :: A.filter (fun i => !decide (lt i a)), ?_, ?_⟩
    · exact List.perm_middle.trans (((List.filter_append_perm _ A).trans hperm).cons a)
    · have habove : ∀ i ∈ A.filter (fun i => !decide (lt i a)), lt a i := fun i hi => by
        simp only [List.mem_filter, Bool.not_eq_true', decide_eq_false_iff_not] at hi
        have hil := hperm.mem_iff.1 hi.1
        exact (h.total (hl a (by simp)) (hl i (List.mem_cons_of_mem _ hil)) fun heq => ha (heq ▸ hil)).resolve_right hi.2
      refine List.pairwise_append.2 ⟨hA.filter _, List.pairwise_cons.2 ⟨habove, hA.filter _⟩, fun i hi j hj => ?_⟩
      simp only [List.mem_filter, decide_eq_true_eq] at hi
      obtain rfl | hj := List.mem_cons.1 hj
      · exact hi.2
      · exact h.trans hi.2 (habove j hj)

/-! ### Slots by counting in buckets -/

open Classical in
/-- How many entries of `l` in the bucket of `q` come before `q` in the order `r`. -/
noncomputable def bucketBefore (f : Nat → Nat) (r : Nat → Nat → Prop) (l : List Nat) (q : Nat) : Nat :=
  l.countP fun p => f p = f q ∧ r p q

section
variable {f : Nat → Nat} {r : Nat → Nat → Prop}

theorem bucketBefore_perm {l l' : List Nat} (h : l.Perm l') (q : Nat) : bucketBefore f r l q = bucketBefore f r l' q :=
  h.countP_eq _

/-- In a list sorted in each bucket, those before `q` are those below it. -/
theorem countP_before {l before after : List Nat} {q : Nat} (hl : l.Pairwise fun p p' => f p = f p' → r p p')
    (hasymm : ∀ {p p'}, r p p' → ¬ r p' p) (h : l = before ++ q :: after) :
    before.countP (fun p => f p = f q) = bucketBefore f r l q := by
  classical
  subst h
  obtain ⟨-, hqafter, hbefore⟩ := List.pairwise_append.1 hl
  obtain ⟨hafter, -⟩ := List.pairwise_cons.1 hqafter
  have hzero : after.countP (fun p => decide (f p = f q ∧ r p q)) = 0 := by
    rw [List.countP_eq_zero]
    intro p hp
    simpa using fun heq => hasymm (hafter p hp heq.symm)
  have hq : ¬ (f q = f q ∧ r q q) := fun h => hasymm h.2 h.2
  rw [bucketBefore, List.countP_append, List.countP_cons_of_neg (by simpa using hq), hzero, Nat.add_zero]
  refine List.countP_congr fun p hp => ?_
  simpa using fun heq => hbefore p hp q (by simp) heq

/-- Placements sorted in each bucket, of positions that fill the front (or the back) of their buckets: a slot counts the
positions of the bucket before it. -/
theorem placesAt_of_sorted {move start slot : Nat → Nat} {n : Nat} {qs : List Nat} {chosen : Nat → Bool}
    (hperm : qs.Perm ((List.range n).filter chosen)) (hsorted : qs.Pairwise fun p q => f p = f q → r p q)
    (hasymm : ∀ {p q}, r p q → ¬ r q p)
    (hclosed : ∀ q < n, chosen q = true → ∀ p < n, f p = f q → r p q → chosen p = true)
    (hslot : ∀ q < n, chosen q = true → slot q = move^[bucketBefore f r (List.range n) q] (start (f q))) :
    PlacesAt move f start qs slot := by
  classical
  intro before q after hqs
  obtain ⟨hq, hchosen⟩ : q < n ∧ chosen q = true := by simpa using hperm.mem_iff.1 (by simp [hqs] : q ∈ qs)
  have hcount : bucketBefore f r (List.range n) q = bucketBefore f r ((List.range n).filter chosen) q := by
    unfold bucketBefore
    rw [List.countP_filter]
    refine List.countP_congr fun p hp => ?_
    simpa using fun heq hr => hclosed q hq hchosen p (List.mem_range.1 hp) heq hr
  rw [hslot q hq hchosen, countP_before hsorted hasymm hqs, bucketBefore_perm hperm, hcount]

end

section
variable {S A : List Nat} {lt : Nat → Nat → Prop}

theorem map_symbolAt_range (S : List Nat) : (List.range S.length).map (symbolAt S) = S := by
  refine List.ext_getElem (by simp) fun i h1 h2 => ?_
  simp [symbolAt_of_lt h2]

/-- Counting symbols is counting positions. -/
theorem countP_eq_countP_range (S : List Nat) (P : Nat → Bool) :
    S.countP P = (List.range S.length).countP fun i => P (symbolAt S i) := by
  conv_lhs => rw [← map_symbolAt_range S, List.countP_map]
  rfl

/-- A sorted list is sorted in each bucket. -/
theorem pairwise_in_buckets (f : Nat → Nat) (h : A.Pairwise lt) : A.Pairwise fun p q => f p = f q → lt p q :=
  List.Pairwise.imp (S := fun p q => f p = f q → lt p q) (fun hpq _ => hpq) h

/-- An array sorted by an order that refines the symbols has `q` at the head of its bucket plus the number of positions
of the bucket below it. -/
theorem idxOf_eq_head_add (hA : A.Perm (List.range S.length)) (hsorted : A.Pairwise lt)
    (hlt : ∀ {i j}, symbolAt S i < symbolAt S j → lt i j) (hasymm : ∀ {i j}, lt i j → ¬ lt j i) {q : Nat}
    (hq : q < S.length) : A.idxOf q = S.countP (fun d => d < symbolAt S q) +
      bucketBefore (symbolAt S) lt (List.range S.length) q := by
  obtain ⟨before, after, hsplit⟩ := List.append_of_mem (hA.mem_iff.2 (List.mem_range.2 hq))
  have hidx : A.idxOf q = before.length := by
    have hnodup : A.Nodup := hA.nodup_iff.2 List.nodup_range
    rw [hsplit, List.nodup_append] at hnodup
    rw [hsplit, List.idxOf_append_of_notMem fun h => hnodup.2.2 q h q (by simp) rfl, List.idxOf_cons_self, Nat.add_zero]
  have hcount : S.countP (fun d => d < symbolAt S q) = before.countP fun p => symbolAt S p < symbolAt S q := by
    rw [countP_eq_countP_range, ← hA.countP_eq, hsplit, List.countP_append]
    refine Nat.add_eq_left.2 (List.countP_eq_zero.2 fun p hp => ?_)
    have hle : ¬ lt p q := by
      rw [hsplit] at hsorted
      obtain rfl | hp := List.mem_cons.1 hp
      · exact fun h => hasymm h h
      · exact hasymm ((List.pairwise_cons.1 (List.pairwise_append.1 hsorted).2.1).1 p hp)
    simpa using fun h => hle (hlt h)
  rw [hidx, hcount, ← bucketBefore_perm hA, ← countP_before (pairwise_in_buckets _ hsorted) hasymm hsplit,
    List.length_eq_countP_add_countP (fun p => decide (symbolAt S p < symbolAt S q))]
  congr 1
  refine List.countP_congr fun p hp => ?_
  have hge : ¬ symbolAt S q < symbolAt S p := fun h => by
    rw [hsplit] at hsorted
    exact hasymm ((List.pairwise_append.1 hsorted).2.2 p hp q (by simp)) (hlt h)
  simp
  omega

/-- The positions of a bucket are `q`, those below it and those above it. -/
theorem count_eq_bucketBefore (hA : A.Perm (List.range S.length)) (hsorted : A.Pairwise lt)
    (hasymm : ∀ {i j}, lt i j → ¬ lt j i) {q : Nat} (hq : q < S.length) :
    S.count (symbolAt S q) = bucketBefore (symbolAt S) lt (List.range S.length) q +
      bucketBefore (symbolAt S) (flip lt) (List.range S.length) q + 1 := by
  obtain ⟨before, after, hsplit⟩ := List.append_of_mem (hA.mem_iff.2 (List.mem_range.2 hq))
  have hcount : S.count (symbolAt S q) = A.countP fun p => symbolAt S p = symbolAt S q := by
    rw [List.count, countP_eq_countP_range, ← hA.countP_eq]
    exact List.countP_congr fun p _ => by simp
  have hbelow := countP_before (pairwise_in_buckets (symbolAt S) hsorted) hasymm hsplit
  have habove := countP_before (f := symbolAt S) (r := flip lt) (l := A.reverse) (before := after.reverse)
    (after := before.reverse) (q := q) (pairwise_in_buckets _ (List.pairwise_reverse.2 hsorted)) hasymm (by simp [hsplit])
  rw [bucketBefore_perm hA] at hbelow
  rw [List.countP_reverse, bucketBefore_perm ((List.reverse_perm A).trans hA)] at habove
  rw [hcount, hsplit, List.countP_append, List.countP_cons, hbelow, habove]
  simp
  omega

theorem getD_bucketHeads {K c : Nat} (hc : c < K) : (bucketHeads S K).getD c 0 = S.countP fun d => d < c := by
  simp [bucketHeads, hc]

theorem getD_bucketTails {K c : Nat} (hc : c < K) :
    (bucketTails S K).getD c 0 = (S.countP fun d => d < c) + S.count c - 1 := by
  simp [bucketTails, hc]

theorem iterate_add_one (k x : Nat) : (· + 1)^[k] x = x + k := by
  induction k with
  | zero => rfl
  | succ k ih => rw [Function.iterate_succ_apply', ih, Nat.add_assoc]

theorem iterate_sub_one (k x : Nat) : (· - 1)^[k] x = x - k := by
  induction k with
  | zero => rfl
  | succ k ih => rw [Function.iterate_succ_apply', ih, Nat.sub_sub]

/-- From the bucket head: one slot up for each position of the bucket below (40_suffix_sorter.md R144). -/
theorem idxOf_eq_iterate_head (hA : A.Perm (List.range S.length)) (hsorted : A.Pairwise lt)
    (hlt : ∀ {i j}, symbolAt S i < symbolAt S j → lt i j) (hasymm : ∀ {i j}, lt i j → ¬ lt j i) {q K : Nat}
    (hq : q < S.length) (hK : symbolAt S q < K) : A.idxOf q =
      (· + 1)^[bucketBefore (symbolAt S) lt (List.range S.length) q] ((bucketHeads S K).getD (symbolAt S q) 0) := by
  rw [iterate_add_one, getD_bucketHeads hK, idxOf_eq_head_add hA hsorted hlt hasymm hq]

/-- From the bucket tail: one slot down for each position of the bucket above (40_suffix_sorter.md R144). -/
theorem idxOf_eq_iterate_tail (hA : A.Perm (List.range S.length)) (hsorted : A.Pairwise lt)
    (hlt : ∀ {i j}, symbolAt S i < symbolAt S j → lt i j) (hasymm : ∀ {i j}, lt i j → ¬ lt j i) {q K : Nat}
    (hq : q < S.length) (hK : symbolAt S q < K) : A.idxOf q =
      (· - 1)^[bucketBefore (symbolAt S) (flip lt) (List.range S.length) q] ((bucketTails S K).getD (symbolAt S q) 0) := by
  rw [iterate_sub_one, getD_bucketTails hK, idxOf_eq_head_add hA hsorted hlt hasymm hq,
    count_eq_bucketBefore hA hsorted hasymm hq]
  omega

end

/-! ### A scan of a sorted array -/

/-- The array `A` with the positions that `keep` does not hold of left out of their slots. -/
def visible (A : List Nat) (keep : Nat → Bool) (j : Nat) : Option Nat := A[j]?.filter keep

theorem visible_eq_some_iff {A : List Nat} (hA : A.Nodup) {keep : Nat → Bool} {j p : Nat} :
    visible A keep j = some p ↔ (p ∈ A ∧ A.idxOf p = j) ∧ keep p = true := by
  rw [visible, Option.filter_eq_some_iff]
  refine and_congr_left fun _ => ?_
  constructor
  · intro h
    obtain ⟨hj, rfl⟩ := List.getElem?_eq_some_iff.1 h
    exact ⟨List.getElem_mem hj, hA.idxOf_getElem j hj⟩
  · rintro ⟨hp, rfl⟩
    exact List.getElem?_idxOf hp

/-- What a scan places: the positions that `wanted` holds of, but the last. -/
def placedBy (n : Nat) (wanted : Nat → Bool) (q : Nat) : Bool := wanted q && decide (q + 1 < n)

theorem placedBy_iff {n : Nat} {wanted : Nat → Bool} {q : Nat} :
    placedBy n wanted q = true ↔ wanted q = true ∧ q + 1 < n := by
  simp [placedBy]

section
variable {S A js : List Nat} {move : Nat → Nat} {r : Nat → Nat → Prop} {wanted keep : Nat → Bool} {a : Buckets}

/-- What a scan must be so that it completes the array `A`: its slots count in buckets, it comes to a successor before the
position itself, the successors come in the order of the positions, and what it does not place is there. -/
structure ScanOf (S A js : List Nat) (move : Nat → Nat) (r : Nat → Nat → Prop) (wanted keep : Nat → Bool) (a : Buckets) :
    Prop where
  perm : A.Perm (List.range S.length)
  all_slots : js.Perm (List.range S.length)
  slots_length : a.slots.length = S.length
  symbol_lt : ∀ i, symbolAt S i < a.next.length
  keeps : ∀ {q}, placedBy S.length wanted q = true → keep q = true ∧ keep (q + 1) = true
  asymm : ∀ {p q}, r p q → ¬ r q p
  closed : ∀ {p q}, placedBy S.length wanted q = true → p < S.length → symbolAt S p = symbolAt S q → r p q →
    placedBy S.length wanted p = true
  slot : ∀ {q}, placedBy S.length wanted q = true →
    A.idxOf q = move^[bucketBefore (symbolAt S) r (List.range S.length) q] (a.next.getD (symbolAt S q) 0)
  in_order : js.Pairwise fun j j' => ∀ q q', placedBy S.length wanted q = true → placedBy S.length wanted q' = true →
    A.idxOf (q + 1) = j → A.idxOf (q' + 1) = j' → symbolAt S q = symbolAt S q' → r q q'
  in_time : ∀ {before j after}, js = before ++ j :: after → ∀ {q}, placedBy S.length wanted q = true →
    A.idxOf q = j → A.idxOf (q + 1) ∈ before
  init : ∀ j < S.length, (∀ q, placedBy S.length wanted q = true → A.idxOf q ≠ j) →
    a.slots.getD j none = visible A keep j

/-- What the scan places, in its order. -/
def scanPlaced (A : List Nat) (wanted keep : Nat → Bool) (js : List Nat) : List Nat :=
  js.filterMap fun j => nextPlaced wanted (visible A keep j)

theorem ScanOf.nodup (h : ScanOf S A js move r wanted keep a) : A.Nodup := h.perm.nodup_iff.2 List.nodup_range

theorem ScanOf.mem (h : ScanOf S A js move r wanted keep a) {i : Nat} : i ∈ A ↔ i < S.length :=
  h.perm.mem_iff.trans List.mem_range

theorem ScanOf.mem_scanPlaced (h : ScanOf S A js move r wanted keep a) {ks : List Nat} {q : Nat} :
    q ∈ scanPlaced A wanted keep ks ↔ placedBy S.length wanted q = true ∧ A.idxOf (q + 1) ∈ ks := by
  simp only [scanPlaced, List.mem_filterMap, nextPlaced_eq_some_iff, visible_eq_some_iff h.nodup, h.mem, placedBy_iff]
  constructor
  · rintro ⟨j, hj, ⟨⟨hq, rfl⟩, -⟩, hw⟩
    exact ⟨⟨hw, hq⟩, hj⟩
  · rintro ⟨⟨hw, hq⟩, hj⟩
    exact ⟨_, hj, ⟨⟨hq, rfl⟩, (h.keeps (placedBy_iff.2 ⟨hw, hq⟩)).2⟩, hw⟩

theorem ScanOf.scanPlaced_nodup (h : ScanOf S A js move r wanted keep a) : (scanPlaced A wanted keep js).Nodup := by
  refine List.Nodup.filterMap (fun j j' q hj hj' => ?_) (h.all_slots.nodup_iff.2 List.nodup_range)
  rw [Option.mem_def, nextPlaced_eq_some_iff, visible_eq_some_iff h.nodup] at hj hj'
  exact hj.1.1.2.symm.trans hj'.1.1.2

theorem ScanOf.scanPlaced_perm (h : ScanOf S A js move r wanted keep a) :
    (scanPlaced A wanted keep js).Perm ((List.range S.length).filter (placedBy S.length wanted)) := by
  refine (List.perm_ext_iff_of_nodup h.scanPlaced_nodup (List.nodup_range.filter _)).2 fun q => ?_
  rw [h.mem_scanPlaced, List.mem_filter, List.mem_range, and_comm]
  refine and_congr_left fun hq => ?_
  obtain ⟨-, hlt⟩ := placedBy_iff.1 hq
  refine iff_of_true (h.all_slots.mem_iff.2 (List.mem_range.2 ?_)) (by omega)
  simpa [h.perm.length_eq] using List.idxOf_lt_length_of_mem (h.mem.2 hlt)

theorem ScanOf.placesAt (h : ScanOf S A js move r wanted keep a) :
    PlacesAt move (symbolAt S) (fun c => a.next.getD c 0) (scanPlaced A wanted keep js) A.idxOf := by
  refine placesAt_of_sorted h.scanPlaced_perm ?_ h.asymm (fun q _ hq p hp => h.closed hq hp) fun q _ hq => h.slot hq
  refine List.pairwise_filterMap.2 (h.in_order.imp fun {j j'} hjj q hq q' hq' heq => ?_)
  rw [nextPlaced_eq_some_iff, visible_eq_some_iff h.nodup, h.mem] at hq hq'
  exact hjj q q' (placedBy_iff.2 ⟨hq.2, hq.1.1.1⟩) (placedBy_iff.2 ⟨hq'.2, hq'.1.1.1⟩) hq.1.1.2 hq'.1.1.2 heq

/-- After the placements of the first slots, a slot holds its entry if the scan has come to what places that. -/
theorem ScanOf.slots_before (h : ScanOf S A js move r wanted keep a) {before after : List Nat} (hjs : js = before ++ after)
    {j : Nat} (hj : j < S.length)
    (htime : ∀ q, placedBy S.length wanted q = true → A.idxOf q = j → A.idxOf (q + 1) ∈ before) :
    ((scanPlaced A wanted keep before).foldl (place move S) a).slots.getD j none = visible A keep j := by
  have hmem {q : Nat} (hq : q ∈ scanPlaced A wanted keep before) : placedBy S.length wanted q = true ∧ q ∈ A := by
    obtain ⟨hq, -⟩ := h.mem_scanPlaced.1 hq
    have := (placedBy_iff.1 hq).2
    exact ⟨hq, h.mem.2 (by omega)⟩
  have hsplit : scanPlaced A wanted keep js = scanPlaced A wanted keep before ++ scanPlaced A wanted keep after := by
    rw [hjs, scanPlaced, List.filterMap_append]
    rfl
  obtain ⟨hin, hout⟩ := slots_foldl_place (qs := scanPlaced A wanted keep before) h.symbol_lt
    (fun b q c hbc => h.placesAt b q (c ++ scanPlaced A wanted keep after) (by
      rw [hsplit, hbc, List.append_assoc, List.cons_append]))
    (fun p hp q _ heq => (List.idxOf_inj (hmem hp).2).1 heq)
    (fun q hq => by simpa [h.slots_length, h.perm.length_eq] using List.idxOf_lt_length_of_mem (hmem hq).2)
  by_cases hplaced : ∃ q, placedBy S.length wanted q = true ∧ A.idxOf q = j
  · obtain ⟨q, hq, rfl⟩ := hplaced
    have hqmem := h.mem_scanPlaced.2 ⟨hq, htime q hq rfl⟩
    rw [hin q hqmem, eq_comm, visible_eq_some_iff h.nodup]
    exact ⟨⟨(hmem hqmem).2, rfl⟩, (h.keeps hq).1⟩
  · have hne : ∀ q, placedBy S.length wanted q = true → A.idxOf q ≠ j := fun q hq heq => hplaced ⟨q, hq, heq⟩
    rw [hout j fun q hq => hne q (hmem hq).1, h.init j hj hne]

/-- Such a scan completes the array: every slot holds its entry in the end. -/
theorem ScanOf.slots (h : ScanOf S A js move r wanted keep a) {j : Nat} (hj : j < S.length) :
    (js.foldl (scanStep move S wanted) a).slots.getD j none = visible A keep j := by
  have hscan : js.foldl (scanStep move S wanted) a = (scanPlaced A wanted keep js).foldl (place move S) a :=
    foldl_scanStep (content := visible A keep) fun before k after hjs => h.slots_before hjs
      (List.mem_range.1 (h.all_slots.mem_iff.1 (by simp [hjs]))) fun _ hq hk => h.in_time hjs hq hk
  rw [hscan]
  refine h.slots_before (List.append_nil js).symm hj fun q hq _ => ?_
  obtain ⟨-, hlt⟩ := placedBy_iff.1 hq
  refine h.all_slots.mem_iff.2 (List.mem_range.2 ?_)
  simpa [h.perm.length_eq] using List.idxOf_lt_length_of_mem (h.mem.2 hlt)

end

@[simp] theorem length_slots_foldl_scanStep (move : Nat → Nat) (S : List Nat) (wanted : Nat → Bool) (a : Buckets)
    (js : List Nat) : (js.foldl (scanStep move S wanted) a).slots.length = a.slots.length := by
  induction js generalizing a with
  | nil => rfl
  | cons j js ih =>
    rw [List.foldl_cons, ih, scanStep]
    cases nextPlaced wanted (a.slots.getD j none) with
    | none => rfl
    | some q => simp [place]

end Sys2Proof.Machine
end

section
/-! PROOFS. `Induce` sorts by the order that its seeds induce (40_suffix_sorter.md R144): the seeding, the left-to-right
scan and the right-to-left scan each complete an array that is sorted. -/

namespace Sys2Proof.Machine

/-! ### The order of the left-to-right scan -/

/-- Where a position stands in its bucket during the left-to-right scan: L-types at the head, LMS positions at the tail. -/
def scanClass (S : List Nat) (i : Nat) : Nat := if lmsAt S i then 2 else if typeAt S i then 1 else 0

/-- The order in which the left-to-right scan meets positions: by symbol, by place in the bucket, LMS positions in the
order `seed` and the others in the order `lt`. -/
def scanLt (S : List Nat) (seed lt : Nat → Nat → Prop) (i j : Nat) : Prop :=
  symbolAt S i < symbolAt S j ∨ symbolAt S i = symbolAt S j ∧
    (scanClass S i < scanClass S j ∨ scanClass S i = scanClass S j ∧ if lmsAt S i then seed i j else lt i j)

/-- The order `lt` of the positions is the one that the order `seed` of the LMS positions induces
(40_suffix_sorter.md R144). -/
structure InduceOrder (S : List Nat) (seed lt : Nat → Nat → Prop) : Prop where
  order : StrictTotal S.length lt
  seeds : StrictTotal S.length seed
  of_symbol : ∀ {i j}, symbolAt S i < symbolAt S j → lt i j
  of_type : ∀ {i j}, i < S.length → j < S.length → symbolAt S i = symbolAt S j → typeAt S i = false →
    typeAt S j = true → lt i j
  of_next_L : ∀ {i j}, i + 1 < S.length → j + 1 < S.length → symbolAt S i = symbolAt S j → typeAt S i = false →
    typeAt S j = false → scanLt S seed lt (i + 1) (j + 1) → lt i j
  of_next_S : ∀ {i j}, i + 1 < S.length → j + 1 < S.length → symbolAt S i = symbolAt S j → typeAt S i = true →
    typeAt S j = true → lt (i + 1) (j + 1) → lt i j

section
variable {S : List Nat} {i j : Nat}

theorem scanClass_eq_two_iff : scanClass S i = 2 ↔ lmsAt S i = true := by
  rw [scanClass]
  split
  · simpa
  · split <;> simp_all

theorem scanClass_le_two (S : List Nat) (i : Nat) : scanClass S i ≤ 2 := by
  rw [scanClass]
  split
  · omega
  · split <;> omega

theorem scanClass_eq_zero_iff : scanClass S i = 0 ↔ typeAt S i = false := by
  rw [scanClass]
  split
  · rename_i h
    simp [(lmsAt_iff.1 h).2.1]
  · split <;> simp_all

theorem not_lmsAt_of_typeAt_false (h : typeAt S i = false) : lmsAt S i = false :=
  Bool.eq_false_iff.2 fun hl => by simp [(lmsAt_iff.1 hl).2.1] at h

theorem lmsAt_congr_of_scanClass (h : scanClass S i = scanClass S j) : lmsAt S i = lmsAt S j := by
  rw [Bool.eq_iff_iff, ← scanClass_eq_two_iff, ← scanClass_eq_two_iff, h]

variable {seed lt : Nat → Nat → Prop}

theorem scanLt_of_symbol (h : symbolAt S i < symbolAt S j) : scanLt S seed lt i j := .inl h

theorem scanLt_strictTotal (h : InduceOrder S seed lt) : StrictTotal S.length (scanLt S seed lt) := by
  refine ⟨fun i hi => ?_, fun {i j k} hij hjk => ?_, fun {i j} hi hj hne => ?_⟩
  · obtain hlt | ⟨-, hlt | ⟨-, hlt⟩⟩ := hi
    · omega
    · omega
    · split at hlt
      · exact h.seeds.irrefl i hlt
      · exact h.order.irrefl i hlt
  · obtain hlt | ⟨heq, hin⟩ := hij <;> obtain hlt' | ⟨heq', hin'⟩ := hjk
    · exact .inl (by omega)
    · exact .inl (by omega)
    · exact .inl (by omega)
    · refine .inr ⟨by omega, ?_⟩
      obtain hc | ⟨hc, hr⟩ := hin <;> obtain hc' | ⟨hc', hr'⟩ := hin'
      · exact .inl (by omega)
      · exact .inl (by omega)
      · exact .inl (by omega)
      · refine .inr ⟨hc.trans hc', ?_⟩
        rw [← lmsAt_congr_of_scanClass hc] at hr'
        split at hr <;> rename_i hl
        · rw [if_pos hl] at hr' ⊢
          exact h.seeds.trans hr hr'
        · rw [if_neg hl] at hr' ⊢
          exact h.order.trans hr hr'
  · obtain hlt | heq | hgt := Nat.lt_trichotomy (symbolAt S i) (symbolAt S j)
    · exact .inl (.inl hlt)
    · obtain hc | hc | hc := Nat.lt_trichotomy (scanClass S i) (scanClass S j)
      · exact .inl (.inr ⟨heq, .inl hc⟩)
      · have hlms := lmsAt_congr_of_scanClass hc
        by_cases hl : lmsAt S i = true
        · refine (h.seeds.total hi hj hne).imp (fun hr => ?_) fun hr => ?_
          · exact .inr ⟨heq, .inr ⟨hc, by rwa [if_pos hl]⟩⟩
          · exact .inr ⟨heq.symm, .inr ⟨hc.symm, by rwa [if_pos (hlms ▸ hl)]⟩⟩
        · refine (h.order.total hi hj hne).imp (fun hr => ?_) fun hr => ?_
          · exact .inr ⟨heq, .inr ⟨hc, by rwa [if_neg hl]⟩⟩
          · exact .inr ⟨heq.symm, .inr ⟨hc.symm, by rwa [if_neg (hlms ▸ hl)]⟩⟩
      · exact .inr (.inr ⟨heq.symm, .inl hc⟩)
    · exact .inr (.inl hgt)

/-- Within a bucket the L-types come first, in the order `lt`. -/
theorem scanLt_iff_of_typeAt_false (heq : symbolAt S i = symbolAt S j) (hj : typeAt S j = false) :
    scanLt S seed lt i j ↔ typeAt S i = false ∧ lt i j := by
  have hj0 := scanClass_eq_zero_iff.2 hj
  simp only [scanLt, heq, Nat.lt_irrefl, false_or, true_and, hj0, Nat.not_lt_zero, scanClass_eq_zero_iff]
  refine and_congr_right fun hi => ?_
  rw [if_neg (by simp [not_lmsAt_of_typeAt_false hi])]

/-- Within a bucket the LMS positions come last, in the order `seed`. -/
theorem scanLt_iff_of_lmsAt (heq : symbolAt S i = symbolAt S j) (hi : lmsAt S i = true) :
    scanLt S seed lt i j ↔ lmsAt S j = true ∧ seed i j := by
  have hi2 := scanClass_eq_two_iff.2 hi
  have hle := scanClass_le_two S j
  simp only [scanLt, heq, Nat.lt_irrefl, false_or, true_and, hi2, if_pos hi, eq_comm (a := 2), scanClass_eq_two_iff,
    or_iff_right (by omega : ¬ 2 < scanClass S j)]

/-- An L-type is met after its successor. -/
theorem scanLt_succ (h : InduceOrder S seed lt) (hi : i < S.length) (ht : typeAt S i = false) :
    scanLt S seed lt (i + 1) i := by
  induction hd : S.length - i using Nat.strongRecOn generalizing i with
  | _ d ih =>
    have hi1 := succ_lt_of_typeAt_false hi ht
    obtain hlt | ⟨heq, ht1⟩ := next_of_typeAt_false hi ht
    · exact .inl hlt
    · have hnext := ih _ (by omega) hi1 ht1 rfl
      have hi2 := succ_lt_of_typeAt_false hi1 ht1
      exact (scanLt_iff_of_typeAt_false heq ht).2 ⟨ht1, h.of_next_L hi2 hi1 heq ht1 ht hnext⟩

/-- An S-type but the last is below its successor. -/
theorem lt_succ_of_typeAt (h : InduceOrder S seed lt) (hS : EndsAt (symbolAt S) (S.length - 1))
    (hi : i + 1 < S.length) (ht : typeAt S i = true) : lt i (i + 1) := by
  induction hd : S.length - i using Nat.strongRecOn generalizing i with
  | _ d ih =>
    obtain hlt | ⟨heq, ht1⟩ := (typeAt_iff hi).1 ht
    · exact h.of_symbol hlt
    · have hi2 : i + 1 + 1 < S.length := by
        have := hS.1 i (by omega)
        have := hS.2 (i + 1)
        omega
      exact h.of_next_S hi hi2 heq ht ht1 (ih _ (by omega) hi2 ht1 rfl)

end

/-! ### The three phases -/

section
variable {S A B ps : List Nat} {seed lt : Nat → Nat → Prop} {K : Nat}

/-- What the left-to-right scan places: the L-types. -/
def wantedL (S : List Nat) (i : Nat) : Bool := !(suffixTypes S).getD i true

/-- What the right-to-left scan places: the S-types, of which the last has no successor. -/
def wantedS (S : List Nat) (i : Nat) : Bool := (suffixTypes S).getD i false

theorem placedBy_wantedL_iff {q : Nat} : placedBy S.length (wantedL S) q = true ↔ q < S.length ∧ typeAt S q = false := by
  rw [placedBy_iff, wantedL, Bool.not_eq_true']
  constructor
  · rintro ⟨ht, hq⟩
    exact ⟨by omega, by rwa [getD_suffixTypes (by omega)] at ht⟩
  · rintro ⟨hq, ht⟩
    exact ⟨by rwa [getD_suffixTypes hq], succ_lt_of_typeAt_false hq ht⟩

theorem placedBy_wantedS_iff {q : Nat} : placedBy S.length (wantedS S) q = true ↔ typeAt S q = true ∧ q + 1 < S.length :=
  placedBy_iff

/-- What stands in the slots when the left-to-right scan is over: L-types and seeds. -/
def visibleL (S : List Nat) (i : Nat) : Bool := !typeAt S i || lmsAt S i

theorem mem_before_of_range {n k j : Nat} {before after : List Nat} (h : List.range n = before ++ j :: after) (hk : k < j) :
    k ∈ before := by
  have hsorted := List.pairwise_lt_range (n := n)
  rw [h] at hsorted
  obtain ⟨-, hafter, -⟩ := List.pairwise_append.1 hsorted
  have hj : j < n := List.mem_range.1 (by rw [h]; simp)
  have hkn : k ∈ before ++ j :: after := h ▸ List.mem_range.2 (by omega)
  obtain hkb | hka := List.mem_append.1 hkn
  · exact hkb
  · obtain rfl | hka := List.mem_cons.1 hka
    · omega
    · have := (List.pairwise_cons.1 hafter).1 k hka
      omega

theorem mem_before_of_reverse_range {n k j : Nat} {before after : List Nat}
    (h : (List.range n).reverse = before ++ j :: after) (hk : j < k) (hkn : k < n) : k ∈ before := by
  have hsorted : (List.range n).reverse.Pairwise (fun a b => b < a) :=
    List.pairwise_reverse.2 List.pairwise_lt_range
  rw [h] at hsorted
  obtain ⟨-, hafter, -⟩ := List.pairwise_append.1 hsorted
  have hmem : k ∈ before ++ j :: after := h ▸ List.mem_reverse.2 (List.mem_range.2 hkn)
  obtain hkb | hka := List.mem_append.1 hmem
  · exact hkb
  · obtain rfl | hka := List.mem_cons.1 hka
    · omega
    · have := (List.pairwise_cons.1 hafter).1 k hka
      omega

theorem length_seedTails (S : List Nat) (K : Nat) (ps : List Nat) : (seedTails S K ps).length = S.length := by
  rw [seedTails, placeAtTail_eq, length_slots_foldl_place, List.length_replicate]

/-- The seeds stand at the tails of their buckets, in their own order (40_suffix_sorter.md R144). -/
theorem slots_seedTails (h : InduceOrder S seed lt) (hK : ∀ i, symbolAt S i < K) (hA : A.Perm (List.range S.length))
    (hsorted : A.Pairwise (scanLt S seed lt)) (hps : ps.Perm (lmsList S)) (hseed : ps.Pairwise seed) {j : Nat}
    (hj : j < S.length) : (seedTails S K ps.reverse).getD j none = visible A (lmsAt S) j := by
  have htotal := scanLt_strictTotal h
  have hmem {q : Nat} : q ∈ ps.reverse ↔ lmsAt S q = true := by rw [List.mem_reverse, hps.mem_iff, mem_lmsList]
  have hmemA {q : Nat} (hq : q ∈ ps.reverse) : q ∈ A :=
    hA.mem_iff.2 (List.mem_range.2 (lt_length_of_lmsAt (hmem.1 hq)))
  have hplaces : PlacesAt (· - 1) (symbolAt S) (fun c => (bucketTails S K).getD c 0) ps.reverse A.idxOf := by
    refine placesAt_of_sorted (r := flip (scanLt S seed lt)) ((List.reverse_perm ps).trans hps) ?_ htotal.asymm ?_ ?_
    · refine List.pairwise_reverse.2 (hseed.imp_of_mem fun {p q} hp hq hpq heq => ?_)
      have hp := hmem.1 (List.mem_reverse.2 hp)
      have hq := hmem.1 (List.mem_reverse.2 hq)
      exact (scanLt_iff_of_lmsAt heq.symm hp).2 ⟨hq, hpq⟩
    · exact fun q _ hq p _ heq hlt => ((scanLt_iff_of_lmsAt heq.symm hq).1 hlt).1
    · exact fun q hq _ => idxOf_eq_iterate_tail hA hsorted scanLt_of_symbol htotal.asymm hq (hK _)
  obtain ⟨hin, hout⟩ := slots_foldl_place (a := ⟨List.replicate S.length none, bucketTails S K⟩)
    (by simpa [bucketTails] using hK) hplaces (fun p hp q _ heq => (List.idxOf_inj (hmemA hp)).1 heq)
    (fun q hq => by simpa [hA.length_eq] using List.idxOf_lt_length_of_mem (hmemA hq))
  rw [seedTails, placeAtTail_eq]
  obtain hnone | ⟨q, hq⟩ := Option.eq_none_or_eq_some (visible A (lmsAt S) j)
  · rw [hnone, hout j fun q hq hqj => ?_]
    · simp [hj]
    · have := (visible_eq_some_iff (hA.nodup_iff.2 List.nodup_range)).2 ⟨⟨hmemA hq, hqj⟩, hmem.1 hq⟩
      simp [hnone] at this
  · obtain ⟨⟨-, rfl⟩, hlms⟩ := (visible_eq_some_iff (hA.nodup_iff.2 List.nodup_range)).1 hq
    rw [hq, hin q (hmem.2 hlms)]

/-- The left-to-right scan completes the array of L-types and seeds (40_suffix_sorter.md R144). -/
theorem scanOf_L (h : InduceOrder S seed lt) (hK : ∀ i, symbolAt S i < K) (hA : A.Perm (List.range S.length))
    (hsorted : A.Pairwise (scanLt S seed lt)) {slots : List (Option Nat)} (hlen : slots.length = S.length)
    (hslots : ∀ j < S.length, slots.getD j none = visible A (lmsAt S) j) :
    ScanOf S A (List.range S.length) (· + 1) (scanLt S seed lt) (wantedL S) (visibleL S)
      { slots := slots, next := bucketHeads S K } := by
  have htotal := scanLt_strictTotal h
  have hnodup : A.Nodup := hA.nodup_iff.2 List.nodup_range
  have hmem {q : Nat} : q ∈ A ↔ q < S.length := hA.mem_iff.trans List.mem_range
  have hidx {p q : Nat} (hp : p < S.length) (hq : q < S.length) : A.idxOf p < A.idxOf q ↔ scanLt S seed lt p q :=
    idxOf_lt_idxOf_iff htotal.asymm hsorted (hmem.2 hp) (hmem.2 hq)
  refine ⟨hA, .refl _, hlen, by simpa [bucketHeads] using hK, fun {q} hq => ?_, htotal.asymm, fun {p q} hq hp heq hlt => ?_,
    fun {q} hq => ?_, ?_, fun {before j after} hjs {q} hq hqj => ?_, fun j hj hne => ?_⟩
  · obtain ⟨-, ht⟩ := placedBy_wantedL_iff.1 hq
    refine ⟨by simp [visibleL, ht], ?_⟩
    cases ht1 : typeAt S (q + 1) with
    | false => simp [visibleL, ht1]
    | true => simp [visibleL, lmsAt_succ_iff.2 ⟨ht1, ht⟩]
  · obtain ⟨-, ht⟩ := placedBy_wantedL_iff.1 hq
    exact placedBy_wantedL_iff.2 ⟨hp, ((scanLt_iff_of_typeAt_false heq ht).1 hlt).1⟩
  · exact idxOf_eq_iterate_head hA hsorted scanLt_of_symbol htotal.asymm (placedBy_wantedL_iff.1 hq).1 (hK _)
  · refine List.pairwise_lt_range.imp fun {j j'} hjj q q' hq hq' hqj hqj' heq => ?_
    obtain ⟨hqlt, ht⟩ := placedBy_wantedL_iff.1 hq
    obtain ⟨hqlt', ht'⟩ := placedBy_wantedL_iff.1 hq'
    have hq1 := succ_lt_of_typeAt_false hqlt ht
    have hq1' := succ_lt_of_typeAt_false hqlt' ht'
    rw [← hqj, ← hqj', hidx hq1 hq1'] at hjj
    exact (scanLt_iff_of_typeAt_false heq ht').2 ⟨ht, h.of_next_L hq1 hq1' heq ht ht' hjj⟩
  · obtain ⟨hqlt, ht⟩ := placedBy_wantedL_iff.1 hq
    refine mem_before_of_range hjs (hqj ▸ ?_)
    exact (hidx (succ_lt_of_typeAt_false hqlt ht) hqlt).2 (scanLt_succ h hqlt ht)
  · have hjA : j < A.length := by simpa [hA.length_eq] using hj
    have hpmem : A[j] < S.length := hmem.1 (List.getElem_mem hjA)
    have ht : typeAt S A[j] = true := by
      by_contra hf
      exact hne _ (placedBy_wantedL_iff.2 ⟨hpmem, by simpa using hf⟩) (hnodup.idxOf_getElem j hjA)
    rw [hslots j hj, visible, visible, List.getElem?_eq_getElem hjA]
    simp [Option.filter, visibleL, ht]

/-- An L-type and the last position stand where they stand in the final array. -/
theorem idxOf_eq_idxOf (h : InduceOrder S seed lt) (hS : EndsAt (symbolAt S) (S.length - 1))
    (hA : A.Perm (List.range S.length)) (hsortedA : A.Pairwise (scanLt S seed lt)) (hB : B.Perm (List.range S.length))
    (hsortedB : B.Pairwise lt) {p : Nat} (hp : p < S.length) (hpos : typeAt S p = false ∨ p = S.length - 1) :
    A.idxOf p = B.idxOf p := by
  have htotal := scanLt_strictTotal h
  have hbefore : bucketBefore (symbolAt S) (scanLt S seed lt) (List.range S.length) p =
      bucketBefore (symbolAt S) lt (List.range S.length) p := by
    refine List.countP_congr fun i hi => ?_
    have hi := List.mem_range.1 hi
    simp only [decide_eq_true_eq]
    refine and_congr_right fun heq => ?_
    obtain ht | rfl := hpos
    · rw [scanLt_iff_of_typeAt_false heq ht, and_iff_right_iff_imp]
      intro hlt
      by_contra htrue
      exact h.order.asymm hlt (h.of_type hp hi heq.symm ht (by simpa using htrue))
    · obtain rfl := eq_last_of_symbolAt_eq_zero hS hi (heq.trans (hS.2 _ le_rfl))
      exact iff_of_false (htotal.irrefl _) (h.order.irrefl _)
  rw [idxOf_eq_head_add hA hsortedA scanLt_of_symbol htotal.asymm hp,
    idxOf_eq_head_add hB hsortedB h.of_symbol h.order.asymm hp, hbefore]

/-- The right-to-left scan completes the final array (40_suffix_sorter.md R144). -/
theorem scanOf_S (h : InduceOrder S seed lt) (hS : EndsAt (symbolAt S) (S.length - 1)) (h2 : 2 ≤ S.length)
    (hK : ∀ i, symbolAt S i < K) (hA : A.Perm (List.range S.length)) (hsortedA : A.Pairwise (scanLt S seed lt))
    (hB : B.Perm (List.range S.length)) (hsortedB : B.Pairwise lt) {slots : List (Option Nat)} (hlen : slots.length = S.length)
    (hslots : ∀ j < S.length, slots.getD j none = visible A (visibleL S) j) :
    ScanOf S B (List.range S.length).reverse (· - 1) (flip lt) (wantedS S) (fun _ => true)
      { slots := slots, next := bucketTails S K } := by
  have hmem {q : Nat} : q ∈ B ↔ q < S.length := hB.mem_iff.trans List.mem_range
  have hmemA {q : Nat} : q ∈ A ↔ q < S.length := hA.mem_iff.trans List.mem_range
  have hnodup : B.Nodup := hB.nodup_iff.2 List.nodup_range
  have hidx {p q : Nat} (hp : p < S.length) (hq : q < S.length) : B.idxOf p < B.idxOf q ↔ lt p q :=
    idxOf_lt_idxOf_iff h.order.asymm hsortedB (hmem.2 hp) (hmem.2 hq)
  refine ⟨hB, List.reverse_perm _, hlen, by simpa [bucketTails] using hK, fun _ => ⟨rfl, rfl⟩, h.order.asymm,
    fun {p q} hq hp heq hlt => ?_, fun {q} hq => ?_, ?_, fun {before j after} hjs {q} hq hqj => ?_, fun j hj hne => ?_⟩
  · obtain ⟨ht, hq1⟩ := placedBy_wantedS_iff.1 hq
    refine placedBy_wantedS_iff.2 ⟨?_, ?_⟩
    · by_contra hf
      exact h.order.asymm hlt (h.of_type hp (by omega) heq (by simpa using hf) ht)
    · have := hS.1 q (by omega)
      have := hS.2 p
      omega
  · exact idxOf_eq_iterate_tail hB hsortedB h.of_symbol h.order.asymm
      (by have := (placedBy_wantedS_iff.1 hq).2; omega) (hK _)
  · refine List.pairwise_reverse.2 (List.pairwise_lt_range.imp fun {j' j} hjj q q' hq hq' hqj hqj' heq => ?_)
    obtain ⟨ht, hq1⟩ := placedBy_wantedS_iff.1 hq
    obtain ⟨ht', hq1'⟩ := placedBy_wantedS_iff.1 hq'
    rw [← hqj, ← hqj', hidx hq1' hq1] at hjj
    exact h.of_next_S hq1' hq1 heq.symm ht' ht hjj
  · obtain ⟨ht, hq1⟩ := placedBy_wantedS_iff.1 hq
    refine mem_before_of_reverse_range hjs (hqj ▸ ?_) ?_
    · exact (hidx (by omega) hq1).2 (lt_succ_of_typeAt h hS hq1 ht)
    · simpa [hB.length_eq] using List.idxOf_lt_length_of_mem (hmem.2 hq1)
  · have hjB : j < B.length := by simpa [hB.length_eq] using hj
    have hp : B[j] < S.length := hmem.1 (List.getElem_mem hjB)
    have hpos : typeAt S B[j] = false ∨ B[j] = S.length - 1 := by
      by_contra hnot
      rw [not_or, Bool.not_eq_false] at hnot
      exact hne _ (placedBy_wantedS_iff.2 ⟨hnot.1, by omega⟩) (hnodup.idxOf_getElem j hjB)
    have hidxA : A.idxOf B[j] = j := by
      rw [idxOf_eq_idxOf h hS hA hsortedA hB hsortedB hp hpos, hnodup.idxOf_getElem j hjB]
    have hkeep : visibleL S B[j] = true := by
      by_cases ht : typeAt S B[j] = true
      · have hlms := lmsAt_last hS h2
        rw [← hpos.resolve_left (by simp [ht])] at hlms
        simp [visibleL, hlms]
      · simp [visibleL, ht]
    rw [hslots j hj, (visible_eq_some_iff (hA.nodup_iff.2 List.nodup_range)).2 ⟨⟨hmemA.2 hp, hidxA⟩, hkeep⟩, eq_comm,
      visible_eq_some_iff hnodup]
    exact ⟨⟨hmem.2 hp, hnodup.idxOf_getElem j hjB⟩, rfl⟩

/-- `Induce` sorts by the order that the seeds induce (40_suffix_sorter.md R144). -/
theorem induce_eq_map_some (h : InduceOrder S seed lt) (hS : EndsAt (symbolAt S) (S.length - 1))
    (h2 : 2 ≤ S.length) (hK : ∀ i, symbolAt S i < K) (hps : ps.Perm (lmsList S)) (hseed : ps.Pairwise seed)
    (hB : B.Perm (List.range S.length)) (hsortedB : B.Pairwise lt) :
    induce S K (suffixTypes S) (seedTails S K ps.reverse) = B.map some := by
  obtain ⟨A, hA, hsortedA⟩ := (scanLt_strictTotal h).exists_sorted (l := List.range S.length)
    (fun _ => List.mem_range.1) List.nodup_range
  have hL := scanOf_L h hK hA hsortedA (length_seedTails S K ps.reverse)
    fun j hj => slots_seedTails h hK hA hsortedA hps hseed hj
  have hR := scanOf_S h hS h2 hK hA hsortedA hB hsortedB
    (slots := ((List.range S.length).foldl (scanStep (· + 1) S (wantedL S))
      { slots := seedTails S K ps.reverse, next := bucketHeads S K }).slots)
    (by rw [length_slots_foldl_scanStep]; exact length_seedTails S K ps.reverse) fun j hj => hL.slots hj
  have hinduce : induce S K (suffixTypes S) (seedTails S K ps.reverse) =
      ((List.range S.length).reverse.foldl (scanStep (· - 1) S (wantedS S))
        { slots := ((List.range S.length).foldl (scanStep (· + 1) S (wantedL S))
            { slots := seedTails S K ps.reverse, next := bucketHeads S K }).slots
          next := bucketTails S K }).slots := by
    rw [induce, induceLStep_eq, induceSStep_eq]
    rfl
  have hlen : (induce S K (suffixTypes S) (seedTails S K ps.reverse)).length = S.length := by
    rw [hinduce, length_slots_foldl_scanStep, length_slots_foldl_scanStep]
    exact length_seedTails S K ps.reverse
  refine List.ext_getElem (by simp [hlen, hB.length_eq]) fun j h1 h2 => ?_
  have hj : j < S.length := hlen ▸ h1
  have hslot := hR.slots hj
  rw [← hinduce, List.getD_eq_getElem _ _ h1] at hslot
  rw [hslot, List.getElem_map]
  simp [visible, hB.length_eq, hj]

/-- The array that `Induce` leaves holds every position, in the order that the seeds induce. -/
theorem induce_sorts (h : InduceOrder S seed lt) (hS : EndsAt (symbolAt S) (S.length - 1))
    (h2 : 2 ≤ S.length) (hK : ∀ i, symbolAt S i < K) (hps : ps.Perm (lmsList S)) (hseed : ps.Pairwise seed) :
    ((induce S K (suffixTypes S) (seedTails S K ps.reverse)).filterMap id).Perm (List.range S.length) ∧
    ((induce S K (suffixTypes S) (seedTails S K ps.reverse)).filterMap id).Pairwise lt := by
  obtain ⟨B, hB, hsortedB⟩ := h.order.exists_sorted (l := List.range S.length) (fun _ => List.mem_range.1) List.nodup_range
  rw [induce_eq_map_some h hS h2 hK hps hseed hB hsortedB, List.filterMap_map]
  simpa using ⟨hB, hsortedB⟩

end

end Sys2Proof.Machine
end

section
/-! PROOFS. LMS substrings (40_suffix_sorter.md R144 steps 2 and 3): the first induced order sorts the LMS positions by
their substrings. It is the order of a sequence in which every LMS symbol is marked with its position, so that no
comparison goes past an LMS position. -/

namespace Sys2Proof.Machine

/-! ### The first induced order -/

/-- A symbol with its type, an L-type below an S-type of the same symbol (40_suffix_sorter.md R144). -/
def typedSymbol (S : List Nat) (i : Nat) : Nat := 2 * symbolAt S i + (typeAt S i).toNat

/-- What tells one LMS position from another: the position itself. -/
def lmsMark (S : List Nat) (i : Nat) : Nat := if lmsAt S i then i else 0

/-- The typed symbol, marked at LMS positions. -/
def markedSymbol (S : List Nat) (i : Nat) : Nat := typedSymbol S i * S.length + lmsMark S i

/-- The order that the LMS positions in text order induce: by typed symbols up to the next LMS position. -/
def firstLt (S : List Nat) (i j : Nat) : Prop :=
  typedSymbol S i < typedSymbol S j ∨ typedSymbol S i = typedSymbol S j ∧ SuffixBelow (markedSymbol S) (i + 1) (j + 1)

section
variable {S : List Nat} {i j : Nat}

theorem typedSymbol_lt_iff : typedSymbol S i < typedSymbol S j ↔
    symbolAt S i < symbolAt S j ∨ symbolAt S i = symbolAt S j ∧ typeAt S i = false ∧ typeAt S j = true := by
  unfold typedSymbol
  cases typeAt S i <;> cases typeAt S j <;> simp <;> omega

theorem typedSymbol_eq_iff :
    typedSymbol S i = typedSymbol S j ↔ symbolAt S i = symbolAt S j ∧ typeAt S i = typeAt S j := by
  unfold typedSymbol
  cases typeAt S i <;> cases typeAt S j <;> simp <;> omega

theorem typedSymbol_of_le (h : S.length ≤ i) : typedSymbol S i = 0 := by
  rw [typedSymbol, symbolAt_of_le h, typeAt_of_le h]
  rfl

theorem typedSymbol_pos (hS : EndsAt (symbolAt S) (S.length - 1)) (hi : i < S.length) : 0 < typedSymbol S i := by
  unfold typedSymbol
  by_cases hlast : i = S.length - 1
  · rw [hlast, typeAt_last (by omega)]
    simp
  · have := hS.1 i (by omega)
    omega

theorem lmsMark_lt (h : 0 < S.length) (i : Nat) : lmsMark S i < S.length := by
  rw [lmsMark]
  split
  · exact lt_length_of_lmsAt ‹_›
  · exact h

theorem lmsMark_of_lmsAt (h : lmsAt S i = true) : lmsMark S i = i := if_pos h

theorem lmsMark_of_not_lmsAt (h : lmsAt S i = false) : lmsMark S i = 0 := if_neg (by simp [h])

/-- Only an LMS position has a mark above 0. -/
theorem lmsAt_of_lmsMark_pos (h : 0 < lmsMark S i) : lmsAt S i = true := by
  by_contra hn
  simp [lmsMark, hn] at h

theorem markedSymbol_lt_of_typedSymbol (h : 0 < S.length) (hlt : typedSymbol S i < typedSymbol S j) :
    markedSymbol S i < markedSymbol S j := by
  have hmul : (typedSymbol S i + 1) * S.length ≤ typedSymbol S j * S.length := Nat.mul_le_mul_right _ hlt
  have := lmsMark_lt h i
  rw [Nat.add_mul] at hmul
  unfold markedSymbol
  omega

/-- Marked symbols compare by the typed symbol, then by the mark. -/
theorem markedSymbol_lt_iff (h : 0 < S.length) : markedSymbol S i < markedSymbol S j ↔
    typedSymbol S i < typedSymbol S j ∨ typedSymbol S i = typedSymbol S j ∧ lmsMark S i < lmsMark S j := by
  obtain hlt | heq | hgt := Nat.lt_trichotomy (typedSymbol S i) (typedSymbol S j)
  · exact iff_of_true (markedSymbol_lt_of_typedSymbol h hlt) (.inl hlt)
  · simp [markedSymbol, heq]
  · have := markedSymbol_lt_of_typedSymbol h hgt
    exact iff_of_false (by omega) (by omega)

theorem markedSymbol_eq_iff (h : 0 < S.length) : markedSymbol S i = markedSymbol S j ↔
    typedSymbol S i = typedSymbol S j ∧ lmsMark S i = lmsMark S j := by
  have hij := markedSymbol_lt_iff (i := i) (j := j) h
  have hji := markedSymbol_lt_iff (i := j) (j := i) h
  omega

/-- No two LMS positions have one marked symbol. -/
theorem eq_of_markedSymbol_eq (heq : markedSymbol S i = markedSymbol S j) (hi : lmsAt S i = true) : i = j := by
  have hlen : 0 < S.length := by
    have := lt_length_of_lmsAt hi
    omega
  obtain ⟨-, hmark⟩ := (markedSymbol_eq_iff hlen).1 heq
  have hpos := (lmsAt_iff.1 hi).1
  rw [lmsMark_of_lmsAt hi] at hmark
  rw [hmark]
  exact lmsMark_of_lmsAt (lmsAt_of_lmsMark_pos (by omega))

theorem markedSymbol_endsAt (hS : EndsAt (symbolAt S) (S.length - 1)) : EndsAt (markedSymbol S) S.length := by
  refine ⟨fun i hi => ?_, fun i hi => ?_⟩
  · have := Nat.mul_pos (typedSymbol_pos hS hi) (by omega : 0 < S.length)
    unfold markedSymbol
    omega
  · have hnot : lmsAt S i = false := Bool.eq_false_iff.2 fun h => by
      have := lt_length_of_lmsAt h
      omega
    rw [markedSymbol, typedSymbol_of_le hi, lmsMark_of_not_lmsAt hnot, Nat.zero_mul]

/-- Between positions that are not LMS the first induced order is that of the marked sequence. -/
theorem firstLt.suffixBelow (h : 0 < S.length) (hlt : firstLt S i j) (hi : lmsAt S i = false) (hj : lmsAt S j = false) :
    SuffixBelow (markedSymbol S) i j := by
  obtain hlt | ⟨heq, hrest⟩ := hlt
  · exact .of_lt (markedSymbol_lt_of_typedSymbol h hlt)
  · refine .of_eq ((markedSymbol_eq_iff h).2 ⟨heq, ?_⟩) hrest
    rw [lmsMark_of_not_lmsAt hi, lmsMark_of_not_lmsAt hj]

theorem firstLt_strictTotal (hS : EndsAt (symbolAt S) (S.length - 1)) : StrictTotal S.length (firstLt S) := by
  refine ⟨fun i hi => ?_, fun {i j k} hij hjk => ?_, fun {i j} hi hj hne => ?_⟩
  · obtain hlt | ⟨-, hlt⟩ := hi
    · omega
    · exact suffixBelow_irrefl _ _ hlt
  · obtain hlt | ⟨heq, hrest⟩ := hij <;> obtain hlt' | ⟨heq', hrest'⟩ := hjk
    · exact .inl (by omega)
    · exact .inl (by omega)
    · exact .inl (by omega)
    · exact .inr ⟨heq.trans heq', hrest.trans hrest'⟩
  · obtain hlt | heq | hgt := Nat.lt_trichotomy (typedSymbol S i) (typedSymbol S j)
    · exact .inl (.inl hlt)
    · refine ((markedSymbol_endsAt hS).total (i := i + 1) (j := j + 1) (by omega) (by omega) (by omega)).imp ?_ ?_
      · exact fun h => .inr ⟨heq, h⟩
      · exact fun h => .inr ⟨heq.symm, h⟩
    · exact .inr (.inl hgt)

theorem lt_strictTotal (n : Nat) : StrictTotal n (· < ·) :=
  ⟨Nat.lt_irrefl, Nat.lt_trans, fun _ _ hne => Nat.lt_or_gt_of_ne hne⟩

/-- After L-types of one symbol, what the left-to-right scan meets in order is in order in the marked sequence. -/
theorem suffixBelow_of_scanLt (h : 0 < S.length) (hi : typeAt S i = false) (hj : typeAt S j = false)
    (hlt : scanLt S (· < ·) (firstLt S) (i + 1) (j + 1)) : SuffixBelow (markedSymbol S) (i + 1) (j + 1) := by
  have hlms {k : Nat} (hk : typeAt S k = false) : typeAt S (k + 1) = lmsAt S (k + 1) := by
    rw [Bool.eq_iff_iff, lmsAt_succ_iff, hk, eq_self_iff_true, and_true]
  obtain hlt | ⟨heq, hin⟩ := hlt
  · exact .of_lt (markedSymbol_lt_of_typedSymbol h (typedSymbol_lt_iff.2 (.inl hlt)))
  · cases hj1 : lmsAt S (j + 1) with
    | false =>
      have htj := (hlms hj).trans hj1
      obtain ⟨hti, hlt⟩ := (scanLt_iff_of_typeAt_false heq htj).1 (.inr ⟨heq, hin⟩)
      exact firstLt.suffixBelow h hlt (not_lmsAt_of_typeAt_false hti) hj1
    | true =>
      have htj := (hlms hj).trans hj1
      cases hi1 : lmsAt S (i + 1) with
      | false =>
        have hti := (hlms hi).trans hi1
        exact .of_lt (markedSymbol_lt_of_typedSymbol h (typedSymbol_lt_iff.2 (.inr ⟨heq, hti, htj⟩)))
      | true =>
        have hti := (hlms hi).trans hi1
        obtain ⟨-, hlt⟩ := (scanLt_iff_of_lmsAt heq hi1).1 (.inr ⟨heq, hin⟩)
        refine .of_lt ((markedSymbol_lt_iff h).2 (.inr ⟨typedSymbol_eq_iff.2 ⟨heq, hti.trans htj.symm⟩, ?_⟩))
        rwa [lmsMark_of_lmsAt hi1, lmsMark_of_lmsAt hj1]

/-- The LMS positions in text order induce the first order (40_suffix_sorter.md R144 step 2). -/
theorem firstLt_induceOrder (hS : EndsAt (symbolAt S) (S.length - 1)) (hlen : 0 < S.length) :
    InduceOrder S (· < ·) (firstLt S) where
  order := firstLt_strictTotal hS
  seeds := lt_strictTotal _
  of_symbol h := .inl (typedSymbol_lt_iff.2 (.inl h))
  of_type _ _ heq hi hj := .inl (typedSymbol_lt_iff.2 (.inr ⟨heq, hi, hj⟩))
  of_next_L _ _ heq hi hj hnext :=
    .inr ⟨typedSymbol_eq_iff.2 ⟨heq, hi.trans hj.symm⟩, suffixBelow_of_scanLt hlen hi hj hnext⟩
  of_next_S _ _ heq hi hj hnext := by
    have hnot {k : Nat} (hk : typeAt S k = true) : lmsAt S (k + 1) = false :=
      Bool.eq_false_iff.2 fun h => by simp [(lmsAt_succ_iff.1 h).2] at hk
    exact .inr ⟨typedSymbol_eq_iff.2 ⟨heq, hi.trans hj.symm⟩, hnext.suffixBelow hlen (hnot hi) (hnot hj)⟩

end

/-! ### LMS substrings -/

/-- The number of symbols after the first in the LMS substring of `a` (40_suffix_sorter.md R144). -/
def lmsSpan (S : List Nat) (a : Nat) : Nat := lmsEnd (lmsList S) a - a

/-- The LMS substring of `a` is below that of `b`. -/
def LmsBelow (S : List Nat) (a b : Nat) : Prop := BelowWithin (typedSymbol S) (lmsSpan S a + 1) a b

/-- `SameLMS(a, b)`: equal length, and equal symbol and type at every offset (40_suffix_sorter.md R144). -/
def LmsEqual (S : List Nat) (a b : Nat) : Prop :=
  a = b ∨ a ≠ S.length - 1 ∧ b ≠ S.length - 1 ∧ lmsSpan S a = lmsSpan S b ∧
    AgreeFor (typedSymbol S) (lmsSpan S a + 1) a b

section
variable {S : List Nat} {a b : Nat}

theorem lmsEnd_last (S : List Nat) : lmsEnd (lmsList S) (S.length - 1) = S.length - 1 := by
  have hnone : (lmsList S).find? (fun q => decide (S.length - 1 < q)) = none := by
    rw [List.find?_eq_none]
    intro q hq
    have := lt_length_of_lmsAt (mem_lmsList.1 hq)
    simp
    omega
  rw [lmsEnd, hnone, Option.getD_none]

/-- The end of an LMS substring is the next LMS position (40_suffix_sorter.md R144). -/
theorem lmsEnd_spec (hS : EndsAt (symbolAt S) (S.length - 1)) (ha : a + 1 < S.length) :
    lmsAt S (lmsEnd (lmsList S) a) = true ∧ a < lmsEnd (lmsList S) a ∧
      ∀ k, lmsAt S k = true → a < k → lmsEnd (lmsList S) a ≤ k := by
  have hlast := mem_lmsList.2 (lmsAt_last hS (by omega))
  cases hfind : (lmsList S).find? (fun q => decide (a < q)) with
  | none =>
    rw [List.find?_eq_none] at hfind
    have := hfind _ hlast
    simp only [decide_eq_true_eq] at this
    omega
  | some e =>
    obtain ⟨hae, before, after, hsplit, hbefore⟩ := List.find?_eq_some_iff_append.1 hfind
    have hend : lmsEnd (lmsList S) a = e := by rw [lmsEnd, hfind, Option.getD_some]
    have hsorted := lmsList_pairwise S
    rw [hsplit] at hsorted
    obtain ⟨-, hafter, -⟩ := List.pairwise_append.1 hsorted
    rw [hend]
    refine ⟨mem_lmsList.1 (by rw [hsplit]; simp), by simpa using hae, fun k hk hak => ?_⟩
    obtain hkb | hka := List.mem_append.1 (hsplit ▸ mem_lmsList.2 hk)
    · simpa [hak] using hbefore k hkb
    · obtain rfl | hka := List.mem_cons.1 hka
      · exact le_rfl
      · exact ((List.pairwise_cons.1 hafter).1 k hka).le

theorem lmsEnd_lt_length (hS : EndsAt (symbolAt S) (S.length - 1)) (ha : a < S.length) :
    lmsEnd (lmsList S) a < S.length := by
  by_cases hlast : a = S.length - 1
  · rw [hlast, lmsEnd_last]
    omega
  · exact lt_length_of_lmsAt (lmsEnd_spec hS (by omega)).1

/-- A position of an LMS substring is a position of the sequence. -/
theorem add_lt_length (hS : EndsAt (symbolAt S) (S.length - 1)) (ha : a < S.length) {d : Nat} (hd : d < lmsSpan S a + 1) :
    a + d < S.length := by
  have := lmsEnd_lt_length hS ha
  unfold lmsSpan at hd
  omega

/-- LMS substrings are compared by one order. -/
theorem lms_rankOrder (S : List Nat) : RankOrder (LmsEqual S) (LmsBelow S) where
  refl _ := .inl rfl
  symm h := by
    obtain rfl | ⟨ha, hb, hspan, hagree⟩ := h
    · exact .inl rfl
    · exact .inr ⟨hb, ha, hspan.symm, hspan ▸ hagree.symm⟩
  trans h h' := by
    obtain rfl | ⟨ha, hb, hspan, hagree⟩ := h
    · exact h'
    · obtain rfl | ⟨-, hc, hspan', hagree'⟩ := h'
      · exact .inr ⟨ha, hb, hspan, hagree⟩
      · exact .inr ⟨ha, hc, hspan.trans hspan', hagree.trans (hspan ▸ hagree')⟩
  lt_trans h h' := h.trans_suffixBelow h'.suffixBelow
  not_eqv h h' := by
    obtain rfl | ⟨-, -, -, hagree⟩ := h'
    · exact suffixBelow_irrefl _ _ h.suffixBelow
    · exact h.not_agreeFor hagree

/-- The model's comparison of two LMS substrings. -/
theorem sameLms_iff (hS : EndsAt (symbolAt S) (S.length - 1)) (ha : a < S.length) (hb : b < S.length) :
    sameLms S (suffixTypes S) (lmsList S) a b = true ↔ LmsEqual S a b := by
  rw [sameLms]
  split
  · rename_i hlast
    simp only [decide_eq_true_eq, LmsEqual]
    refine ⟨.inl, fun h => h.resolve_right fun h => ?_⟩
    exact hlast.elim h.1 h.2.1
  · rename_i hlast
    rw [not_or] at hlast
    simp only [Bool.and_eq_true, decide_eq_true_eq, List.all_eq_true, List.mem_range]
    have hiff (hspan : lmsSpan S a = lmsSpan S b) (d : Nat) (hd : d < lmsSpan S a + 1) :
        S.getD (a + d) 0 = S.getD (b + d) 0 ∧
          (suffixTypes S).getD (a + d) true = (suffixTypes S).getD (b + d) true ↔
        typedSymbol S (a + d) = typedSymbol S (b + d) := by
      rw [getD_suffixTypes (add_lt_length hS ha hd), getD_suffixTypes (add_lt_length hS hb (hspan ▸ hd)),
        typedSymbol_eq_iff]
      rfl
    constructor
    · rintro ⟨hspan, hall⟩
      exact .inr ⟨hlast.1, hlast.2, hspan, fun d hd => (hiff hspan d hd).1 (hall d hd)⟩
    · rintro (rfl | ⟨-, -, hspan, hagree⟩)
      · simp
      · exact ⟨hspan, fun d hd => (hiff hspan d hd).2 (hagree d hd)⟩

/-- The substring order is part of the suffix order: the first typed symbol that differs decides both. -/
theorem LmsBelow.suffixBelow (hS : EndsAt (symbolAt S) (S.length - 1)) (ha : a < S.length) (h : LmsBelow S a b) :
    SuffixBelow (symbolAt S) a b := by
  obtain ⟨d, hd, hagree, hlt⟩ := h
  refine .of_agreeFor (k := d) (fun e he => (typedSymbol_eq_iff.1 (hagree e he)).1) ?_
  obtain hsym | ⟨heq, hta, htb⟩ := typedSymbol_lt_iff.1 hlt
  · exact .of_lt hsym
  · exact suffixBelow_of_typeAt hS (add_lt_length hS ha hd) (lt_length_of_typeAt htb) heq hta htb

/-- LMS positions in the first induced order have LMS substrings in order, or equal ones: the marked sequences agree up to
the first LMS position after `a`, and there the marks decide only between equal substrings. -/
theorem firstLt.lmsBelow_or (hS : EndsAt (symbolAt S) (S.length - 1)) (ha : lmsAt S a = true) (hb : lmsAt S b = true)
    (h : firstLt S a b) : LmsBelow S a b ∨ LmsEqual S a b := by
  have halt := lt_length_of_lmsAt ha
  have hblt := lt_length_of_lmsAt hb
  have hlen : 0 < S.length := by omega
  have hab : a ≠ b := fun heq => (firstLt_strictTotal hS).irrefl b (heq ▸ h)
  obtain hlt | ⟨heq, d, hagree, hlt⟩ := h
  · exact .inl ⟨0, by omega, fun _ he => by omega, hlt⟩
  have hzero := hS.2 (S.length - 1) le_rfl
  have hsym := (typedSymbol_eq_iff.1 heq).1
  have halast : a ≠ S.length - 1 := fun h => hab (h.trans
    (eq_last_of_symbolAt_eq_zero hS hblt (by rw [← hsym, h, hzero])).symm)
  have hblast : b ≠ S.length - 1 := fun h => hab
    ((eq_last_of_symbolAt_eq_zero hS halt (by rw [hsym, h, hzero])).trans h.symm)
  obtain ⟨haend, halt', hamin⟩ := lmsEnd_spec hS (a := a) (by omega)
  obtain ⟨hbend, hblt', hbmin⟩ := lmsEnd_spec hS (a := b) (by omega)
  have haspan : d + 1 ≤ lmsSpan S a := by
    by_contra hge
    unfold lmsSpan at hge
    have hmark := hagree (lmsEnd (lmsList S) a - (a + 1)) (by omega)
    rw [show a + 1 + (lmsEnd (lmsList S) a - (a + 1)) = lmsEnd (lmsList S) a by omega] at hmark
    have := eq_of_markedSymbol_eq hmark haend
    omega
  have hbspan : d + 1 ≤ lmsSpan S b := by
    by_contra hge
    unfold lmsSpan at hge
    have hmark := (hagree (lmsEnd (lmsList S) b - (b + 1)) (by omega)).symm
    rw [show b + 1 + (lmsEnd (lmsList S) b - (b + 1)) = lmsEnd (lmsList S) b by omega] at hmark
    have := eq_of_markedSymbol_eq hmark hbend
    omega
  have htyped : AgreeFor (typedSymbol S) (d + 1) a b := agreeFor_succ.2 ⟨heq, fun e he =>
    ((markedSymbol_eq_iff hlen).1 (hagree e he)).1⟩
  simp only [Nat.add_assoc, Nat.add_comm 1] at hlt
  obtain hlt | ⟨hnext, hmark⟩ := (markedSymbol_lt_iff hlen).1 hlt
  · exact .inl ⟨d + 1, by omega, htyped, hlt⟩
  · have hblms : lmsAt S (b + (d + 1)) = true := lmsAt_of_lmsMark_pos (by omega)
    have halms : lmsAt S (a + (d + 1)) = true := by
      obtain ⟨htype, hprev⟩ := lmsAt_succ_iff.1 hblms
      refine lmsAt_succ_iff.2 ⟨(typedSymbol_eq_iff.1 hnext).2.trans htype, ?_⟩
      exact (typedSymbol_eq_iff.1 (htyped d (by omega))).2.trans hprev
    have hae := hamin _ halms (by omega)
    have hbe := hbmin _ hblms (by omega)
    have haspan' : lmsSpan S a = d + 1 := by
      unfold lmsSpan at haspan ⊢
      omega
    have hbspan' : lmsSpan S b = d + 1 := by
      unfold lmsSpan at hbspan ⊢
      omega
    refine .inr (.inr ⟨halast, hblast, haspan'.trans hbspan'.symm, ?_⟩)
    rw [haspan', agreeFor_add, agreeFor_one]
    exact ⟨htyped, hnext⟩

end

end Sys2Proof.Machine
end

section
/-! PROOFS. Method InducedSort (SA-IS) sorts the suffixes (40_suffix_sorter.md R144): the names of the LMS substrings make
a shorter sequence whose suffixes compare as those of the LMS positions, and their order induces the whole array. -/

namespace Sys2Proof.Machine

/-! ### The parts of the method -/

/-- The array that `Induce` leaves, from seeds in the given order (40_suffix_sorter.md R144). -/
def inducedArray (S : List Nat) (K : Nat) (ps : List Nat) : List Nat :=
  (induce S K (suffixTypes S) (seedTails S K ps.reverse)).filterMap id

/-- The LMS positions sorted by their substrings (40_suffix_sorter.md R144 step 2). -/
def sortedLms (S : List Nat) (K : Nat) : List Nat := (inducedArray S K (lmsList S)).filter (lmsAt S)

/-- The name of an LMS position (40_suffix_sorter.md R144 step 3). -/
def lmsName (S : List Nat) (K p : Nat) : Nat := rankOf (sameLms S (suffixTypes S) (lmsList S)) 0 (sortedLms S K) p

/-- `S1`, the names of the LMS positions in text order (40_suffix_sorter.md R144 step 3). -/
def lmsReduced (S : List Nat) (K : Nat) : List Nat := (lmsList S).map (lmsName S K)

/-- One level of the recursion in its parts. -/
theorem inducedSort_succ {S : List Nat} (hlen : 2 ≤ S.length) (fuel K : Nat) :
    inducedSort (fuel + 1) S K = inducedArray S K
      ((if (lmsReduced S K).foldl Nat.max 0 + 1 = (lmsList S).length then
          (List.range (lmsList S).length).map fun r => (lmsReduced S K).idxOf r
        else inducedSort fuel (lmsReduced S K) ((lmsReduced S K).foldl Nat.max 0 + 1)).map
        fun q => (lmsList S).getD q 0) := by
  rw [inducedSort, if_neg (by omega)]
  rfl

/-! ### Names -/

section
variable {S : List Nat} {K : Nat} (hS : EndsAt (symbolAt S) (S.length - 1)) (hlen : 2 ≤ S.length)
  (hK : ∀ i, symbolAt S i < K)
include hS hlen hK

theorem sortedLms_perm : (sortedLms S K).Perm (lmsList S) :=
  (induce_sorts (firstLt_induceOrder hS (by omega)) hS hlen hK (.refl _) (lmsList_pairwise S)).1.filter _

theorem sortedLms_nodup : (sortedLms S K).Nodup := (sortedLms_perm hS hlen hK).nodup_iff.2 (lmsList_nodup S)

theorem mem_sortedLms {p : Nat} : p ∈ sortedLms S K ↔ lmsAt S p = true :=
  (sortedLms_perm hS hlen hK).mem_iff.trans mem_lmsList

theorem sortedLms_pairwise : (sortedLms S K).Pairwise fun a b => LmsBelow S a b ∨ LmsEqual S a b := by
  have hsorted := (induce_sorts (firstLt_induceOrder hS (by omega)) hS hlen hK (.refl _) (lmsList_pairwise S)).2
  exact (hsorted.filter (lmsAt S)).imp_of_mem fun ha hb h =>
    h.lmsBelow_or hS ((mem_sortedLms hS hlen hK).1 ha) ((mem_sortedLms hS hlen hK).1 hb)

theorem sameLms_iff_of_mem : ∀ a ∈ sortedLms S K, ∀ b ∈ sortedLms S K,
    sameLms S (suffixTypes S) (lmsList S) a b = true ↔ LmsEqual S a b := fun _ ha _ hb =>
  sameLms_iff hS (lt_length_of_lmsAt ((mem_sortedLms hS hlen hK).1 ha))
    (lt_length_of_lmsAt ((mem_sortedLms hS hlen hK).1 hb))

/-- The names order the LMS positions by their substrings (40_suffix_sorter.md R144 step 3). -/
theorem lmsName_decides {a b : Nat} (ha : lmsAt S a = true) (hb : lmsAt S b = true) :
    RanksDecide (LmsEqual S) (LmsBelow S) (lmsName S K) a b :=
  rankOf_decides (lms_rankOrder S) (sortedLms_nodup hS hlen hK) (sortedLms_pairwise hS hlen hK)
    (sameLms_iff_of_mem hS hlen hK) ((mem_sortedLms hS hlen hK).2 ha) ((mem_sortedLms hS hlen hK).2 hb)

/-- The last position has name 0, and no other does (40_suffix_sorter.md R144). -/
theorem lmsName_pos_iff {p : Nat} (hp : lmsAt S p = true) : 0 < lmsName S K p ↔ p ≠ S.length - 1 := by
  have hlast := lmsAt_last hS hlen
  have hbelow {q : Nat} (hq : lmsAt S q = true) (hne : q ≠ S.length - 1) : lmsName S K (S.length - 1) < lmsName S K q := by
    refine (lmsName_decides hS hlen hK hlast hq).1.2 ⟨0, by omega, fun _ he => by omega, ?_⟩
    refine typedSymbol_lt_iff.2 (.inl ?_)
    have := hS.2 (S.length - 1) le_rfl
    have := hS.1 q (by have := lt_length_of_lmsAt hq; omega)
    simpa using by omega
  constructor
  · rintro hpos rfl
    cases hsorted : sortedLms S K with
    | nil =>
      have hmem := (mem_sortedLms hS hlen hK).2 hlast
      simp [hsorted] at hmem
    | cons h l =>
      have hhead : lmsName S K h = 0 := by simp [lmsName, rankOf, hsorted, ranked]
      have hlms : lmsAt S h = true := (mem_sortedLms hS hlen hK).1 (by rw [hsorted]; simp)
      by_cases heq : h = S.length - 1
      · rw [heq] at hhead
        omega
      · have := hbelow hlms heq
        omega
  · intro hne
    have := hbelow hp hne
    omega

end

/-! ### The reduced sequence -/

@[simp] theorem length_lmsReduced (S : List Nat) (K : Nat) : (lmsReduced S K).length = (lmsList S).length := by
  simp [lmsReduced]

theorem symbolAt_lmsReduced (S : List Nat) (K : Nat) {q : Nat} (hq : q < (lmsList S).length) :
    symbolAt (lmsReduced S K) q = lmsName S K (lmsList S)[q] := by
  rw [symbolAt_of_lt (by simpa using hq)]
  simp [lmsReduced]

theorem lmsAt_getElem {S : List Nat} {q : Nat} (hq : q < (lmsList S).length) : lmsAt S (lmsList S)[q] = true :=
  mem_lmsList.1 (List.getElem_mem hq)

theorem lmsList_getElem_lt_iff {S : List Nat} {q q' : Nat} (hq : q < (lmsList S).length) (hq' : q' < (lmsList S).length) :
    (lmsList S)[q] < (lmsList S)[q'] ↔ q < q' :=
  ((List.sortedLT_iff_pairwise.2 (lmsList_pairwise S)).strictMono_get).lt_iff_lt (a := ⟨q, hq⟩) (b := ⟨q', hq'⟩)

/-- The LMS substring of an LMS position ends at the next one (40_suffix_sorter.md R144). -/
theorem lmsEnd_getElem {S : List Nat} (hS : EndsAt (symbolAt S) (S.length - 1)) {q : Nat}
    (hq : q + 1 < (lmsList S).length) :
    lmsEnd (lmsList S) (lmsList S)[q] = (lmsList S)[q + 1] := by
  have hlt := (lmsList_getElem_lt_iff (by omega) hq).2 (Nat.lt_succ_self q)
  have hnext := lt_length_of_lmsAt (lmsAt_getElem hq)
  obtain ⟨hend, hgt, hmin⟩ := lmsEnd_spec hS (a := (lmsList S)[q]) (by omega)
  refine Nat.le_antisymm (hmin _ (lmsAt_getElem hq) hlt) ?_
  obtain ⟨k, hk, hkend⟩ := List.getElem_of_mem (mem_lmsList.2 hend)
  rw [← hkend, lmsList_getElem_lt_iff] at hgt
  obtain heq | hlt := (Nat.succ_le_of_lt hgt).eq_or_lt
  · exact le_of_eq (by simp only [← hkend, ← heq, Nat.succ_eq_add_one])
  · exact hkend ▸ ((lmsList_getElem_lt_iff hq hk).2 hlt).le

section
variable {S : List Nat} {K : Nat} (hS : EndsAt (symbolAt S) (S.length - 1)) (hlen : 2 ≤ S.length)
include hS hlen

theorem length_lmsList_pos : 0 < (lmsList S).length :=
  List.length_pos_of_mem (mem_lmsList.2 (lmsAt_last hS hlen))

/-- The last LMS position is the last position (40_suffix_sorter.md R144). -/
theorem lmsList_getElem_eq_last_iff {q : Nat} (hq : q < (lmsList S).length) :
    (lmsList S)[q] = S.length - 1 ↔ q = (lmsList S).length - 1 := by
  obtain ⟨l, hl, hlast⟩ := List.getElem_of_mem (mem_lmsList.2 (lmsAt_last hS hlen))
  have hmax : l = (lmsList S).length - 1 := by
    by_contra hne
    have hnext := (lmsList_getElem_lt_iff hl (by omega : l + 1 < _)).2 (Nat.lt_succ_self l)
    have := lt_length_of_lmsAt (lmsAt_getElem (by omega : l + 1 < (lmsList S).length))
    omega
  rw [← hlast, ← hmax, (lmsList_nodup S).getElem_inj_iff]

variable (hK : ∀ i, symbolAt S i < K)
include hK

theorem lmsReduced_endsAt : EndsAt (symbolAt (lmsReduced S K)) ((lmsReduced S K).length - 1) := by
  have hpos := length_lmsList_pos hS hlen
  rw [length_lmsReduced]
  refine ⟨fun q hq => ?_, fun q hq => ?_⟩
  · rw [symbolAt_lmsReduced S K (by omega), lmsName_pos_iff hS hlen hK (lmsAt_getElem (by omega)), Ne,
      lmsList_getElem_eq_last_iff hS hlen]
    omega
  · by_cases hq' : q < (lmsList S).length
    · rw [symbolAt_lmsReduced S K hq']
      refine Nat.eq_zero_of_not_pos fun h => (lmsName_pos_iff hS hlen hK (lmsAt_getElem hq')).1 h ?_
      exact (lmsList_getElem_eq_last_iff hS hlen hq').2 (by omega)
    · exact symbolAt_of_le (by simpa using hq')

/-- The suffixes of the reduced sequence compare as those of the LMS positions: substring by substring, up to the first
that differ (40_suffix_sorter.md R144 step 4). -/
theorem suffixBelow_of_lmsReduced {q q' : Nat} (hq : q < (lmsList S).length) (hq' : q' < (lmsList S).length)
    (h : SuffixBelow (symbolAt (lmsReduced S K)) q q') :
    SuffixBelow (symbolAt S) (lmsList S)[q] (lmsList S)[q'] := by
  obtain ⟨d, hagree, hlt⟩ := h
  induction d generalizing q q' with
  | zero =>
    rw [Nat.add_zero, Nat.add_zero, symbolAt_lmsReduced S K hq, symbolAt_lmsReduced S K hq'] at hlt
    have hbelow := (lmsName_decides hS hlen hK (lmsAt_getElem hq) (lmsAt_getElem hq')).1.1 hlt
    exact hbelow.suffixBelow hS (lt_length_of_lmsAt (lmsAt_getElem hq))
  | succ d ih =>
    obtain ⟨hname, hrest⟩ := agreeFor_succ.1 hagree
    rw [symbolAt_lmsReduced S K hq, symbolAt_lmsReduced S K hq'] at hname
    obtain heq | ⟨hlast, hlast', hspan, htyped⟩ :=
      (lmsName_decides hS hlen hK (lmsAt_getElem hq) (lmsAt_getElem hq')).2.1.1 hname
    · obtain rfl := (lmsList_nodup S).getElem_inj_iff.1 heq
      omega
    · have hq1 : q + 1 < (lmsList S).length := by
        have := mt (lmsList_getElem_eq_last_iff hS hlen hq).2 hlast
        omega
      have hq1' : q' + 1 < (lmsList S).length := by
        have := mt (lmsList_getElem_eq_last_iff hS hlen hq').2 hlast'
        omega
      have hnext {p : Nat} (hp : p + 1 < (lmsList S).length) :
          (lmsList S)[p] + lmsSpan S (lmsList S)[p] = (lmsList S)[p + 1] := by
        have hlt := (lmsList_getElem_lt_iff (by omega) hp).2 (Nat.lt_succ_self p)
        rw [lmsSpan, lmsEnd_getElem hS hp]
        omega
      refine .of_agreeFor (k := lmsSpan S (lmsList S)[q])
        (fun e he => (typedSymbol_eq_iff.1 (htyped e (by omega))).1) ?_
      have hrec := ih hq1 hq1' hrest (by simpa only [Nat.add_assoc, Nat.add_comm 1] using hlt)
      rw [← hnext hq1, ← hnext hq1'] at hrec
      rwa [hspan] at hrec ⊢

/-- As many names as LMS positions: no two substrings are equal. -/
theorem lmsReduced_nodup (h : (lmsReduced S K).foldl Nat.max 0 + 1 = (lmsList S).length) : (lmsReduced S K).Nodup := by
  have hperm := sortedLms_perm hS hlen hK
  have hmax : ∃ p, lmsAt S p = true ∧ lmsName S K p + 1 = (lmsList S).length := by
    obtain hzero | hmem := foldl_max_mem (l := lmsReduced S K) (a := 0)
    · have hlast := lmsAt_last hS hlen
      have hname := mt (lmsName_pos_iff hS hlen hK hlast).1 (by simp)
      exact ⟨_, hlast, by omega⟩
    · obtain ⟨p, hp, hname⟩ := List.mem_map.1 hmem
      exact ⟨p, mem_lmsList.1 hp, by rw [hname, h]⟩
  obtain ⟨p, hp, hname⟩ := hmax
  have hnodup := nodup_map_rankOf (r := 0) (lms_rankOrder S) (sortedLms_nodup hS hlen hK) (sortedLms_pairwise hS hlen hK)
    (sameLms_iff_of_mem hS hlen hK) ((mem_sortedLms hS hlen hK).2 hp) (by rw [Nat.zero_add, hperm.length_eq]; exact hname)
  exact (hperm.map _).nodup_iff.1 hnodup

/-- The order of the reduced sequence is an order of the LMS positions (40_suffix_sorter.md R144 step 5). -/
theorem map_lmsList_sorted {SA1 : List Nat}
    (h : SortsSuffixes (symbolAt (lmsReduced S K)) (lmsReduced S K).length SA1) :
    (SA1.map fun q => (lmsList S).getD q 0).Perm (lmsList S) ∧
    (SA1.map fun q => (lmsList S).getD q 0).Pairwise (SuffixBelow (symbolAt S)) := by
  obtain ⟨hperm, hsorted⟩ := h
  rw [length_lmsReduced] at hperm
  constructor
  · refine (hperm.map _).trans (List.Perm.of_eq ?_)
    exact map_symbolAt_range (lmsList S)
  · refine List.pairwise_map.2 (hsorted.imp_of_mem fun hq hq' hlt => ?_)
    have hq := List.mem_range.1 (hperm.mem_iff.1 hq)
    have hq' := List.mem_range.1 (hperm.mem_iff.1 hq')
    rw [List.getD_eq_getElem _ _ hq, List.getD_eq_getElem _ _ hq']
    exact suffixBelow_of_lmsReduced hS hlen hK hq hq' hlt

end

/-! ### The recursion -/

/-- The suffix order of the LMS positions induces the suffix order (40_suffix_sorter.md R144 step 5). -/
theorem suffixBelow_induceOrder {S : List Nat} (hS : EndsAt (symbolAt S) (S.length - 1)) :
    InduceOrder S (SuffixBelow (symbolAt S)) (SuffixBelow (symbolAt S)) := by
  have horder : StrictTotal S.length (SuffixBelow (symbolAt S)) :=
    ⟨suffixBelow_irrefl _, .trans, fun hi hj hne => hS.total (by omega) (by omega) hne⟩
  refine ⟨horder, horder, .of_lt, fun hi hj heq hti htj => suffixBelow_of_typeAt hS hi hj heq hti htj,
    fun {i j} hi hj heq hti htj hnext => .of_eq heq ?_, fun _ _ heq _ _ hnext => .of_eq heq hnext⟩
  obtain hlt | ⟨heq1, hclass | ⟨-, hlt⟩⟩ := hnext
  · exact .of_lt hlt
  · have htype : typeAt S (i + 1) = false ∧ typeAt S (j + 1) = true := by
      have hnext {k : Nat} (hk : typeAt S k = false) : typeAt S (k + 1) = true ↔ scanClass S (k + 1) = 2 := by
        rw [scanClass_eq_two_iff, lmsAt_succ_iff, and_iff_left hk]
      have hle := scanClass_le_two S (j + 1)
      have hi0 : typeAt S (i + 1) ≠ true := fun h => by
        have := (hnext hti).1 h
        omega
      refine ⟨by simpa using hi0, ?_⟩
      by_contra hj0
      have := scanClass_eq_zero_iff.2 (by simpa using hj0 : typeAt S (j + 1) = false)
      omega
    exact suffixBelow_of_typeAt hS hi hj heq1 htype.1 htype.2
  · simpa using hlt

/-- SA-IS sorts the suffixes of every sequence over `0..K-1` whose last symbol is its unique minimum 0
(40_suffix_sorter.md R144). -/
theorem inducedSort_sorts {fuel : Nat} {S : List Nat} {K : Nat} (hpos : 0 < S.length) (hfuel : S.length ≤ fuel)
    (hS : EndsAt (symbolAt S) (S.length - 1)) (hK : ∀ i, symbolAt S i < K) :
    SortsSuffixes (symbolAt S) S.length (inducedSort fuel S K) := by
  induction fuel generalizing S K with
  | zero => omega
  | succ fuel ih =>
    by_cases hone : S.length = 1
    · rw [inducedSort, if_pos hone, hone]
      exact ⟨.refl _, List.pairwise_singleton _ _⟩
    · have hlen : 2 ≤ S.length := by omega
      rw [inducedSort_succ hlen]
      have hreduced : SortsSuffixes (symbolAt (lmsReduced S K)) (lmsReduced S K).length
          (if (lmsReduced S K).foldl Nat.max 0 + 1 = (lmsList S).length then
            (List.range (lmsList S).length).map fun r => (lmsReduced S K).idxOf r
          else inducedSort fuel (lmsReduced S K) ((lmsReduced S K).foldl Nat.max 0 + 1)) := by
        have hle (q : Nat) : symbolAt (lmsReduced S K) q ≤ (lmsReduced S K).foldl Nat.max 0 :=
          symbolAt_le (fun c hc => le_foldl_max (.inr hc)) q
        split
        · rename_i hnames
          rw [← length_lmsReduced S K] at hnames ⊢
          refine sortsSuffixes_idxOf (a := 0) (lmsReduced_nodup hS hlen hK (by simpa using hnames)) fun c hc => ?_
          have := le_foldl_max (a := 0) (.inr hc)
          omega
        · have hshorter := length_lmsList_lt hpos
          refine ih ?_ ?_ (lmsReduced_endsAt hS hlen hK) fun q => Nat.lt_succ_of_le (hle q)
          · simpa using length_lmsList_pos hS hlen
          · rw [length_lmsReduced]
            omega
      obtain ⟨hperm, hsorted⟩ := map_lmsList_sorted hS hlen hK hreduced
      exact induce_sorts (suffixBelow_induceOrder hS) hS hlen hK hperm hsorted

/-- Settles O23: at the top level the symbols are the keys, at most 256, and the sentinel alone has key 0
(40_suffix_sorter.md R144). -/
theorem inducedSortComputesTheSuffixArray : Obligations.InducedSortComputesTheSuffixArray := by
  intro text
  have hkeys : symbolAt ((extendedText text).map symKey) = textKey (extendedText text) := by
    funext i
    rw [symbolAt, textKey]
    exact List.getD_map (extendedText text) Sym.sentinel symKey
  have hend : EndsAt (symbolAt ((extendedText text).map symKey)) (((extendedText text).map symKey).length - 1) := by
    simpa [hkeys] using textKey_endsAt text
  have h := inducedSort_sorts (fuel := (extendedText text).length) (K := 257) (by simp) (by simp) hend
    fun i => Nat.lt_succ_of_le (hkeys ▸ textKey_le (extendedText text) i)
  rw [hkeys, List.length_map, length_extendedText] at h
  rw [inducedSortText, length_extendedText]
  exact h.eq_suffixArray

end Sys2Proof.Machine
end

section
/-! PROOFS. The commands of the suffix sorter: how each completes, and its faults in their order (40_suffix_sorter.md R133
to R137; 60_exceptions.md R262, R267, R269). -/

namespace Sys2Proof.Machine

/-! ### Word arrays in memory -/

theorem Memory.readWord_congr {m m' : Memory} {a : Nat} (h : ∀ k < 4, m.read (a + k) = m'.read (a + k)) :
    m.readWord a = m'.readWord a := by
  have h0 : m.read a = m'.read a := h 0 (by omega)
  rw [Memory.readWord, Memory.readWord, h0, h 1 (by omega), h 2 (by omega), h 3 (by omega)]

theorem Memory.writeBytes_append (m : Memory) (base : Nat) (as bs : List Byte) :
    m.writeBytes base (as ++ bs) = (m.writeBytes base as).writeBytes (base + as.length) bs := by
  induction as generalizing m base with
  | nil => rfl
  | cons a as ih =>
    simp only [List.cons_append, Memory.writeBytes, ih, List.length_cons, Nat.add_assoc, Nat.add_comm 1]

/-- A stored array of words reads back word by word (20_memory.md R62, R66). -/
theorem Memory.readWord_writeBytes_bytesOfWords {m : Memory} (hm : m.wf = true) {base : Nat} {ws : List Nat}
    (h : base + 4 * ws.length ≤ memorySize) {i : Nat} (hi : i < ws.length) :
    (m.writeBytes base (bytesOfWords ws)).readWord (base + 4 * i) = ws[i] % 2 ^ 32 := by
  induction ws generalizing m base i with
  | nil => simp at hi
  | cons w ws ih =>
    simp only [List.length_cons] at h hi
    have hsplit : m.writeBytes base (bytesOfWords (w :: ws)) =
        (m.writeBytes base (bytesOfWord w)).writeBytes (base + 4) (bytesOfWords ws) :=
      Memory.writeBytes_append m base (bytesOfWord w) (bytesOfWords ws)
    rw [hsplit]
    cases i with
    | zero =>
      have hfirst := readWord_writeBytes_bytesOfWord hm (a := base) (by omega) w
      rw [List.getElem_cons_zero, ← hfirst]
      exact Memory.readWord_congr fun k hk => Memory.read_writeBytes_outside _ _ _ (by omega)
    | succ i =>
      have hrest := ih (Memory.wf_writeBytes hm (bs := bytesOfWord w) (base := base) (by simp; omega)) (base := base + 4)
        (by omega) (i := i) (by omega)
      rwa [show base + 4 + 4 * i = base + 4 * (i + 1) by omega] at hrest

/-- A stored array of words below `2^32` reads back whole (20_memory.md R66). -/
theorem Memory.readWords_writeBytes {m : Memory} (hm : m.wf = true) {base : Nat} {ws : List Nat}
    (h : base + 4 * ws.length ≤ memorySize) (hws : ∀ w ∈ ws, w < 2 ^ 32) :
    (m.writeBytes base (bytesOfWords ws)).readWords base ws.length = ws := by
  refine List.ext_getElem (by simp) fun i h1 h2 => ?_
  simp only [Memory.readWords, List.getElem_map, List.getElem_range]
  rw [Memory.readWord_writeBytes_bytesOfWords hm h h2, Nat.mod_eq_of_lt (hws _ (List.getElem_mem h2))]

theorem toNat_toWord {n : Nat} (h : n < 2 ^ 32) : (toWord n).toNat = n := by
  rw [toWord, BitVec.toNat_ofNat, Nat.mod_eq_of_lt h]

/-! ### The four commands -/

/-- The four commands run one procedure (40_suffix_sorter.md R133 to R137). -/
theorem exec_of_mem_saCommands {i : Instr} (hi : i ∈ saCommands) (s : State) : exec i s = conclude s (saEnding s) := by
  simp only [saCommands, List.mem_cons, List.not_mem_nil, or_false] at hi
  obtain rfl | rfl | rfl | rfl := hi <;> rfl

theorem outputRegions_of_mem_saCommands {i : Instr} (hi : i ∈ saCommands) (s : State) : outputRegions i s = [saOut s] := by
  simp only [saCommands, List.mem_cons, List.not_mem_nil, or_false] at hi
  obtain rfl | rfl | rfl | rfl := hi <;> rfl

/-- The bound that 00_scope.md R7 puts on `NMAX`. -/
theorem nmax_le_of_wf {p : Platform} (h : p.wf = true) : p.nmax ≤ 2 ^ 30 := by
  simp only [Platform.wf, Bool.and_eq_true, decide_eq_true_eq] at h
  obtain ⟨⟨-, hmax⟩, -⟩ := h
  exact hmax

/-- Every entry of a suffix array is a position of its text. -/
theorem lt_of_mem_suffixArray {T : List Sym} {p : Nat} (hp : p ∈ suffixArray T) : p < T.length :=
  List.mem_range.1 ((suffixArray_isSuffixArray T).1.mem_iff.1 hp)

/-- Settles O26: past the checks the procedure stores the words of the suffix array in its output region. -/
theorem saCommandsComplete : Obligations.SaCommandsComplete := by
  intro i hi s hm hp hn hr hb
  have hmax := nmax_le_of_wf hp
  have hlen : s.operand 1 + 1 < 2 ^ 32 := by omega
  have hrange : s.operand 2 + 4 * (s.operand 1 + 1) ≤ memorySize :=
    (inRange_iff _).1 (inRange_of_regionCheck hr (List.mem_singleton_self (saOut s)))
  have hexec : exec i s = .next (completeWith (storeAll s.mem
      [⟨s.operand 2, bytesOfWords (suffixArray (extendedText (textOf s)))⟩]) (toWord (s.operand 1 + 1)) 0#32 s) := by
    obtain ⟨hn', -⟩ | ⟨-, hr', -⟩ | ⟨-, -, he⟩ := saEnding_cases s
    · omega
    · simp [hr] at hr'
    · rw [exec_of_mem_saCommands hi, he, onBacked_memory hb, conclude_completes]
  have hwords := Memory.readWords_writeBytes hm (base := s.operand 2) (ws := suffixArray (extendedText (textOf s)))
    (by simpa using hrange) fun w hw => by
      have := lt_of_mem_suffixArray hw
      simp only [length_extendedText, length_textOf] at this
      omega
  rw [length_suffixArray, length_extendedText, length_textOf] at hwords
  refine ⟨_, hexec, ?_, ?_, completeWith_sameOutside _ _ _ s, ?_⟩
  · rw [completeWith_mem, storeAll_cons, storeAll_nil, hwords]
    exact suffixArray_isSuffixArray _
  · have hdone := completeWith_completedWith (storeAll s.mem
      [⟨s.operand 2, bytesOfWords (suffixArray (extendedText (textOf s)))⟩]) (toWord (s.operand 1 + 1)) 0#32 s
    rwa [toNat_toWord hlen] at hdone
  · rw [← outputRegions_of_mem_saCommands hi s]
    exact commandsWriteOnlyTheirOutputRegions i s _ hexec

/-- Settles O27: the two checks of `saEnding_cases`, in their order. -/
theorem saCommandsFaultInOrder : Obligations.SaCommandsFaultInOrder := by
  intro i hi s
  refine ⟨fun hn => ?_, fun hn hr => ?_⟩
  · obtain ⟨-, he⟩ | ⟨hn', -⟩ | ⟨hn', -⟩ := saEnding_cases s
    · exact ⟨_, by rw [exec_of_mem_saCommands hi, he, conclude_faults],
        raiseFault_faultedWith .outOfMemory s.x[1] 0#32 0#32 s.mem s, raiseFault_sameOutside _ _ _ _ s.mem s, rfl⟩
    · omega
    · omega
  · obtain ⟨hn', -⟩ | ⟨-, -, he⟩ | ⟨-, hr', -⟩ := saEnding_cases s
    · omega
    · exact ⟨_, by rw [exec_of_mem_saCommands hi, he, conclude_faults],
        raiseFault_faultedWith .badOperand 0#32 0#32 0#32 s.mem s, raiseFault_sameOutside _ _ _ _ s.mem s, rfl⟩
    · simp [hr] at hr'

end Sys2Proof.Machine
end

section
/-! PROOFS. A command's outcome is a function of its operands and its input regions (70_reset_and_hazards.md R312;
40_suffix_sorter.md R138): its ending is, and on completion the stores of the ending fill the output regions. -/

namespace Sys2Proof.Machine

/-- The ending that a command's procedure computes (30_encoding.md R101). -/
def endingOf (i : Instr) (s : State) : Ending :=
  match i with
  | .saNaive | .saPd | .saIs | .saDc3 => saEnding s
  | .bwtEncNaive | .bwtEncPd | .bwtEncIs | .bwtEncDc3 => bwtEncEnding s
  | .bwtDecP => bwtDecPEnding s
  | .bwtDecS => bwtDecSEnding s
  | .hufBuild => buildEnding s
  | .hufCanon => canonEnding s
  | .hufEnc => encEnding s
  | .hufDec => decEnding s
  | .hufLen => lenEnding s

theorem exec_eq_conclude_endingOf (i : Instr) (s : State) : exec i s = conclude s (endingOf i s) := by
  cases i <;> rfl

theorem endingOf_fits (i : Instr) (s : State) : (endingOf i s).Fits := by
  cases i with
  | saNaive | saPd | saIs | saDc3 => exact saEnding_fits s
  | bwtEncNaive | bwtEncPd | bwtEncIs | bwtEncDc3 => exact bwtEncEnding_fits s
  | bwtDecP => exact bwtDecPEnding_fits s
  | bwtDecS => exact bwtDecSEnding_fits s
  | hufBuild => exact buildEnding_fits s
  | hufCanon => exact canonEnding_fits s
  | hufEnc => exact encEnding_fits s
  | hufDec => exact decEnding_fits s
  | hufLen => exact lenEnding_fits s

/-! ### The ending depends on operands and input regions -/

/-- Two states with the same operands on the same platform, whose memories agree on some regions. -/
structure AgreeOn (rs : List Region) (s u : State) : Prop where
  x : s.x = u.x
  platform : s.platform = u.platform
  mem : ∀ r ∈ rs, ∀ a, inRegion r a = true → s.mem.read a = u.mem.read a

section
variable {rs : List Region} {s u : State}

theorem AgreeOn.operand (h : AgreeOn rs s u) (i : Fin 8) : s.operand i = u.operand i := operand_congr h.x i

theorem AgreeOn.regionAt (h : AgreeOn rs s u) (i : Fin 8) (n : Nat) : s.regionAt i n = u.regionAt i n := by
  rw [State.regionAt, State.regionAt, h.operand]

theorem AgreeOn.onBacked (h : AgreeOn rs s u) (qs : List Region) (e : Ending) : onBacked s qs e = onBacked u qs e := by
  rw [Machine.onBacked, Machine.onBacked, h.platform]

/-- The bytes of an input region. -/
theorem AgreeOn.readBytes (h : AgreeOn rs s u) {base n : Nat} (hr : ⟨base, n⟩ ∈ rs) :
    s.mem.readBytes base n = u.mem.readBytes base n :=
  Memory.readBytes_congr fun i hi => h.mem _ hr _ ((inRegion_iff _ _).2 ⟨by simp, by simpa using hi⟩)

/-- A word inside an input region. -/
theorem AgreeOn.readWord (h : AgreeOn rs s u) {base n a : Nat} (hr : ⟨base, n⟩ ∈ rs) (hle : base ≤ a)
    (hlt : a + 4 ≤ base + n) : s.mem.readWord a = u.mem.readWord a :=
  Memory.readWord_congr fun k hk => h.mem _ hr _ ((inRegion_iff _ _).2 ⟨by simp; omega, by simp; omega⟩)

theorem saEnding_congr (h : AgreeOn [saIn s] s u) : saEnding s = saEnding u := by
  have htext : textOf s = textOf u := by
    rw [textOf, h.readBytes (List.mem_singleton_self _), h.operand, h.operand, textOf]
  simp only [saEnding, h.onBacked, saIn, saOut, h.regionAt, h.operand, h.platform, h.x, htext]
  rfl

theorem bwtEncEnding_congr (h : AgreeOn [bwtEncIn s] s u) : bwtEncEnding s = bwtEncEnding u := by
  have htext : textOf s = textOf u := by
    rw [textOf, h.readBytes (List.mem_singleton_self _), h.operand, h.operand, textOf]
  simp only [bwtEncEnding, h.onBacked, bwtEncIn, bwtEncOut, h.regionAt, h.operand, h.platform, h.x, htext]

theorem bwtOf_congr (h : AgreeOn [bwtDecIn s] s u) : bwtOf s = bwtOf u := by
  rw [bwtOf, h.readBytes (List.mem_singleton_self _), h.operand, h.operand, bwtOf]

theorem bwtDecChecked_congr (h : AgreeOn [bwtDecIn s] s u) (e : Ending) : bwtDecChecked s e = bwtDecChecked u e := by
  simp only [bwtDecChecked, h.onBacked, bwtDecIn, bwtDecOut, h.regionAt, h.operand, h.platform, h.x]
  rfl

theorem bwtDecWalk_congr (h : AgreeOn [bwtDecIn s] s u) (p : Nat) : bwtDecWalk s p = bwtDecWalk u p := by
  simp only [bwtDecWalk, bwtOf_congr h, h.operand]

theorem bwtDecPEnding_congr (h : AgreeOn [bwtDecIn s] s u) : bwtDecPEnding s = bwtDecPEnding u := by
  simp only [bwtDecPEnding, bwtDecChecked_congr h, bwtDecPData, bwtDecWalk_congr h, bwtOf_congr h, h.operand]

theorem bwtDecSEnding_congr (h : AgreeOn [bwtDecIn s] s u) : bwtDecSEnding s = bwtDecSEnding u := by
  simp only [bwtDecSEnding, bwtDecChecked_congr h, bwtDecSData, bwtDecWalk_congr h, bwtOf_congr h, h.operand]

theorem buildEnding_congr (h : AgreeOn [buildIn s] s u) : buildEnding s = buildEnding u := by
  have hfreq : freqOf s = freqOf u := by
    rw [freqOf, freqOf, ← h.operand]
    refine List.map_congr_left fun k hk => ?_
    have := List.mem_range.1 hk
    exact h.readWord (List.mem_singleton_self _) (by omega) (by simp only [alphabet] at this; omega)
  simp only [buildEnding, h.onBacked, buildIn, buildOutLengths, buildOutCodes, h.regionAt, h.operand, hfreq]
  rfl

theorem lengthTableAt_congr (h : AgreeOn rs s u) {base : Nat} (hr : ⟨base, 256⟩ ∈ rs) :
    lengthTableAt s base = lengthTableAt u base := by
  rw [lengthTableAt, lengthTableAt, alphabet, h.readBytes hr]

theorem canonEnding_congr (h : AgreeOn [canonIn s] s u) : canonEnding s = canonEnding u := by
  have hlens : lengthTableAt s (u.operand 0) = lengthTableAt u (u.operand 0) :=
    lengthTableAt_congr h (List.mem_singleton.2 (by rw [canonIn, State.regionAt, h.operand]))
  simp only [canonEnding, h.onBacked, canonIn, canonOut, h.regionAt, h.operand, hlens]
  rfl

theorem encEnding_congr (h : AgreeOn (encIns s) s u) : encEnding s = encEnding u := by
  have hlens : lengthsOf s = lengthsOf u := by
    rw [lengthsOf, lengthTableAt_congr h (by simp [encIns, State.regionAt]), h.operand, lengthsOf]
  have hsymbols : symbolsOf s = symbolsOf u := by
    rw [symbolsOf, h.readBytes (by simp [encIns, State.regionAt]), h.operand, h.operand, symbolsOf]
  have hcode : encCode s = encCode u := by
    funext b
    rw [encCode, h.readWord (base := s.operand 4) (n := 1024) (by simp [encIns, State.regionAt]) (by omega)
      (by have := b.isLt; omega), h.operand, encCode]
  simp only [encEnding, encData, encWrite, h.onBacked, encIns, encOut, h.regionAt, h.operand, hlens, hsymbols, hcode]
  rfl

theorem lengthsOf_congr_decIns (h : AgreeOn (decIns s) s u) : lengthsOf s = lengthsOf u := by
  rw [lengthsOf, lengthTableAt_congr h (by simp [decIns, State.regionAt]), h.operand, lengthsOf]

theorem decodedOf_congr (h : AgreeOn (decIns s) s u) : decodedOf s = decodedOf u := by
  have hstream : streamOf s = streamOf u := by
    rw [streamOf, h.readBytes (by simp [decIns, State.regionAt]), h.operand, h.operand, streamOf]
  simp only [decodedOf, hstream, lengthsOf_congr_decIns h, h.operand]

theorem decEnding_congr (h : AgreeOn (decIns s) s u) : decEnding s = decEnding u := by
  simp only [decEnding, decChecked, decWrite, decEnd, h.onBacked, lengthsOf_congr_decIns h, decodedOf_congr h, decIns,
    decOut, h.regionAt, h.operand, h.x]
  rfl

theorem lenEnding_congr (h : AgreeOn (decIns s) s u) : lenEnding s = lenEnding u := by
  simp only [lenEnding, decChecked, decEnd, h.onBacked, lengthsOf_congr_decIns h, decodedOf_congr h, decIns, h.regionAt,
    h.operand, h.x]
  rfl

/-- The ending of a command is a function of its operands, the platform and its input regions. -/
theorem endingOf_congr {i : Instr} (h : AgreeOn (inputRegions i s) s u) : endingOf i s = endingOf i u := by
  cases i with
  | saNaive | saPd | saIs | saDc3 => exact saEnding_congr h
  | bwtEncNaive | bwtEncPd | bwtEncIs | bwtEncDc3 => exact bwtEncEnding_congr h
  | bwtDecP => exact bwtDecPEnding_congr h
  | bwtDecS => exact bwtDecSEnding_congr h
  | hufBuild => exact buildEnding_congr h
  | hufCanon => exact canonEnding_congr h
  | hufEnc => exact encEnding_congr h
  | hufDec => exact decEnding_congr h
  | hufLen => exact lenEnding_congr h

end

/-! ### A completion fills the output regions -/

/-- An ending of an engine that is not stuck, in which a completion stores each of the regions `outs` whole. -/
inductive Ending.Covers (outs : List Region) : Ending → Prop
  | completes {stores : List Store} (r0 r1 : Word) (h : ∀ r ∈ outs, ∃ t ∈ stores, t.region = r) :
    Covers outs (.completes stores r0 r1)
  | faults (c : Cause) (info : Word) : Covers outs (.faults c info)
  | truncates (stores : List Store) (cnt start : Word) : Covers outs (.truncates stores cnt start)
  | notPlain : Covers outs .notPlain

section
variable {s : State} {outs : List Region} {e : Ending}

theorem Ending.covers_invalidData (sub : Nat) : (invalidData sub).Covers outs := .faults _ _

theorem Ending.Covers.onBacked (hp : s.platform.allMemory = true) (h : e.Covers outs) (rs : List Region) :
    (onBacked s rs e).Covers outs := by
  rwa [onBacked_memory (backing_of_allMemory hp rs)]

theorem Ending.covers_lenChecked {lens : List Nat} (h : lengthOverflow lens = none → e.Covers outs) :
    (lenChecked lens e).Covers outs := by
  obtain ⟨hl, he⟩ | ⟨sym, -, he⟩ := lenChecked_cases lens e <;> rw [he]
  · exact h hl
  · exact .faults _ _

theorem saEnding_covers (hp : s.platform.allMemory = true) : (saEnding s).Covers [saOut s] := by
  obtain ⟨-, he⟩ | ⟨-, -, he⟩ | ⟨-, -, he⟩ := saEnding_cases s <;> rw [he]
  · exact .faults _ _
  · exact .faults _ _
  · exact .onBacked hp (.completes _ _ <| by simp [Store.region, saOut, State.regionAt]) _

theorem bwtEncEnding_covers (hp : s.platform.allMemory = true) : (bwtEncEnding s).Covers [bwtEncOut s] := by
  obtain ⟨-, he⟩ | ⟨-, -, he⟩ | ⟨-, -, -, he⟩ | ⟨-, -, -, he⟩ := bwtEncEnding_cases s <;> rw [he]
  · exact .faults _ _
  · exact .faults _ _
  · exact .onBacked hp (Ending.covers_invalidData 1) _
  · exact .onBacked hp (.completes _ _ <| by simp [Store.region, bwtEncOut, State.regionAt]) _

theorem bwtDecWalk_covers (s : State) (p : Nat) : (bwtDecWalk s p).Covers [bwtDecOut s] := by
  obtain ⟨-, he⟩ | ⟨out, -, hlen, he⟩ := bwtDecWalk_cases s p <;> rw [he]
  · exact .faults _ _
  · exact .completes _ _ (by simp [Store.region, hlen, bwtDecOut, State.regionAt])

theorem Ending.Covers.bwtDecChecked (hp : s.platform.allMemory = true) (h : e.Covers outs) :
    (bwtDecChecked s e).Covers outs := by
  obtain ⟨-, he⟩ | ⟨-, -, he⟩ | ⟨-, -, he⟩ := bwtDecChecked_cases s e <;> rw [he]
  · exact .faults _ _
  · exact .faults _ _
  · exact h.onBacked hp _

theorem bwtDecPData_covers (s : State) : (bwtDecPData s).Covers [bwtDecOut s] := by
  obtain ⟨-, he⟩ | ⟨-, -, he⟩ | ⟨-, -, he⟩ | ⟨-, -, -, he⟩ | ⟨-, -, -, he⟩ := bwtDecPData_cases s <;> rw [he]
  · exact .faults _ _
  · exact .faults _ _
  · exact .faults _ _
  · exact .faults _ _
  · exact bwtDecWalk_covers s _

theorem bwtDecSData_covers (s : State) : (bwtDecSData s).Covers [bwtDecOut s] := by
  obtain ⟨-, he⟩ | ⟨-, -, he⟩ | ⟨-, -, he⟩ := bwtDecSData_cases s <;> rw [he]
  · exact .faults _ _
  · exact .faults _ _
  · exact bwtDecWalk_covers s _

theorem buildEnding_covers (hp : s.platform.allMemory = true) :
    (buildEnding s).Covers [buildOutLengths s, buildOutCodes s] := by
  obtain ⟨-, he⟩ | ⟨-, he⟩ := buildEnding_cases s <;> rw [he]
  · exact .faults _ _
  · refine .onBacked hp (Ending.covers_lenChecked fun _ => ?_) _
    exact .completes _ _ (by simp [Store.region, buildOutLengths, buildOutCodes, State.regionAt, alphabet])

theorem canonEnding_covers (hp : s.platform.allMemory = true) : (canonEnding s).Covers [canonOut s] := by
  obtain ⟨-, he⟩ | ⟨-, he⟩ := canonEnding_cases s <;> rw [he]
  · exact .faults _ _
  · refine .onBacked hp (Ending.covers_lenChecked fun _ => ?_) _
    split
    · exact .faults _ _
    · exact .completes _ _ (by simp [Store.region, canonOut, State.regionAt, alphabet])

theorem encWrite_covers (hp : s.platform.allMemory = true) :
    (encWrite s (bitCount (lengthsOf s) (symbolsOf s))).Covers (encOutputs s) := by
  obtain ⟨-, he⟩ | ⟨-, he⟩ := encWrite_cases s (bitCount (lengthsOf s) (symbolsOf s)) <;> rw [he]
  · exact .faults _ _
  · refine .onBacked hp (.completes _ _ fun r hr => ?_) _
    have hr : r = encOut s (bitCount (lengthsOf s) (symbolsOf s)) := by
      simp only [encOutputs] at hr
      split at hr <;> simp_all
    simp [hr, Store.region, encOut, State.regionAt]

theorem encEnding_covers (hp : s.platform.allMemory = true) : (encEnding s).Covers (encOutputs s) := by
  obtain ⟨-, he⟩ | ⟨-, he⟩ := encEnding_cases s <;> rw [he]
  · exact .faults _ _
  · refine .onBacked hp (Ending.covers_lenChecked fun _ => ?_) _
    obtain ⟨-, hd⟩ | ⟨-, -, hd⟩ | ⟨-, -, hd⟩ := encData_cases s <;> rw [hd]
    · exact .faults _ _
    · exact .faults _ _
    · exact encWrite_covers hp

theorem Ending.Covers.decChecked (hp : s.platform.allMemory = true) (h : e.Covers outs) :
    (decChecked s e).Covers outs := by
  obtain ⟨-, he⟩ | ⟨-, -, he⟩ | ⟨-, -, he⟩ := decChecked_cases s e <;> rw [he]
  · exact .faults _ _
  · exact .onBacked hp (Ending.covers_lenChecked fun _ => Ending.covers_invalidData 8) _
  · exact .onBacked hp (Ending.covers_lenChecked fun _ => h) _

theorem decEnd_covers {stores : List Store} (h : ∀ r ∈ outs, ∃ t ∈ stores, t.region = r) (d : Decoded) :
    (decEnd s d stores).Covers outs := by
  obtain ⟨-, he⟩ | ⟨start, -, he⟩ := decEnd_cases s d stores <;> rw [he]
  · exact .completes _ _ h
  · exact .truncates _ _ _

theorem decWrite_covers (hp : s.platform.allMemory = true) : (decWrite s (decodedOf s)).Covers (decOutputs s) := by
  obtain ⟨-, he⟩ | ⟨-, he⟩ := decWrite_cases s (decodedOf s) <;> rw [he]
  · exact .faults _ _
  · refine .onBacked hp (decEnd_covers (fun r hr => ?_) _) _
    have hr : r = decOut s (decodedOf s).symbols.length := by
      simp only [decOutputs] at hr
      split at hr <;> simp_all
    simp [hr, Store.region, decOut, State.regionAt]

/-- A command on plain memory that completes stores each of its output regions whole. -/
theorem endingOf_covers (hp : s.platform.allMemory = true) (i : Instr) : (endingOf i s).Covers (outputRegions i s) := by
  cases i with
  | saNaive | saPd | saIs | saDc3 => exact saEnding_covers hp
  | bwtEncNaive | bwtEncPd | bwtEncIs | bwtEncDc3 => exact bwtEncEnding_covers hp
  | bwtDecP => exact (bwtDecPData_covers s).bwtDecChecked hp
  | bwtDecS => exact (bwtDecSData_covers s).bwtDecChecked hp
  | hufBuild => exact buildEnding_covers hp
  | hufCanon => exact canonEnding_covers hp
  | hufEnc => exact encEnding_covers hp
  | hufDec => exact (decWrite_covers hp).decChecked hp
  | hufLen => exact (decEnd_covers (fun r hr => by simp [outputRegions] at hr) _).decChecked hp

end

/-- What stores leave inside their regions does not depend on the memory before them (20_memory.md R61). -/
theorem read_storeAll_inside {m m' : Memory} (hm : m.wf = true) (hm' : m'.wf = true) {stores : List Store}
    (hfits : ∀ t ∈ stores, inRange t.region = true) {a : Nat} (ha : ∃ t ∈ stores, inRegion t.region a = true) :
    (storeAll m stores).read a = (storeAll m' stores).read a := by
  induction stores generalizing m m' with
  | nil => simp at ha
  | cons t stores ih =>
    have ht : t.base + t.data.length ≤ memorySize := (inRange_iff _).1 (hfits t (by simp))
    rw [storeAll_cons, storeAll_cons]
    by_cases hlater : ∃ q ∈ stores, inRegion q.region a = true
    · exact ih (Memory.wf_writeBytes hm ht) (Memory.wf_writeBytes hm' ht) (fun q hq => hfits q (by simp [hq])) hlater
    · have hout : ∀ q ∈ stores, inRegion q.region a = false := fun q hq =>
        Bool.eq_false_iff.2 fun h => hlater ⟨q, hq, h⟩
      obtain ⟨q, hq, hqa⟩ := ha
      obtain rfl | hq := List.mem_cons.1 hq
      · obtain ⟨hle, hlt⟩ := (inRegion_iff _ _).1 hqa
        simp only [Store.region] at hle hlt
        obtain ⟨k, rfl⟩ := Nat.exists_eq_add_of_le hle
        have hk : k < q.data.length := by omega
        rw [read_storeAll_outside _ _ hout, read_storeAll_outside _ _ hout, Memory.read_writeBytes_inside hm ht hk,
          Memory.read_writeBytes_inside hm' ht hk]
      · exact absurd ⟨q, hq, hqa⟩ hlater

/-- Settles O56: the two states have the same ending, and it decides all that the statement compares. -/
theorem commandsHoldNoStateBetweenCalls : Obligations.CommandsHoldNoStateBetweenCalls := by
  intro i s u t hsm hum hp hx hplat hsd hud hmem hexec
  have hsame : endingOf i s = endingOf i u := endingOf_congr ⟨hx, hplat, hmem⟩
  have hcovers := endingOf_covers hp i
  have hfits := endingOf_fits i s
  rw [exec_eq_conclude_endingOf] at hexec
  rw [exec_eq_conclude_endingOf, ← hsame]
  obtain ⟨stores, r0, r1, he, rfl⟩ | ⟨c, info, he, rfl⟩ | ⟨stores, cnt, start, he, rfl⟩ | ⟨he, rfl⟩ :=
    conclude_next hexec <;> rw [he] at hcovers hfits ⊢
  · refine ⟨_, rfl, rfl, rfl, rfl, rfl, rfl, rfl, fun hf => hf.symm, fun _ r hr a ha => ?_⟩
    obtain ⟨_, _, hstored⟩ := hcovers
    obtain ⟨q, hq, rfl⟩ := hstored r hr
    exact read_storeAll_inside hum hsm hfits ⟨q, hq, ha⟩
  · exact ⟨_, rfl, rfl, rfl, rfl, rfl, hud.trans hsd.symm, rfl, fun _ => rfl, fun hd => by simp [hsd] at hd⟩
  · exact ⟨_, rfl, rfl, rfl, rfl, rfl, hud.trans hsd.symm, rfl, fun _ => rfl, fun hd => by simp [hsd] at hd⟩
  · cases hcovers

end Sys2Proof.Machine
end

section
/-! PROOFS. The LF-mapping (41_bwt_codec.md R178): the place of each row under the stable sort of `L` by byte value. -/

namespace Sys2Proof.Machine

/-! ### The counted rows -/

/-- The bytes below `m + 1` are those below `m` and those equal to `m`. -/
theorem countP_toNat_lt_succ (L : List Byte) {m : Nat} (hm : m < 256) :
    (L.countP fun c => decide (c.toNat < m + 1)) =
      (L.countP fun c => decide (c.toNat < m)) + L.count (BitVec.ofNat 8 m) := by
  induction L with
  | nil => rfl
  | cons c L ih =>
    have hc : c = BitVec.ofNat 8 m ↔ c.toNat = m := by
      rw [BitVec.toNat_eq, BitVec.toNat_ofNat, Nat.mod_eq_of_lt hm]
    simp only [List.countP_cons, List.count_cons, beq_iff_eq, decide_eq_true_eq, ih, hc]
    split <;> split <;> split <;> omega

/-- `C[c]` is the number of bytes of `L` below `c` (41_bwt_codec.md R178). -/
theorem firstRow_eq_countP (L : List Byte) (c : Byte) :
    firstRow L c = L.countP fun d => decide (d.toNat < c.toNat) := by
  have hsum (m : Nat) (hm : m ≤ 256) : ((List.range m).map fun d => byteCount L (BitVec.ofNat 8 d)).sum =
      L.countP fun d => decide (d.toNat < m) := by
    induction m with
    | zero => simp
    | succ m ih =>
      rw [List.range_succ, List.map_append, List.sum_append, ih (by omega), countP_toNat_lt_succ L (by omega)]
      simp [byteCount]
  exact hsum c.toNat c.isLt.le

/-- The pass adds the tally of the bytes passed so far (41_bwt_codec.md R178). -/
theorem getD_lfPass (L : List Byte) {occ : List Nat} (hocc : occ.length = alphabet) {cs : List Byte} {k : Nat}
    (hk : k < cs.length) : (lfPass L occ cs).getD k 0 =
      firstRow L cs[k] + (occ.getD cs[k].toNat 0 + (cs.take k).count cs[k]) := by
  induction cs generalizing occ k with
  | nil => simp at hk
  | cons c cs ih =>
    cases k with
    | zero => simp [lfPass]
    | succ k =>
      have hk : k < cs.length := by simpa using hk
      have hc : c.toNat < occ.length := hocc ▸ c.isLt
      rw [lfPass, List.getD_cons_succ, ih (by simpa using hocc) hk]
      simp only [List.getElem_cons_succ, List.take_succ_cons, List.count_cons, beq_iff_eq]
      by_cases heq : c = cs[k]
      · simp [← heq, hc]
        omega
      · have hne : c.toNat ≠ cs[k].toNat := fun h => heq (BitVec.toNat_inj.1 h)
        simp [heq, List.getElem?_set_ne hne]

/-- The one-pass LF-mapping is the counted one (41_bwt_codec.md R178). -/
theorem getD_lfMapping {L : List Byte} {i : Nat} (hi : i < L.length) : (lfMapping L).getD i 0 = lfRow L i := by
  have hzero : (List.replicate alphabet 0).getD (L[i].toNat) 0 = 0 := by
    simp only [List.getD_eq_getElem?_getD, List.getElem?_replicate]
    split <;> rfl
  rw [lfMapping, getD_lfPass L (by simp) hi, firstRow_eq_countP, hzero, lfRow, List.getD_eq_getElem _ _ hi,
    Nat.zero_add]

/-! ### The order that the mapping counts -/

/-- Row `j` comes before row `i` under the stable sort of `L` by byte value. -/
def RowBelow (L : List Byte) (j i : Nat) : Prop :=
  (L.getD j 0#8).toNat < (L.getD i 0#8).toNat ∨ L.getD j 0#8 = L.getD i 0#8 ∧ j < i

theorem rowBelow_trichotomy (L : List Byte) (j i : Nat) : RowBelow L j i ∨ j = i ∨ RowBelow L i j := by
  simp only [RowBelow, ← BitVec.toNat_inj]
  omega

/-- A row's place leaves room for the row itself among the bytes up to its own. -/
theorem lfRow_lt_countP {L : List Byte} {i : Nat} (hi : i < L.length) :
    lfRow L i < L.countP fun c => decide (c.toNat < (L.getD i 0#8).toNat + 1) := by
  have hsplit := List.take_append_drop i L
  have hrest : 0 < (L.drop i).count (L.getD i 0#8) := by
    rw [List.count_pos_iff, List.getD_eq_getElem _ _ hi, List.drop_eq_getElem_cons hi]
    exact List.mem_cons_self
  have hcount : L.count (L.getD i 0#8) = (L.take i).count (L.getD i 0#8) + (L.drop i).count (L.getD i 0#8) := by
    rw [← List.count_append, hsplit]
  rw [countP_toNat_lt_succ L (BitVec.isLt _), BitVec.ofNat_toNat, BitVec.setWidth_eq, hcount, lfRow]
  omega

theorem lfRow_lt {L : List Byte} {i : Nat} (hi : i < L.length) : lfRow L i < L.length :=
  (lfRow_lt_countP hi).trans_le List.countP_le_length

/-- The mapping keeps the order of the stable sort (41_bwt_codec.md R178). -/
theorem lfRow_lt_lfRow {L : List Byte} {j i : Nat} (hj : j < L.length) (h : RowBelow L j i) :
    lfRow L j < lfRow L i := by
  obtain hlt | ⟨heq, hlt⟩ := h
  · calc lfRow L j < L.countP fun c => decide (c.toNat < (L.getD j 0#8).toNat + 1) := lfRow_lt_countP hj
      _ ≤ L.countP fun c => decide (c.toNat < (L.getD i 0#8).toNat) :=
        List.countP_mono_left fun c _ => by simp only [decide_eq_true_eq]; omega
      _ ≤ lfRow L i := Nat.le_add_right _ _
  · have hstep : (L.take (j + 1)).count (L.getD j 0#8) = (L.take j).count (L.getD j 0#8) + 1 := by
      rw [List.take_add_one, List.count_append, List.getElem?_eq_getElem hj, List.getD_eq_getElem _ _ hj]
      simp
    have hmono : (L.take (j + 1)).count (L.getD j 0#8) ≤ (L.take i).count (L.getD j 0#8) :=
      (List.take_sublist_take_left hlt).count_le _
    simp only [lfRow, ← heq]
    omega

/-- A list of positions whose images ascend among as many rows has the rows `0, 1, ...` as its images. -/
theorem map_eq_range {N : Nat} {sa : List Nat} {g : Nat → Nat} (hsa : sa.length = N) (hlt : ∀ q ∈ sa, g q < N)
    (hmono : sa.Pairwise fun a b => g a < g b) : sa.map g = List.range N := by
  have hsorted : (sa.map g).Pairwise (· < ·) := List.pairwise_map.2 hmono
  have hperm : (sa.map g).Perm (List.range N) := by
    refine (List.subperm_of_subset (hsorted.imp fun h => h.ne) fun r hr => ?_).perm_of_length_le (by simp [hsa])
    obtain ⟨q, hq, rfl⟩ := List.mem_map.1 hr
    exact List.mem_range.2 (hlt q hq)
  exact hperm.eq_of_pairwise (fun _ _ _ _ h h' => absurd h' h.asymm) hsorted List.pairwise_lt_range

/-- In a list whose images are the rows in order, each entry's image is its place. -/
theorem getElem_of_map_eq_range {N : Nat} {sa : List Nat} {g : Nat → Nat} (h : sa.map g = List.range N) {r : Nat}
    (hr : r < sa.length) : g sa[r] = r := by
  have hget := congrArg (fun l => l[r]?) h
  rw [List.getElem?_map, List.getElem?_eq_getElem hr, Option.map_some] at hget
  obtain ⟨hlt, hrow⟩ := List.getElem?_eq_some_iff.1 hget.symm
  rw [← hrow, List.getElem_range]

/-- Settles O31: the pass adds up what `lfRow` counts, and two rows, one before the other under the stable sort, have
two places. -/
theorem lfMappingIsAPermutation : Obligations.LfMappingIsAPermutation := by
  refine fun L => ⟨fun i hi => getD_lfMapping hi, ?_⟩
  have hrow {i : Nat} (hi : i < (lfMapping L).length) : (lfMapping L)[i] = lfRow L i ∧ i < L.length := by
    have hi' : i < L.length := by simpa using hi
    exact ⟨by rw [← getD_lfMapping hi', List.getD_eq_getElem _ _ hi], hi'⟩
  have hnodup : (lfMapping L).Nodup := List.pairwise_iff_getElem.2 fun i j hi hj hij => by
    obtain ⟨hLi, hi⟩ := hrow hi
    obtain ⟨hLj, hj⟩ := hrow hj
    rw [hLi, hLj]
    obtain h | rfl | h := rowBelow_trichotomy L i j
    · exact (lfRow_lt_lfRow hi h).ne
    · omega
    · exact (lfRow_lt_lfRow hj h).ne'
  refine (List.subperm_of_subset hnodup fun r hr => ?_).perm_of_length_le (by simp)
  obtain ⟨i, hi, rfl⟩ := List.getElem_of_mem hr
  obtain ⟨hLi, hi⟩ := hrow hi
  exact List.mem_range.2 (hLi ▸ lfRow_lt hi)

end Sys2Proof.Machine
end

section
/-! PROOFS. The backward walk (41_bwt_codec.md R179, R180 (e)): after `k` steps it stands at the `k`-th iterate of the
LF-mapping, and it completes when it does not come back early. -/

namespace Sys2Proof.Machine

/-- What `n` steps of the walk from `row` put in place, from the last position to the first (41_bwt_codec.md R179). -/
def emitted (L : List Byte) (row n : Nat) : List Byte :=
  (List.range n).map fun q => L.getD ((lfRow L)^[n - 1 - q] row) 0#8

@[simp] theorem length_emitted (L : List Byte) (row n : Nat) : (emitted L row n).length = n := by simp [emitted]

theorem getD_emitted (L : List Byte) (row : Nat) {n q : Nat} (hq : q < n) :
    (emitted L row n).getD q 0#8 = L.getD ((lfRow L)^[n - 1 - q] row) 0#8 := by
  simp [emitted, hq]

/-- The first step fills the last position. -/
theorem emitted_succ (L : List Byte) (row n : Nat) :
    emitted L row (n + 1) = emitted L (lfRow L row) n ++ [L.getD row 0#8] := by
  rw [emitted, List.range_succ, List.map_append]
  congr 1
  · refine List.map_congr_left fun q hq => ?_
    have hq := List.mem_range.1 hq
    rw [← Function.iterate_succ_apply, show n + 1 - 1 - q = n - 1 - q + 1 by omega]
  · simp

/-- The walk with output in place stops early exactly when it comes by `p` (41_bwt_codec.md R180 (e)). -/
theorem walkBack_eq_some_iff {L out acc : List Byte} {p n row : Nat} (hrow : row < L.length) :
    walkBack L (lfMapping L) p n row acc = some out ↔
      (∀ k < n, acc = [] ∧ k = 0 ∨ (lfRow L)^[k] row ≠ p) ∧ out = emitted L row n ++ acc := by
  induction n generalizing row acc with
  | zero => simp [walkBack, emitted, eq_comm]
  | succ n ih =>
    rw [walkBack, Nat.forall_lt_succ_left]
    split
    · rename_i h
      simp [h]
    · rename_i h
      have hfirst : acc = [] ∨ row ≠ p := by tauto
      rw [getD_lfMapping hrow, ih (lfRow_lt hrow), emitted_succ]
      simp [hfirst]

/-- The inverse completes exactly from a row whose walk does not come back early, and with what the walk emitted
(41_bwt_codec.md R179, R180 (e)). -/
theorem inverseBwt_eq_some_iff {L out : List Byte} {p : Nat} (hp : p < L.length) :
    inverseBwt L p = some out ↔ singleCycle L p = true ∧ out = emitted L p L.length := by
  simp [inverseBwt, walkBack_eq_some_iff hp, singleCycle]

end Sys2Proof.Machine
end

section
/-! PROOFS. The transform of a text and its inverse (41_bwt_codec.md R170, R177, R184): the row of the suffix before a
suffix is one step of the LF-mapping, so that the walk goes through the suffixes from the shortest to the longest. -/

namespace Sys2Proof.Machine

/-! ### The bytes of the transform -/

/-- The forward transform of a text (41_bwt_codec.md R170). -/
def transformOf (text : List Byte) : List Byte := bwtBytes text (suffixArray (extendedText text))

/-- The primary row of a text (41_bwt_codec.md R170). -/
def primaryRow (text : List Byte) : Nat := primaryIndex (suffixArray (extendedText text))

@[simp] theorem length_transformOf (text : List Byte) : (transformOf text).length = text.length + 1 := by
  simp [transformOf]

/-- Row `r` of `L` holds the byte before suffix `SA[r]` (41_bwt_codec.md R170). -/
theorem getD_transformOf (text : List Byte) {r : Nat} (hr : r < (suffixArray (extendedText text)).length) (d : Byte) :
    (transformOf text).getD r d = if (suffixArray (extendedText text))[r] = 0 then 0x00#8
      else text.getD ((suffixArray (extendedText text))[r] - 1) 0#8 := by
  simp [transformOf, bwtBytes, sentinelByte, List.getElem?_eq_getElem hr]

theorem suffixArray_nodup (text : List Byte) : (suffixArray (extendedText text)).Nodup :=
  (suffixArray_isSuffixArray _).1.nodup_iff.2 List.nodup_range

/-- The primary row is the row of suffix 0 (41_bwt_codec.md R170). -/
theorem getElem_primaryRow (text : List Byte) : (suffixArray (extendedText text))[primaryRow text]? = some 0 :=
  List.getElem?_idxOf ((suffixArray_isSuffixArray _).1.mem_iff.2 (by simp))

theorem primaryRow_lt (text : List Byte) : primaryRow text < text.length + 1 := by
  obtain ⟨h, -⟩ := List.getElem?_eq_some_iff.1 (getElem_primaryRow text)
  simpa using h

/-- In the order of the positions the bytes of the transform are the text after its sentinel. -/
theorem map_range_bwtByte (text : List Byte) :
    ((List.range (text.length + 1)).map fun p => if p = 0 then sentinelByte else text.getD (p - 1) 0#8) =
      sentinelByte :: text := by
  rw [List.range_succ_eq_map, List.map_cons, List.map_map]
  congr 1
  exact List.ext_getElem (by simp) fun i _ hi => by simp [hi]

/-- `L` is a permutation of the extended text's bytes (41_bwt_codec.md R177 (b)). -/
theorem transformOf_perm (text : List Byte) : (transformOf text).Perm (text ++ [0x00#8]) := by
  have hsa := (suffixArray_isSuffixArray (extendedText text)).1
  rw [length_extendedText] at hsa
  have hmap := hsa.map fun p => if p = 0 then sentinelByte else text.getD (p - 1) 0#8
  rw [map_range_bwtByte] at hmap
  exact hmap.trans (List.perm_append_singleton _ _).symm

/-- `L` holds the sentinel byte at the primary row and nowhere else (41_bwt_codec.md R177 (c)). -/
theorem getD_transformOf_eq_zero_iff {text : List Byte} (hz : 0x00#8 ∉ text) {r : Nat} (hr : r < text.length + 1)
    (d : Byte) : (transformOf text).getD r d = 0x00#8 ↔ r = primaryRow text := by
  have hlt : r < (suffixArray (extendedText text)).length := by simpa using hr
  have hpos := lt_of_mem_suffixArray (List.getElem_mem hlt)
  rw [length_extendedText] at hpos
  have hrow : r = primaryRow text ↔ (suffixArray (extendedText text))[r] = 0 :=
    ⟨fun h => by
      have hrow := getElem_primaryRow text
      rwa [← h, List.getElem?_eq_getElem hlt, Option.some_inj] at hrow,
      fun h => by rw [primaryRow, primaryIndex, ← h, (suffixArray_nodup text).idxOf_getElem]⟩
  rw [getD_transformOf text hlt, hrow]
  split
  · rename_i h
    simp [h]
  · rename_i h
    have hmem : text.getD ((suffixArray (extendedText text))[r] - 1) 0#8 ∈ text := by
      rw [List.getD_eq_getElem _ _ (by omega)]
      exact List.getElem_mem _
    exact ⟨fun h0 => absurd (h0 ▸ hmem) hz, fun h0 => absurd h0 h⟩

/-- `L[0] = text[n-1]`, the sentinel's suffix being first (41_bwt_codec.md R177 (d)). -/
theorem head_transformOf {text : List Byte} (hne : text ≠ []) : (transformOf text).head? = text.getLast? := by
  have hlen : text.length ≠ 0 := by simpa using hne
  rw [transformOf, bwtBytes, List.head?_map, head_suffixArray, Option.map_some, if_neg hlen, List.getLast?_eq_getElem?,
    List.getD_eq_getElem _ _ (by omega), List.getElem?_eq_getElem (by omega)]

/-- A text with its sentinel byte, as a decode writes it, is ordered as the extended text is (41_bwt_codec.md R171). -/
theorem shiftedKey_cases {text : List Byte} (hz : 0x00#8 ∉ text) {q : Nat} (hq : q ≤ text.length) :
    (q = text.length ∧ shiftedKey (extendedText text) q = 1 ∧ ((text ++ [0x00#8]).getD q 0#8).toNat = 0) ∨
    (q < text.length ∧ shiftedKey (extendedText text) q = ((text ++ [0x00#8]).getD q 0#8).toNat + 2 ∧
      0 < ((text ++ [0x00#8]).getD q 0#8).toNat) := by
  rw [shiftedKey_of_lt (by simpa using Nat.lt_succ_of_le hq)]
  obtain rfl | hlt := hq.eq_or_lt
  · exact .inl ⟨rfl, by rw [textKey_extendedText_of_le le_rfl], by simp⟩
  · have hbyte : (text ++ [0x00#8]).getD q 0#8 = text[q] := by simp [List.getElem?_append, hlt]
    refine .inr ⟨hlt, by rw [textKey_extendedText_of_lt hlt, hbyte], ?_⟩
    rw [hbyte, Nat.pos_iff_ne_zero]
    exact fun h => hz (BitVec.eq_of_toNat_eq (y := 0x00#8) h ▸ List.getElem_mem hlt)

/-! ### A thread of rows through the positions -/

/-- Rows of `L` for the positions of a text with its sentinel: the row for the position after `a` holds the byte at `a`,
the position after the last being the first again (41_bwt_codec.md R170). The rows of the suffixes are such rows of the
transform (`suffixRow_threads`), and so are the rows of a walk for what it emits (`walkRow_threads`). -/
structure Threads (L text : List Byte) (rowOf : Nat → Nat) : Prop where
  lt : ∀ a ≤ text.length, rowOf (a + 1) < L.length
  byte : ∀ a ≤ text.length, L.getD (rowOf (a + 1)) 0#8 = (text ++ [0x00#8]).getD a 0#8

section
variable {L text : List Byte} {rowOf : Nat → Nat}

/-- A step of the LF-mapping from the rows of two positions orders the suffixes one symbol longer, when the rows order
the suffixes themselves. -/
theorem Threads.lfRow_lt_lfRow (h : Threads L text rowOf) (hz : 0x00#8 ∉ text) {a b : Nat} (ha : a ≤ text.length)
    (hb : b ≤ text.length) (hab : SuffixBelow (shiftedKey (extendedText text)) a b)
    (hrest : a < text.length → b < text.length →
      SuffixBelow (shiftedKey (extendedText text)) (a + 1) (b + 1) → rowOf (a + 1) < rowOf (b + 1)) :
    lfRow L (rowOf (a + 1)) < lfRow L (rowOf (b + 1)) := by
  have hka := shiftedKey_cases hz ha
  have hkb := shiftedKey_cases hz hb
  refine Machine.lfRow_lt_lfRow (h.lt a ha) ?_
  rw [RowBelow, h.byte a ha, h.byte b hb, ← BitVec.toNat_inj]
  obtain hlt | ⟨heq, hnext⟩ := suffixBelow_iff.1 hab
  · omega
  · have hne : a ≠ b := fun h => suffixBelow_irrefl _ _ (h ▸ hab)
    have := fun ha' hb' => hrest ha' hb' hnext
    omega

/-- Along the suffix array the steps of the LF-mapping go through the rows in order, so the row of a suffix is one step
from the row of the suffix after it. -/
theorem Threads.map_lfRow_suffixArray (h : Threads L text rowOf) (hz : 0x00#8 ∉ text) (hL : L.length = text.length + 1)
    (hrest : ∀ a < text.length, ∀ b < text.length,
      SuffixBelow (shiftedKey (extendedText text)) (a + 1) (b + 1) → rowOf (a + 1) < rowOf (b + 1)) :
    (suffixArray (extendedText text)).map (fun a => lfRow L (rowOf (a + 1))) = List.range L.length := by
  obtain ⟨-, hsorted⟩ := (isSuffixArray_iff _ _).1 (suffixArray_isSuffixArray (extendedText text))
  have hle {q : Nat} (hq : q ∈ suffixArray (extendedText text)) : q ≤ text.length := by
    simpa [Nat.lt_succ_iff] using lt_of_mem_suffixArray hq
  refine map_eq_range (by simp [hL]) (fun q hq => lfRow_lt (h.lt q (hle hq))) (hsorted.imp_of_mem ?_)
  exact fun ha hb hab => h.lfRow_lt_lfRow hz (hle ha) (hle hb) hab fun ha' hb' => hrest _ ha' _ hb'

/-- A thread that the LF-mapping follows from the last position back is a walk. -/
theorem iterate_lfRow_eq {n : Nat} (hstep : ∀ a ≤ n, lfRow L (rowOf (a + 1)) = rowOf a) {k : Nat} (hk : k ≤ n + 1) :
    (lfRow L)^[k] (rowOf (n + 1)) = rowOf (n + 1 - k) := by
  induction k with
  | zero => rfl
  | succ k ih =>
    rw [Function.iterate_succ_apply', ih (by omega), show n + 1 - k = n + 1 - (k + 1) + 1 by omega, hstep _ (by omega)]

end

/-! ### Decoding an encoded text -/

/-- The row of the suffix at a position, position `n + 1` standing for position 0 (41_bwt_codec.md R170). -/
def suffixRow (text : List Byte) (q : Nat) : Nat := (suffixArray (extendedText text)).idxOf (q % (text.length + 1))

theorem suffixRow_of_le {text : List Byte} {q : Nat} (hq : q ≤ text.length) :
    suffixRow text q = (suffixArray (extendedText text)).idxOf q := by
  rw [suffixRow, Nat.mod_eq_of_lt (Nat.lt_succ_of_le hq)]

theorem suffixRow_length_succ (text : List Byte) : suffixRow text (text.length + 1) = primaryRow text := by
  rw [suffixRow, Nat.mod_self, primaryRow, primaryIndex]

theorem mod_mem_suffixArray (text : List Byte) (q : Nat) : q % (text.length + 1) ∈ suffixArray (extendedText text) :=
  (suffixArray_isSuffixArray _).1.mem_iff.2 (by simpa using Nat.mod_lt _ (Nat.succ_pos _))

theorem suffixRow_threads (text : List Byte) : Threads (transformOf text) text (suffixRow text) := by
  have hlt (q : Nat) := List.idxOf_lt_length_of_mem (mod_mem_suffixArray text q)
  refine ⟨fun a _ => by simpa [suffixRow] using hlt (a + 1), fun a ha => ?_⟩
  rw [suffixRow, getD_transformOf text (hlt _), List.getElem_idxOf (hlt _)]
  obtain rfl | ha := ha.eq_or_lt
  · simp
  · rw [Nat.mod_eq_of_lt (by omega)]
    simp [List.getElem?_append, ha]

/-- One step of the LF-mapping leads from the row of a suffix to the row of the suffix one symbol longer
(41_bwt_codec.md R179). -/
theorem lfRow_suffixRow_succ {text : List Byte} (hz : 0x00#8 ∉ text) {a : Nat} (ha : a ≤ text.length) :
    lfRow (transformOf text) (suffixRow text (a + 1)) = suffixRow text a := by
  obtain ⟨-, hsorted⟩ := (isSuffixArray_iff _ _).1 (suffixArray_isSuffixArray (extendedText text))
  have hmap := (suffixRow_threads text).map_lfRow_suffixArray hz (by simp) fun b hb c hc hbc => by
    have hmem {q : Nat} (hq : q ≤ text.length) : q ∈ suffixArray (extendedText text) :=
      Nat.mod_eq_of_lt (Nat.lt_succ_of_le hq) ▸ mod_mem_suffixArray text q
    rw [suffixRow_of_le hb, suffixRow_of_le hc]
    exact (idxOf_lt_idxOf_iff SuffixBelow.asymm hsorted (hmem hb) (hmem hc)).2 hbc
  have hrow := List.idxOf_lt_length_of_mem (mod_mem_suffixArray text a)
  have hget := getElem_of_map_eq_range hmap hrow
  rwa [List.getElem_idxOf hrow, Nat.mod_eq_of_lt (Nat.lt_succ_of_le ha), ← suffixRow_of_le ha] at hget

/-- The walk from the primary row goes through all rows (41_bwt_codec.md R180 (e)). -/
theorem singleCycle_transformOf {text : List Byte} (hz : 0x00#8 ∉ text) :
    singleCycle (transformOf text) (primaryRow text) = true := by
  simp only [singleCycle, List.all_eq_true, List.mem_range, length_transformOf, Bool.or_eq_true,
    decide_eq_true_eq, ← suffixRow_length_succ, or_iff_not_imp_left]
  intro k hk hk0
  rw [iterate_lfRow_eq (fun a => lfRow_suffixRow_succ hz) hk.le, suffixRow, suffixRow, Ne,
    List.idxOf_inj (mod_mem_suffixArray _ _), Nat.mod_self, Nat.mod_eq_of_lt (by omega)]
  omega

/-- The walk from the primary row emits the text and its sentinel (41_bwt_codec.md R184). -/
theorem emitted_transformOf {text : List Byte} (hz : 0x00#8 ∉ text) :
    emitted (transformOf text) (primaryRow text) (text.length + 1) = text ++ [0x00#8] := by
  refine List.ext_getElem (by simp) fun q hq hq' => ?_
  have hq : q ≤ text.length := by simpa [Nat.lt_succ_iff] using hq
  rw [← List.getD_eq_getElem _ 0#8, ← List.getD_eq_getElem _ 0#8, getD_emitted _ _ (Nat.lt_succ_of_le hq),
    ← suffixRow_length_succ, iterate_lfRow_eq (fun a => lfRow_suffixRow_succ hz) (by omega),
    ← (suffixRow_threads text).byte q hq]
  congr 2
  omega

/-! ### Encoding a decoded text -/

/-- Where the walk from `p` stands when it fills the position before `q` (41_bwt_codec.md R179). -/
def walkRow (L : List Byte) (p q : Nat) : Nat := (lfRow L)^[L.length - q] p

section
variable {L : List Byte} {p : Nat}

theorem iterate_lfRow_lt (hp : p < L.length) (k : Nat) : (lfRow L)^[k] p < L.length := by
  induction k with
  | zero => exact hp
  | succ k ih => rw [Function.iterate_succ_apply']; exact lfRow_lt ih

theorem lfRow_walkRow_succ {a : Nat} (ha : a < L.length) : lfRow L (walkRow L p (a + 1)) = walkRow L p a := by
  rw [walkRow, walkRow, show L.length - a = L.length - (a + 1) + 1 by omega, Function.iterate_succ_apply']

/-- A walk that does not come back early stands at its start row in its first step alone (41_bwt_codec.md R180 (e)). -/
theorem walkRow_ne (hcycle : singleCycle L p = true) {q : Nat} (h0 : 0 < q) (hq : q < L.length) :
    walkRow L p q ≠ p := by
  simp only [singleCycle, List.all_eq_true, List.mem_range, Bool.or_eq_true, decide_eq_true_eq] at hcycle
  exact (hcycle (L.length - q) (by omega)).resolve_left (by omega)

/-- A byte that occurs once is in one row (41_bwt_codec.md R180 (c)). -/
theorem eq_of_count_eq_one {c : Byte} (h : L.count c = 1) {q : Nat} (hp : L[p]? = some c) (hq : L[q]? = some c) :
    p = q := by
  have hnodup : ¬ L.Duplicate c := by rw [List.duplicate_iff_two_le_count]; omega
  obtain ⟨hp, hpc⟩ := List.getElem?_eq_some_iff.1 hp
  obtain ⟨hq, hqc⟩ := List.getElem?_eq_some_iff.1 hq
  rw [List.duplicate_iff_exists_distinct_get] at hnodup
  obtain hlt | heq | hlt := Nat.lt_trichotomy p q
  · exact absurd ⟨⟨p, hp⟩, ⟨q, hq⟩, hlt, hpc.symm, hqc.symm⟩ hnodup
  · exact heq
  · exact absurd ⟨⟨q, hq⟩, ⟨p, hp⟩, hlt, hqc.symm, hpc.symm⟩ hnodup

/-- The byte before position `q + 1` of the decoded text is in the row that the walk reads it from
(41_bwt_codec.md R179). -/
theorem getD_emitted_eq_getD_walkRow {a : Nat} (ha : a < L.length) :
    (emitted L p L.length).getD a 0#8 = L.getD (walkRow L p (a + 1)) 0#8 := by
  rw [getD_emitted _ _ ha, walkRow, Nat.sub_sub, Nat.add_comm 1]

/-- The walk from the sentinel row emits the sentinel last in the output and nowhere else (41_bwt_codec.md R179). -/
theorem emitted_eq_append (hcount : L.count 0x00#8 = 1) (hrow : L[p]? = some 0x00#8) (hcycle : singleCycle L p = true) :
    emitted L p L.length = (emitted L p L.length).dropLast ++ [0x00#8] ∧
      0x00#8 ∉ (emitted L p L.length).dropLast := by
  obtain ⟨hp, hpc⟩ := List.getElem?_eq_some_iff.1 hrow
  have hget {a : Nat} (ha : a < L.length) : (emitted L p L.length)[a]'(by simpa using ha) =
      L.getD (walkRow L p (a + 1)) 0#8 := by
    rw [← getD_emitted_eq_getD_walkRow ha, List.getD_eq_getElem]
  have hne : emitted L p L.length ≠ [] := List.ne_nil_of_length_pos (by simp; omega)
  refine ⟨?_, fun hmem => ?_⟩
  · conv_lhs => rw [← List.dropLast_append_getLast hne, List.getLast_eq_getElem]
    simp only [length_emitted]
    rw [hget (by omega), walkRow, show L.length - (L.length - 1 + 1) = 0 by omega, Function.iterate_zero_apply,
      List.getD_eq_getElem _ _ hp, hpc]
  · obtain ⟨a, ha, hzero⟩ := List.getElem_of_mem hmem
    have ha' : a + 1 < L.length := by simp at ha; omega
    rw [List.getElem_dropLast, hget (by omega)] at hzero
    have hlt : walkRow L p (a + 1) < L.length := iterate_lfRow_lt hp _
    refine walkRow_ne hcycle (by omega) ha' (eq_of_count_eq_one hcount ?_ hrow)
    rw [List.getElem?_eq_getElem hlt, ← hzero, List.getD_eq_getElem _ _ hlt]

variable {text : List Byte}

theorem walkRow_threads (hp : p < L.length) (hout : emitted L p L.length = text ++ [0x00#8])
    (hL : L.length = text.length + 1) : Threads L text (walkRow L p) :=
  ⟨fun _ _ => iterate_lfRow_lt hp _, fun a ha => by rw [← hout, getD_emitted_eq_getD_walkRow (by omega)]⟩

/-- The rows of the walk order the suffixes of the decoded text: by induction from the last position back. -/
theorem walkRow_lt_walkRow (h : Threads L text (walkRow L p)) (hz : 0x00#8 ∉ text) (hL : L.length = text.length + 1)
    {k a b : Nat} (hk : text.length - a = k) (ha : a ≤ text.length) (hb : b ≤ text.length)
    (hab : SuffixBelow (shiftedKey (extendedText text)) a b) : walkRow L p a < walkRow L p b := by
  induction k generalizing a b with
  | zero =>
    rw [← lfRow_walkRow_succ (a := a) (by omega), ← lfRow_walkRow_succ (a := b) (by omega)]
    exact h.lfRow_lt_lfRow hz ha hb hab fun ha' _ _ => by omega
  | succ k ih =>
    rw [← lfRow_walkRow_succ (a := a) (by omega), ← lfRow_walkRow_succ (a := b) (by omega)]
    exact h.lfRow_lt_lfRow hz ha hb hab fun ha' hb' => ih (by omega) ha' hb'

/-- The rows of the walk are the rows of the suffixes of the decoded text (41_bwt_codec.md R184). -/
theorem walkRow_suffixArray (h : Threads L text (walkRow L p)) (hz : 0x00#8 ∉ text) (hL : L.length = text.length + 1)
    {r : Nat} (hr : r < (suffixArray (extendedText text)).length) :
    walkRow L p (suffixArray (extendedText text))[r] = r := by
  have hmap := h.map_lfRow_suffixArray hz hL fun a ha b hb => walkRow_lt_walkRow h hz hL rfl ha hb
  have hpos : (suffixArray (extendedText text))[r] < L.length := by
    simpa [hL] using lt_of_mem_suffixArray (List.getElem_mem hr)
  rw [← lfRow_walkRow_succ hpos]
  exact getElem_of_map_eq_range hmap hr

/-- The start row of a walk that does not come back early is the row of suffix 0. -/
theorem suffixArray_start (h : Threads L text (walkRow L p)) (hz : 0x00#8 ∉ text) (hL : L.length = text.length + 1)
    (hp : p < L.length) (hcycle : singleCycle L p = true) : (suffixArray (extendedText text))[p]? = some 0 := by
  have hlt : p < (suffixArray (extendedText text)).length := by simpa [← hL] using hp
  have hpos := lt_of_mem_suffixArray (List.getElem_mem hlt)
  rw [length_extendedText, ← hL] at hpos
  rw [List.getElem?_eq_getElem hlt, Option.some_inj]
  by_contra hne
  exact walkRow_ne hcycle (Nat.pos_of_ne_zero hne) hpos (walkRow_suffixArray h hz hL hlt)

/-- The forward transform of the decoded text is the sequence that the walk went through. -/
theorem transformOf_of_threads (h : Threads L text (walkRow L p)) (hz : 0x00#8 ∉ text)
    (hL : L.length = text.length + 1) (hstart : (suffixArray (extendedText text))[p]? = some 0)
    (hrow : L[p]? = some 0x00#8) : transformOf text = L := by
  obtain ⟨hp, hstart⟩ := List.getElem?_eq_some_iff.1 hstart
  obtain ⟨hp', hrow⟩ := List.getElem?_eq_some_iff.1 hrow
  refine List.ext_getElem (by simp [hL]) fun r hr hr' => ?_
  have hr : r < (suffixArray (extendedText text)).length := by simpa using hr
  have hpos := lt_of_mem_suffixArray (List.getElem_mem hr)
  rw [length_extendedText] at hpos
  rw [← List.getD_eq_getElem _ 0#8, getD_transformOf text hr]
  split
  · rename_i h0
    obtain rfl := ((suffixArray_nodup text).getElem_inj_iff).1 (h0.trans hstart.symm)
    exact hrow.symm
  · rename_i h0
    have hbyte := h.byte ((suffixArray (extendedText text))[r] - 1) (by omega)
    rw [Nat.sub_add_cancel (by omega), walkRow_suffixArray h hz hL hr, List.getD_eq_getElem _ _ hr'] at hbyte
    rw [hbyte, List.getD_append _ _ _ _ (by omega)]

end

/-- Settles O38: the walk that does not come back early meets the suffixes of what it emits, from the shortest to the
longest, in the rows of their order. -/
theorem bwtDecodeThenEncodeGivesBack : Obligations.BwtDecodeThenEncodeGivesBack := by
  intro L out p hcount hrow hinv
  obtain ⟨hp, -⟩ := List.getElem?_eq_some_iff.1 hrow
  obtain ⟨hcycle, rfl⟩ := (inverseBwt_eq_some_iff hp).1 hinv
  obtain ⟨hout, hz⟩ := emitted_eq_append hcount hrow hcycle
  have hL : L.length = (emitted L p L.length).dropLast.length + 1 := by simpa using congrArg List.length hout
  have h := walkRow_threads hp hout hL
  have hstart := suffixArray_start h hz hL hp hcycle
  refine ⟨transformOf_of_threads h hz hL hstart hrow, ?_⟩
  obtain ⟨hlt, hstart⟩ := List.getElem?_eq_some_iff.1 hstart
  rw [primaryIndex, ← hstart, (suffixArray_nodup _).idxOf_getElem]

end Sys2Proof.Machine
end

section
/-! PROOFS. The commands of the BWT codec: how each completes, its faults in their order, and the round trip
(41_bwt_codec.md R172 to R184; 60_exceptions.md R262, R263, R267 to R269). -/

namespace Sys2Proof.Machine

/-! ### A command by its ending -/

section
variable {i : Instr} {s t : State}

/-- A fault of a procedure is a fault entry with memory untouched (60_exceptions.md R270, R271). -/
theorem exists_faulted {c : Cause} {info : Word} (h : endingOf i s = .faults c info) :
    ∃ t, exec i s = .next t ∧ faultedWith s t (causeCode c) info 0#32 0#32 ∧ sameOutside s t ∧ t.mem = s.mem :=
  ⟨_, by rw [exec_eq_conclude_endingOf, h, conclude_faults], raiseFault_faultedWith c info 0#32 0#32 s.mem s,
    raiseFault_sameOutside _ _ _ _ s.mem s, rfl⟩

/-- A completion of a procedure stores its data whole and leaves the rest (70_reset_and_hazards.md R304;
20_memory.md R66, R70). -/
theorem exists_completed {base r0 r1 : Nat} {data : List Byte} (hm : s.mem.wf = true) (hr0 : r0 < 2 ^ 32)
    (hr1 : r1 < 2 ^ 32) (h : endingOf i s = .completes [⟨base, data⟩] (toWord r0) (toWord r1)) :
    ∃ t, exec i s = .next t ∧ t.mem.readBytes base data.length = data ∧ completedWith s t r0 r1 ∧ sameOutside s t ∧
      memoryKeptOutside (outputRegions i s) s t := by
  have hfits : base + data.length ≤ memorySize := by
    have hall := endingOf_fits i s
    rw [h] at hall
    exact (inRange_iff _).1 (hall _ (List.mem_singleton_self _))
  have hexec : exec i s = .next (completeWith (storeAll s.mem [⟨base, data⟩]) (toWord r0) (toWord r1) s) := by
    rw [exec_eq_conclude_endingOf, h, conclude_completes]
  have hdone := completeWith_completedWith (storeAll s.mem [⟨base, data⟩]) (toWord r0) (toWord r1) s
  rw [toNat_toWord hr0, toNat_toWord hr1] at hdone
  exact ⟨_, hexec, Memory.readBytes_writeBytes hm hfits, hdone, completeWith_sameOutside _ _ _ s,
    commandsWriteOnlyTheirOutputRegions i s _ hexec⟩

/-- `DONE` goes up at a completion alone (10_state.md R24). -/
theorem completes_of_done (h : exec i s = .next t) (hs : s.status.done = false) (ht : t.status.done = true) :
    ∃ stores r0 r1, endingOf i s = .completes stores r0 r1 ∧ t = completeWith (storeAll s.mem stores) r0 r1 s := by
  rw [exec_eq_conclude_endingOf] at h
  obtain ⟨stores, r0, r1, he, rfl⟩ | ⟨c, info, -, rfl⟩ | ⟨stores, cnt, start, -, rfl⟩ | ⟨-, rfl⟩ := conclude_next h
  · exact ⟨stores, r0, r1, he, rfl⟩
  · simp [hs] at ht
  · simp [hs] at ht
  · simp [hs] at ht

end

/-- A byte of a region that was read whole. -/
theorem Memory.read_of_readBytes {m : Memory} {base n : Nat} {bs : List Byte} (h : m.readBytes base n = bs) {k : Nat}
    (hk : k < n) : m.read (base + k) = bs.getD k 0#8 := by
  simp [← h, Memory.readBytes, hk]

/-! ### `BWT.ENC.*` -/

section
variable {i : Instr} {s : State}

/-- The four commands run one procedure (41_bwt_codec.md R173 to R176). -/
theorem endingOf_of_mem_bwtEncCommands (hi : i ∈ bwtEncCommands) (s : State) : endingOf i s = bwtEncEnding s := by
  simp only [bwtEncCommands, List.mem_cons, List.not_mem_nil, or_false] at hi
  obtain rfl | rfl | rfl | rfl := hi <;> rfl

theorem outputRegions_of_mem_bwtEncCommands (hi : i ∈ bwtEncCommands) (s : State) :
    outputRegions i s = [bwtEncOut s] := by
  simp only [bwtEncCommands, List.mem_cons, List.not_mem_nil, or_false] at hi
  obtain rfl | rfl | rfl | rfl := hi <;> rfl

/-- The procedure past its checks: the text check decides (41_bwt_codec.md R172). -/
theorem bwtEncEnding_of_checks (hn : s.operand 1 + 1 ≤ s.platform.nmax)
    (hr : regionCheck [bwtEncIn s] [bwtEncOut s] = true) (hb : backing s.platform [bwtEncIn s, bwtEncOut s] = .memory) :
    (0x00#8 ∈ textOf s ∧ bwtEncEnding s = invalidData 1) ∨
    (0x00#8 ∉ textOf s ∧ bwtEncEnding s =
      .completes [⟨s.operand 2, transformOf (textOf s)⟩]
        (toWord (s.operand 1 + 1)) (toWord (primaryRow (textOf s)))) := by
  obtain ⟨hn', -⟩ | ⟨-, hr', -⟩ | ⟨-, -, hc, he⟩ | ⟨-, -, hc, he⟩ := bwtEncEnding_cases s
  · omega
  · simp [hr] at hr'
  · exact .inl ⟨List.contains_iff_mem.1 hc, he.trans (onBacked_memory hb _)⟩
  · exact .inr ⟨fun hmem => by simp [sentinelByte, hmem] at hc, he.trans (onBacked_memory hb _)⟩

/-- A completion has passed every check (41_bwt_codec.md R172). -/
theorem checks_of_bwtEncEnding_completes {stores : List Store} {r0 r1 : Word}
    (h : bwtEncEnding s = .completes stores r0 r1) : s.operand 1 + 1 ≤ s.platform.nmax ∧
      regionCheck [bwtEncIn s] [bwtEncOut s] = true ∧ backing s.platform [bwtEncIn s, bwtEncOut s] = .memory ∧
        0x00#8 ∉ textOf s := by
  obtain ⟨-, he⟩ | ⟨-, -, he⟩ | ⟨-, -, -, he⟩ | ⟨hn, hr, hc, he⟩ := bwtEncEnding_cases s <;> rw [he] at h
  · cases h
  · cases h
  · obtain ⟨-, he⟩ | ⟨-, he⟩ | ⟨-, he⟩ := onBacked_cases s [bwtEncIn s, bwtEncOut s] (invalidData 1) <;>
      rw [he] at h <;> cases h
  · cases hb : backing s.platform [bwtEncIn s, bwtEncOut s] with
    | memory => exact ⟨hn, hr, rfl, fun hmem => by simp [sentinelByte, hmem] at hc⟩
    | unbacked | device => simp [onBacked, hb] at h

/-- How the encode of a text without 0x00 completes (41_bwt_codec.md R172). -/
theorem bwtEnc_completes (hi : i ∈ bwtEncCommands) (hm : s.mem.wf = true) (hp : s.platform.wf = true)
    (hn : s.operand 1 + 1 ≤ s.platform.nmax) (hr : regionCheck [bwtEncIn s] [bwtEncOut s] = true)
    (hb : backing s.platform [bwtEncIn s, bwtEncOut s] = .memory) (hz : 0x00#8 ∉ textOf s) :
    ∃ t, exec i s = .next t ∧
      t.mem.readBytes (s.operand 2) (s.operand 1 + 1) = transformOf (textOf s) ∧
      completedWith s t (s.operand 1 + 1) (primaryRow (textOf s)) ∧ sameOutside s t ∧
      memoryKeptOutside [bwtEncOut s] s t := by
  have hmax := nmax_le_of_wf hp
  have hrow := primaryRow_lt (textOf s)
  rw [length_textOf] at hrow
  obtain ⟨h, -⟩ | ⟨-, he⟩ := bwtEncEnding_of_checks hn hr hb
  · exact absurd h hz
  · rw [← endingOf_of_mem_bwtEncCommands hi] at he
    have h := exists_completed hm (by omega) (by omega) he
    rwa [length_transformOf, length_textOf, outputRegions_of_mem_bwtEncCommands hi] at h

end

/-- Settles O28: the suffix array that the procedure uses is the one of R132, and the stored bytes are read off it. -/
theorem bwtEncCommandsComplete : Obligations.BwtEncCommandsComplete := by
  intro i hi s hm hp hn hr hb hz
  obtain ⟨t, hexec, hread, hdone, hsame, hkept⟩ := bwtEnc_completes hi hm hp hn hr hb hz
  refine ⟨t, _, _, hexec, suffixArray_isSuffixArray _, getElem_primaryRow _, fun r hrow => ?_, hdone, hsame, hkept⟩
  have hlt : r < (suffixArray (extendedText (textOf s))).length := by simpa using hrow
  rw [Memory.read_of_readBytes hread hrow, getD_transformOf _ hlt, List.getD_eq_getElem _ _ hlt]

/-- Settles O29: the checks of `bwtEncEnding_cases` in their order, then the text check. -/
theorem bwtEncCommandsFaultInOrder : Obligations.BwtEncCommandsFaultInOrder := by
  intro i hi s
  have hending := endingOf_of_mem_bwtEncCommands hi s
  refine ⟨fun hn => ?_, fun hn hr => ?_, fun hn hr hb hz => ?_⟩
  · obtain ⟨-, he⟩ | ⟨hn', -⟩ | ⟨hn', -⟩ | ⟨hn', -⟩ := bwtEncEnding_cases s
    · exact exists_faulted (hending.trans he)
    · omega
    · omega
    · omega
  · obtain ⟨hn', -⟩ | ⟨-, -, he⟩ | ⟨-, hr', -⟩ | ⟨-, hr', -⟩ := bwtEncEnding_cases s
    · omega
    · exact exists_faulted (hending.trans he)
    · simp [hr] at hr'
    · simp [hr] at hr'
  · obtain ⟨-, he⟩ | ⟨hz', -⟩ := bwtEncEnding_of_checks hn hr hb
    · exact exists_faulted (hending.trans he)
    · exact absurd hz hz'

/-- Settles O30: the commands share their procedure; `L` follows from the suffix array being a permutation that starts
at the sentinel. -/
theorem bwtEncodeProperties : Obligations.BwtEncodeProperties := by
  refine ⟨fun i hi j hj s => ?_, fun text hz => ⟨transformOf_perm text, fun r hr => ?_, ?_, head_transformOf⟩⟩
  · rw [exec_eq_conclude_endingOf, exec_eq_conclude_endingOf, endingOf_of_mem_bwtEncCommands hi,
      endingOf_of_mem_bwtEncCommands hj]
  · exact getD_transformOf_eq_zero_iff hz (by simpa using hr) _
  · exact (primaryRow_lt text).trans_eq (length_transformOf text).symm

/-! ### `BWT.DEC.*` -/

section
variable {s : State}

theorem bwtDecChecked_of_checks (hn : s.operand 1 ≤ s.platform.nmax)
    (hr : regionCheck [bwtDecIn s] [bwtDecOut s] = true) (hb : backing s.platform [bwtDecIn s, bwtDecOut s] = .memory)
    (e : Ending) : bwtDecChecked s e = e := by
  obtain ⟨hn', -⟩ | ⟨-, hr', -⟩ | ⟨-, -, he⟩ := bwtDecChecked_cases s e
  · omega
  · simp [hr] at hr'
  · rw [he, onBacked_memory hb]

/-- A completion has passed the first checks (41_bwt_codec.md R183). -/
theorem checks_of_bwtDecChecked_completes {e : Ending} {stores : List Store} {r0 r1 : Word}
    (h : bwtDecChecked s e = .completes stores r0 r1) : s.operand 1 ≤ s.platform.nmax ∧
      regionCheck [bwtDecIn s] [bwtDecOut s] = true ∧ backing s.platform [bwtDecIn s, bwtDecOut s] = .memory := by
  obtain ⟨-, he⟩ | ⟨-, -, he⟩ | ⟨hn, hr, he⟩ := bwtDecChecked_cases s e <;> rw [he] at h
  · cases h
  · cases h
  · cases hb : backing s.platform [bwtDecIn s, bwtDecOut s] with
    | memory => exact ⟨hn, hr, rfl⟩
    | unbacked | device => simp [onBacked, hb] at h

/-! The data checks, one equation per check, in their order (41_bwt_codec.md R180). -/

theorem bwtDecPData_of_empty (h : s.operand 1 = 0) : bwtDecPData s = invalidData 2 := if_pos h

theorem bwtDecSData_of_empty (h : s.operand 1 = 0) : bwtDecSData s = invalidData 2 := if_pos h

theorem bwtDecPData_of_primary_out (h0 : 0 < s.operand 1) (hp : s.operand 1 ≤ s.operand 3) :
    bwtDecPData s = invalidData 3 := by
  rw [bwtDecPData, if_neg h0.ne', if_pos hp]

theorem bwtDecPData_of_count_ne (hp : s.operand 3 < s.operand 1) (hc : (bwtOf s).count 0x00#8 ≠ 1) :
    bwtDecPData s = invalidData 4 := by
  rw [bwtDecPData, byteCount, sentinelByte, if_neg (by omega), if_neg (by omega), if_pos hc]

theorem bwtDecSData_of_count_ne (h0 : 0 < s.operand 1) (hc : (bwtOf s).count 0x00#8 ≠ 1) :
    bwtDecSData s = invalidData 4 := by
  rw [bwtDecSData, byteCount, sentinelByte, if_neg h0.ne', if_pos hc]

theorem getD_bwtOf_eq_iff {p : Nat} (hp : p < s.operand 1) (c d : Byte) :
    (bwtOf s).getD p d = c ↔ (bwtOf s)[p]? = some c := by
  have hp : p < (bwtOf s).length := by simpa using hp
  rw [List.getD_eq_getElem _ _ hp, List.getElem?_eq_getElem hp, Option.some_inj]

theorem bwtDecPData_of_row_ne (hp : s.operand 3 < s.operand 1) (hc : (bwtOf s).count 0x00#8 = 1)
    (hrow : (bwtOf s)[s.operand 3]? ≠ some 0x00#8) : bwtDecPData s = invalidData 5 := by
  rw [bwtDecPData, byteCount, sentinelByte, if_neg (by omega), if_neg (by omega), if_neg (not_not.2 hc),
    if_pos (mt (getD_bwtOf_eq_iff hp _ _).1 hrow)]

theorem bwtDecPData_of_row (hc : (bwtOf s).count 0x00#8 = 1) (hrow : (bwtOf s)[s.operand 3]? = some 0x00#8) :
    bwtDecPData s = bwtDecWalk s (s.operand 3) := by
  obtain ⟨hp, -⟩ := List.getElem?_eq_some_iff.1 hrow
  rw [length_bwtOf] at hp
  rw [bwtDecPData, byteCount, sentinelByte, if_neg (by omega), if_neg (by omega), if_neg (not_not.2 hc),
    if_neg (not_not.2 ((getD_bwtOf_eq_iff hp _ _).2 hrow))]

/-- The sentinel scan finds the one row that holds the sentinel (41_bwt_codec.md R182). -/
theorem bwtDecSData_of_row {p : Nat} (hc : (bwtOf s).count 0x00#8 = 1) (hrow : (bwtOf s)[p]? = some 0x00#8) :
    bwtDecSData s = bwtDecWalk s p := by
  obtain ⟨hp, -⟩ := List.getElem?_eq_some_iff.1 hrow
  rw [length_bwtOf] at hp
  have hscan : (bwtOf s).idxOf sentinelByte = p :=
    eq_of_count_eq_one hc (List.getElem?_idxOf (List.mem_of_getElem? hrow)) hrow
  rw [bwtDecSData, byteCount, hscan, sentinelByte, if_neg (by omega), if_neg (not_not.2 hc)]

/-- The walk completes where it does not come back early (41_bwt_codec.md R179). -/
theorem bwtDecWalk_of_singleCycle {p : Nat} (hp : p < s.operand 1) (hcycle : singleCycle (bwtOf s) p = true) :
    bwtDecWalk s p =
      .completes [⟨s.operand 2, emitted (bwtOf s) p (s.operand 1)⟩] (toWord (s.operand 1)) (toWord p) := by
  rw [bwtDecWalk, (inverseBwt_eq_some_iff (by simpa using hp)).2 ⟨hcycle, rfl⟩, length_bwtOf]

/-- A walk that comes back early is refused (41_bwt_codec.md R180 (e)). -/
theorem bwtDecWalk_of_not_singleCycle {p : Nat} (hp : p < s.operand 1) (hcycle : singleCycle (bwtOf s) p = false) :
    bwtDecWalk s p = invalidData 6 := by
  obtain ⟨-, he⟩ | ⟨out, hout, -⟩ := bwtDecWalk_cases s p
  · exact he
  · simp [inverseBwt_eq_some_iff (L := bwtOf s) (by simpa using hp), hcycle] at hout

/-- How a decode past its checks completes, from its start row (41_bwt_codec.md R179, R183). -/
theorem bwtDec_completes {i : Instr} {p : Nat} (hm : s.mem.wf = true) (hp : p < s.operand 1)
    (hcycle : singleCycle (bwtOf s) p = true) (he : endingOf i s = bwtDecWalk s p) :
    ∃ t, exec i s = .next t ∧
      t.mem.readBytes (s.operand 2) (s.operand 1) = emitted (bwtOf s) p (s.operand 1) ∧
      completedWith s t (s.operand 1) p ∧ sameOutside s t ∧ memoryKeptOutside (outputRegions i s) s t := by
  have hlt : s.operand 1 < 2 ^ 32 := BitVec.isLt _
  have h := exists_completed hm hlt (hp.trans hlt) (he.trans (bwtDecWalk_of_singleCycle hp hcycle))
  rwa [length_emitted] at h

/-- Byte `N - 1 - k` of the output is the one of the row after `k` steps (41_bwt_codec.md R179). -/
theorem read_of_emitted {m : Memory} {base n p : Nat} {L : List Byte} (h : m.readBytes base n = emitted L p n) {k : Nat}
    (hk : k < n) : m.read (base + (n - 1 - k)) = L.getD ((lfRow L)^[k] p) 0#8 := by
  rw [Memory.read_of_readBytes h (by omega), getD_emitted _ _ (by omega), show n - 1 - (n - 1 - k) = k by omega]

end

/-- Settles O32: past the checks the procedure walks from `x[3]`. -/
theorem bwtDecPCompletes : Obligations.BwtDecPCompletes := by
  intro s hm hn hr hb hp hc hrow hcycle
  have he : endingOf .bwtDecP s = bwtDecWalk s (s.operand 3) :=
    (bwtDecChecked_of_checks hn hr hb _).trans (bwtDecPData_of_row hc hrow)
  obtain ⟨t, hexec, hread, hdone, hsame, hkept⟩ := bwtDec_completes hm hp hcycle he
  exact ⟨t, hexec, fun k hk => read_of_emitted hread hk, hdone, hsame, hkept⟩

/-- Settles O33: past the checks the procedure walks from the row that the scan finds. -/
theorem bwtDecSCompletes : Obligations.BwtDecSCompletes := by
  intro s p hm hn hr hb hc hrow hcycle
  obtain ⟨hp, -⟩ := List.getElem?_eq_some_iff.1 hrow
  have he : endingOf .bwtDecS s = bwtDecWalk s p :=
    (bwtDecChecked_of_checks hn hr hb _).trans (bwtDecSData_of_row hc hrow)
  obtain ⟨t, hexec, hread, hdone, hsame, hkept⟩ := bwtDec_completes hm (by simpa using hp) hcycle he
  exact ⟨t, hexec, fun k hk => read_of_emitted hread hk, hdone, hsame, hkept⟩

/-- Settles O34: both variants make the checks of `bwtDecChecked_cases` first. -/
theorem bwtDecCommandsFaultOnOperands : Obligations.BwtDecCommandsFaultOnOperands := by
  intro i hi s
  obtain ⟨e, hending⟩ : ∃ e, endingOf i s = bwtDecChecked s e := by
    simp only [List.mem_cons, List.not_mem_nil, or_false] at hi
    obtain rfl | rfl := hi
    · exact ⟨bwtDecPData s, rfl⟩
    · exact ⟨bwtDecSData s, rfl⟩
  refine ⟨fun hn => ?_, fun hn hr => ?_⟩
  · obtain ⟨-, he⟩ | ⟨hn', -⟩ | ⟨hn', -⟩ := bwtDecChecked_cases s e
    · exact exists_faulted (hending.trans he)
    · omega
    · omega
  · obtain ⟨hn', -⟩ | ⟨-, -, he⟩ | ⟨-, hr', -⟩ := bwtDecChecked_cases s e
    · omega
    · exact exists_faulted (hending.trans he)
    · simp [hr] at hr'

/-- Settles O35: past the first checks the data checks decide, each by its equation. -/
theorem bwtDecValidityChecks : Obligations.BwtDecValidityChecks := by
  intro s hn hr hb
  have hP {sub : Nat} (h : bwtDecPData s = invalidData sub) : endingOf .bwtDecP s = invalidData sub :=
    (bwtDecChecked_of_checks hn hr hb _).trans h
  have hS {sub : Nat} (h : bwtDecSData s = invalidData sub) : endingOf .bwtDecS s = invalidData sub :=
    (bwtDecChecked_of_checks hn hr hb _).trans h
  refine ⟨fun h0 => ⟨exists_faulted (hP (bwtDecPData_of_empty h0)), exists_faulted (hS (bwtDecSData_of_empty h0))⟩,
    fun h0 hp => exists_faulted (hP (bwtDecPData_of_primary_out h0 hp)),
    fun hp hc => exists_faulted (hP (bwtDecPData_of_count_ne hp hc)),
    fun h0 hc => exists_faulted (hS (bwtDecSData_of_count_ne h0 hc)),
    fun hp hc hrow => exists_faulted (hP (bwtDecPData_of_row_ne hp hc hrow)),
    fun hp hc hrow hcycle => exists_faulted (hP ?_), fun hc q hrow hcycle => exists_faulted (hS ?_)⟩
  · exact (bwtDecPData_of_row hc hrow).trans (bwtDecWalk_of_not_singleCycle hp hcycle)
  · obtain ⟨hq, -⟩ := List.getElem?_eq_some_iff.1 hrow
    exact (bwtDecSData_of_row hc hrow).trans (bwtDecWalk_of_not_singleCycle (by simpa using hq) hcycle)

/-! ### The two variants, and the round trip -/

/-- A sentinel scan that completes has found the one sentinel row (41_bwt_codec.md R182, R183). -/
theorem sentinelRow_of_bwtDecSData_completes {s : State} {stores : List Store} {r0 r1 : Word}
    (h : bwtDecSData s = .completes stores r0 r1) :
    ∃ p < s.operand 1, (bwtOf s).count 0x00#8 = 1 ∧ (bwtOf s)[p]? = some 0x00#8 ∧ r1 = toWord p := by
  obtain ⟨-, he⟩ | ⟨-, -, he⟩ | ⟨-, hc, he⟩ := bwtDecSData_cases s
  · rw [he] at h; cases h
  · rw [he] at h; cases h
  · have hmem : sentinelByte ∈ bwtOf s := List.one_le_count_iff.1 hc.ge
    refine ⟨(bwtOf s).idxOf sentinelByte, by simpa using List.idxOf_lt_length_of_mem hmem, hc,
      List.getElem?_idxOf hmem, ?_⟩
    obtain ⟨-, hw⟩ | ⟨out, -, -, hw⟩ := bwtDecWalk_cases s ((bwtOf s).idxOf sentinelByte) <;> rw [he, hw] at h <;>
      cases h
    rfl

/-- `x[i]` as a number names the word. -/
theorem x_eq_toWord_iff {s : State} (i : Fin 8) {n : Nat} (hn : n < 2 ^ 32) : s.x[i] = toWord n ↔ s.operand i = n := by
  rw [State.operand, ← toNat_toWord hn, BitVec.toNat_inj, toNat_toWord hn]

/-- Settles O36: the two variants differ in their start row alone, and one row holds the sentinel. -/
theorem sentinelScanFindsTheStoredPrimary : Obligations.SentinelScanFindsTheStoredPrimary := by
  intro s t hs hexec ht
  obtain ⟨stores, r0, r1, hend, rfl⟩ := completes_of_done hexec hs ht
  obtain ⟨hn, hr, hb⟩ := checks_of_bwtDecChecked_completes (e := bwtDecSData s) hend
  have hdata : bwtDecSData s = .completes stores r0 r1 := (bwtDecChecked_of_checks hn hr hb _).symm.trans hend
  have hP : endingOf .bwtDecP s = bwtDecPData s := bwtDecChecked_of_checks hn hr hb _
  obtain ⟨p, hp, hc, hrow, rfl⟩ := sentinelRow_of_bwtDecSData_completes hdata
  have hx := x_eq_toWord_iff (s := s) 3 (hp.trans (BitVec.isLt _))
  refine ⟨fun h3 => ?_, fun h3 => ?_⟩
  · obtain rfl := hx.1 h3
    rw [exec_eq_conclude_endingOf, hP, bwtDecPData_of_row hc hrow, ← bwtDecSData_of_row hc hrow, hdata,
      conclude_completes]
  · have hne : s.operand 3 ≠ p := fun h => h3 (hx.2 h)
    obtain ⟨sub, hsub⟩ : ∃ sub, bwtDecPData s = invalidData sub := by
      obtain hout | hin := Nat.lt_or_ge (s.operand 3) (s.operand 1)
      · exact ⟨5, bwtDecPData_of_row_ne hout hc fun h => hne (eq_of_count_eq_one hc h hrow)⟩
      · exact ⟨3, bwtDecPData_of_primary_out (by omega) hin⟩
    obtain ⟨u, hu, ⟨-, -, -, -, hfault, -, hdone⟩, -⟩ := exists_faulted (hP.trans hsub)
    exact ⟨u, hu, hdone.trans hs, hfault⟩

/-- Settles O37: the bytes that the encode stored hold one sentinel, in the primary row, and the walk from it emits the
text. -/
theorem bwtRoundTrip : Obligations.BwtRoundTrip := by
  intro i hi s t u hm hum hp hs hexec ht hlen hn hL hr hb
  obtain ⟨stores, r0, r1, hend, -⟩ := completes_of_done hexec hs ht
  rw [endingOf_of_mem_bwtEncCommands hi] at hend
  obtain ⟨hsn, hsr, hsb, hz⟩ := checks_of_bwtEncEnding_completes hend
  obtain ⟨t', hexec', hread, ⟨-, hres1, -⟩, -⟩ := bwtEnc_completes hi hm hp hsn hsr hsb hz
  obtain rfl : t = t' := by rw [hexec] at hexec'; injection hexec'
  rw [hread] at hL
  have hrowlt := primaryRow_lt (textOf s)
  have hc : (bwtOf u).count 0x00#8 = 1 := by
    rw [hL, (transformOf_perm _).count_eq, List.count_append, List.count_eq_zero_of_not_mem hz]
    rfl
  have hprow : primaryRow (textOf s) < u.operand 1 := by simpa [hlen] using hrowlt
  have hrow : (bwtOf u)[primaryRow (textOf s)]? = some 0x00#8 := by
    rw [← getD_bwtOf_eq_iff hprow _ 0#8, hL]
    exact (getD_transformOf_eq_zero_iff hz hrowlt _).2 rfl
  have hdecode {j : Instr} (he : endingOf j u = bwtDecWalk u (primaryRow (textOf s))) :
      ∃ v, exec j u = .next v ∧ v.status.done = true ∧
        v.mem.readBytes (u.operand 2) (u.operand 1) = textOf s ++ [0x00#8] := by
    obtain ⟨v, hv, hvread, ⟨-, -, -, -, hvdone, -⟩, -⟩ :=
      bwtDec_completes hum hprow (hL ▸ singleCycle_transformOf hz) he
    refine ⟨v, hv, hvdone, ?_⟩
    rw [hvread, hL, hlen, ← emitted_transformOf hz, length_textOf]
  refine ⟨hdecode ((bwtDecChecked_of_checks hn hr hb _).trans (bwtDecSData_of_row hc hrow)), fun h3 => ?_⟩
  have h3 : u.operand 3 = primaryRow (textOf s) := by rw [← hres1, ← h3]; rfl
  exact hdecode ((bwtDecChecked_of_checks hn hr hb _).trans (h3 ▸ bwtDecPData_of_row hc (h3.symm ▸ hrow)))

end Sys2Proof.Machine
end

section
/-! PROOFS. Canonical codes (42_huffman_codec.md R205 to R207): the code of a symbol is `first_code` of its length plus
its place among the symbols of that length, and the codes of one length end before the next length's codes begin. -/

namespace Sys2Proof.Machine

/-! ### The code table -/

/-- The pass gives each symbol the running code of its length (42_huffman_codec.md R205). -/
theorem getD_assignCodes {next lens : List Nat} {s : Nat} (hs : s < lens.length) (hpos : lens[s] ≠ 0)
    (hnext : lens[s] < next.length) :
    (assignCodes next lens).getD s 0 = next.getD lens[s] 0 + (lens.take s).count lens[s] := by
  induction lens generalizing next s with
  | nil => simp at hs
  | cons l lens ih =>
    cases s with
    | zero =>
      simp only [List.getElem_cons_zero] at hpos
      simp [assignCodes, hpos]
    | succ s =>
      simp only [List.getElem_cons_succ] at hpos hnext
      have hs : s < lens.length := by simpa using hs
      simp only [assignCodes, List.getElem_cons_succ, List.take_succ_cons, List.count_cons, beq_iff_eq]
      by_cases hl : l = 0
      · have hne : l ≠ lens[s] := fun h => hpos (h ▸ hl)
        rw [if_pos hl, List.getD_cons_succ, ih hs hpos hnext, if_neg hne, Nat.add_zero]
      · rw [if_neg hl, List.getD_cons_succ, ih hs hpos (by simpa using hnext)]
        by_cases heq : l = lens[s]
        · have hnext : l < next.length := heq ▸ hnext
          simp [← heq, hnext]
          omega
        · simp [heq, List.getElem?_set_ne heq]

/-- The canonical codes of one length are consecutive from `first_code` in symbol order (42_huffman_codec.md R205,
R207). -/
theorem getD_canonicalCodes {lens : List Nat} (hfit : ∀ l ∈ lens, l ≤ maxLen) {s : Nat} (hpos : lens.getD s 0 ≠ 0) :
    (canonicalCodes lens).getD s 0 =
      firstCode lens (lens.getD s 0) + (lens.take s).count (lens.getD s 0) := by
  obtain hs | hs := Nat.lt_or_ge s lens.length
  · have hle : lens[s] < maxLen + 1 := Nat.lt_succ_of_le (hfit _ (List.getElem_mem hs))
    rw [List.getD_eq_getElem _ _ hs] at hpos ⊢
    rw [canonicalCodes, getD_assignCodes hs hpos (by simpa using hle)]
    simp [hle]
  · exact absurd (List.getD_eq_default _ _ hs) hpos

/-! ### The codes of one length -/

/-- One past the last code of length `L` (42_huffman_codec.md R205). -/
def codeEnd (lens : List Nat) (L : Nat) : Nat := firstCode lens L + blCount lens L

theorem firstCode_succ (lens : List Nat) (L : Nat) : firstCode lens (L + 1) = codeEnd lens L * 2 := rfl

theorem firstCode_le_codeEnd (lens : List Nat) (L : Nat) : firstCode lens L ≤ codeEnd lens L := Nat.le_add_right _ _

/-- The codes of a length begin where those of every smaller length, extended, have ended (42_huffman_codec.md R207). -/
theorem codeEnd_mul_le_firstCode (lens : List Nat) {L M : Nat} (h : L < M) :
    codeEnd lens L * 2 ^ (M - L) ≤ firstCode lens M := by
  induction M, h using Nat.le_induction with
  | base => simp [firstCode_succ]
  | succ M hM ih =>
    calc codeEnd lens L * 2 ^ (M + 1 - L) = codeEnd lens L * 2 ^ (M - L) * 2 := by
          rw [Nat.succ_sub (Nat.le_of_succ_le hM), Nat.pow_succ, Nat.mul_assoc]
      _ ≤ codeEnd lens M * 2 := Nat.mul_le_mul_right 2 (ih.trans (firstCode_le_codeEnd lens M))
      _ = firstCode lens (M + 1) := (firstCode_succ lens M).symm

theorem blCount_of_ne_zero (lens : List Nat) {L : Nat} (h : L ≠ 0) : blCount lens L = lens.count L := if_neg h

/-- Before a symbol there are fewer symbols of its length than in the whole table. -/
theorem count_take_lt_blCount {lens : List Nat} {s : Nat} (hpos : lens.getD s 0 ≠ 0) :
    (lens.take s).count (lens.getD s 0) < blCount lens (lens.getD s 0) := by
  obtain hs | hs := Nat.lt_or_ge s lens.length
  · have hsplit : lens.take (s + 1) = lens.take s ++ [lens.getD s 0] := by
      rw [List.take_add_one, List.getElem?_eq_getElem hs, List.getD_eq_getElem _ _ hs, Option.toList_some]
    rw [blCount_of_ne_zero lens hpos]
    calc (lens.take s).count (lens.getD s 0) < (lens.take (s + 1)).count (lens.getD s 0) := by simp [hsplit]
      _ ≤ lens.count (lens.getD s 0) := (List.take_sublist _ _).count_le _
  · exact absurd (List.getD_eq_default _ _ hs) hpos

/-- Among the symbols of one length, a later one has more of them before it. -/
theorem count_take_lt_count_take {lens : List Nat} {s t : Nat} (hpos : lens.getD s 0 ≠ 0) (hst : s < t) :
    (lens.take s).count (lens.getD s 0) < (lens.take t).count (lens.getD s 0) := by
  have hget : (lens.take t).getD s 0 = lens.getD s 0 := by simp [hst]
  have h := count_take_lt_blCount (lens := lens.take t) (s := s) (by rwa [hget])
  rwa [hget, blCount_of_ne_zero _ hpos, List.take_take, Nat.min_eq_left hst.le] at h

section
variable {lens : List Nat} (hfit : ∀ l ∈ lens, l ≤ maxLen)
include hfit

theorem code_lt_codeEnd {s : Nat} (hpos : lens.getD s 0 ≠ 0) :
    (canonicalCodes lens).getD s 0 < codeEnd lens (lens.getD s 0) := by
  rw [getD_canonicalCodes hfit hpos, codeEnd]
  exact Nat.add_lt_add_left (count_take_lt_blCount hpos) _

theorem firstCode_le_code {s : Nat} (hpos : lens.getD s 0 ≠ 0) :
    firstCode lens (lens.getD s 0) ≤ (canonicalCodes lens).getD s 0 := by
  rw [getD_canonicalCodes hfit hpos]
  exact Nat.le_add_right _ _

/-- The leading bits of a longer code lie past every code of that many bits (42_huffman_codec.md R207 (c)). -/
theorem codeEnd_le_leadingBits {t L : Nat} (hL : L < lens.getD t 0) :
    codeEnd lens L ≤ (canonicalCodes lens).getD t 0 / 2 ^ (lens.getD t 0 - L) := by
  rw [Nat.le_div_iff_mul_le (Nat.two_pow_pos _)]
  exact (codeEnd_mul_le_firstCode lens hL).trans (firstCode_le_code hfit (Nat.ne_zero_of_lt hL))

/-- Two symbols of one length have different codes. -/
theorem code_ne_of_length_eq {s t : Nat} (hpos : lens.getD s 0 ≠ 0) (hlen : lens.getD t 0 = lens.getD s 0)
    (hst : s ≠ t) : (canonicalCodes lens).getD t 0 ≠ (canonicalCodes lens).getD s 0 := by
  have hpos' : lens.getD t 0 ≠ 0 := hlen ▸ hpos
  rw [getD_canonicalCodes hfit hpos, getD_canonicalCodes hfit hpos', hlen]
  obtain h | h := Nat.lt_or_gt_of_ne hst
  · have := count_take_lt_count_take hpos h
    omega
  · have := count_take_lt_count_take hpos' h
    rw [hlen] at this
    omega

end

/-! ### The Kraft sum -/

/-- What a length adds to the Kraft sum (42_huffman_codec.md R206). -/
def kraftTerm (l : Nat) : Nat := if l = 0 then 0 else 2 ^ (maxLen - l)

theorem kraftSum_eq (lens : List Nat) : kraftSum lens = (lens.map kraftTerm).sum := by
  induction lens with
  | nil => rfl
  | cons l lens ih =>
    rw [List.map_cons, List.sum_cons, ← ih, kraftSum, kraftSum, kraftTerm]
    by_cases hl : l = 0 <;> simp [hl]

theorem oversubscribed_iff (lens : List Nat) : oversubscribed lens = true ↔ 2 ^ maxLen < kraftSum lens := by
  rw [oversubscribed, decide_eq_true_eq]

theorem oversubscribed_eq_false_iff (lens : List Nat) : oversubscribed lens = false ↔ kraftSum lens ≤ 2 ^ maxLen := by
  rw [oversubscribed, decide_eq_false_iff_not, Nat.not_lt]

/-- The lengths up to `L` are those below `L` and those equal to `L`. -/
theorem kraftSum_filter_le (lens : List Nat) (L : Nat) :
    kraftSum (lens.filter (· ≤ L)) = kraftSum (lens.filter (· < L)) + blCount lens L * 2 ^ (maxLen - L) := by
  simp only [kraftSum_eq]
  induction lens with
  | nil => simp [blCount]
  | cons l lens ih =>
    have hcount : blCount (l :: lens) L * 2 ^ (maxLen - L) =
        blCount lens L * 2 ^ (maxLen - L) + if l = L then kraftTerm l else 0 := by
      by_cases hL : L = 0
      · simp +contextual [blCount, hL, kraftTerm]
      · rw [blCount_of_ne_zero _ hL, blCount_of_ne_zero _ hL, List.count_cons, Nat.add_mul]
        by_cases hl : l = L <;> simp [hl, hL, kraftTerm]
    rw [hcount, List.filter_cons, List.filter_cons]
    obtain h | rfl | h := Nat.lt_trichotomy l L
    · simp [ih, h, h.le, h.ne, Nat.add_assoc]
    · simp [ih, Nat.add_assoc, Nat.add_comm, Nat.add_left_comm]
    · simp [ih, h.not_ge, h.not_gt, h.ne']

/-- `first_code` counts the codes of the smaller lengths as the Kraft sum does (42_huffman_codec.md R205, R206). -/
theorem firstCode_mul {L : Nat} (lens : List Nat) (hL : L ≤ maxLen) :
    firstCode lens L * 2 ^ (maxLen - L) = kraftSum (lens.filter (· < L)) := by
  induction L with
  | zero => simp [firstCode, kraftSum]
  | succ L ih =>
    have hpow : 2 ^ (maxLen - L) = 2 * 2 ^ (maxLen - (L + 1)) := by
      rw [← Nat.pow_succ', show (maxLen - (L + 1)).succ = maxLen - L by omega]
    simp only [Nat.lt_succ_iff]
    rw [firstCode_succ, kraftSum_filter_le, ← ih (by omega), codeEnd, ← Nat.add_mul, hpow, Nat.mul_assoc]

/-- Every code of a table that is not over-subscribed fits its length (42_huffman_codec.md R206). -/
theorem codeEnd_le_two_pow {lens : List Nat} (hover : oversubscribed lens = false) {L : Nat} (hL : L ≤ maxLen) :
    codeEnd lens L ≤ 2 ^ L := by
  refine Nat.le_of_mul_le_mul_right (c := 2 ^ (maxLen - L)) ?_ (Nat.two_pow_pos _)
  calc codeEnd lens L * 2 ^ (maxLen - L) = kraftSum (lens.filter (· ≤ L)) := by
        rw [kraftSum_filter_le, ← firstCode_mul lens hL, codeEnd, Nat.add_mul]
    _ ≤ kraftSum lens := by
        rw [kraftSum_eq, kraftSum_eq]
        exact (List.filter_sublist.map kraftTerm).sum_le_sum fun _ _ => Nat.zero_le _
    _ ≤ 2 ^ maxLen := (oversubscribed_eq_false_iff lens).1 hover
    _ = 2 ^ L * 2 ^ (maxLen - L) := by rw [← Nat.pow_add, Nat.add_sub_cancel' hL]

theorem getD_le_of_forall_le {lens : List Nat} {n : Nat} (h : ∀ l ∈ lens, l ≤ n) (s : Nat) : lens.getD s 0 ≤ n := by
  obtain hs | hs := Nat.lt_or_ge s lens.length
  · rw [List.getD_eq_getElem _ _ hs]
    exact h _ (List.getElem_mem hs)
  · rw [List.getD_eq_default _ _ hs]
    exact Nat.zero_le n

theorem code_lt_two_pow {lens : List Nat} (hfit : ∀ l ∈ lens, l ≤ maxLen) (hover : oversubscribed lens = false)
    {s : Nat} (hpos : lens.getD s 0 ≠ 0) : (canonicalCodes lens).getD s 0 < 2 ^ lens.getD s 0 :=
  (code_lt_codeEnd hfit hpos).trans_le (codeEnd_le_two_pow hover (getD_le_of_forall_le hfit s))

/-- Settles O40: the leading bits of a longer code lie past all codes of that many bits, and within one length the codes
count up. -/
theorem canonicalCodesArePrefixFree : Obligations.CanonicalCodesArePrefixFree := by
  intro lens hfit hover len code
  have hbelow {s t : Nat} (hs : len s ≠ 0) (hlt : len s < len t) : code s < code t / 2 ^ (len t - len s) :=
    (code_lt_codeEnd hfit hs).trans_le (codeEnd_le_leadingBits hfit hlt)
  refine ⟨fun s _ hs => getD_canonicalCodes hfit hs, fun s _ hs => code_lt_two_pow hfit hover hs,
    fun s _ t _ hst hs hle => ?_, fun s _ t _ hs hlt => hbelow hs hlt⟩
  obtain hlt | heq := Nat.lt_or_eq_of_le hle
  · exact (hbelow hs hlt).ne'
  · rw [heq, Nat.sub_self, Nat.pow_zero, Nat.div_one]
    exact code_ne_of_length_eq hfit hs heq.symm hst

end Sys2Proof.Machine
end

section
/-! PROOFS. The bit packer (43_bitstream.md R251 to R254): the bits that are put are the bits that are read, and all
others of the buffer stay. -/

namespace Sys2Proof.Machine

theorem getLsbD_setBit (b : Byte) (v : Bool) {pos k : Nat} (hk : k < 8) :
    (setBit b pos v).getLsbD k = if k = pos then v else b.getLsbD k := by
  by_cases h : k = pos
  · subst h
    cases v <;> simp [setBit, hk]
  · cases v <;> simp [setBit, hk, h]

theorem bitPosition_lt (i : Nat) : bitPosition i < 8 := by
  rw [bitPosition]
  omega

/-- A bit put is the bit read, and every other bit is as it was (43_bitstream.md R252, R253). -/
theorem bitGet_bitPut {buf : List Byte} {i : Nat} (hi : i / 8 < buf.length) (v : Bool) (j : Nat) :
    bitGet (bitPut buf i v) j = if j = i then v else bitGet buf j := by
  by_cases hbyte : j / 8 = i / 8
  · have hget : (bitPut buf i v).getD (j / 8) 0#8 = setBit (buf.getD (j / 8) 0#8) (bitPosition i) v := by
      simp [bitPut, hbyte, hi]
    have hiff : bitPosition j = bitPosition i ↔ j = i := by
      rw [bitPosition, bitPosition]
      omega
    simp only [bitGet, hget, getLsbD_setBit _ _ (bitPosition_lt j), hiff]
  · have hne : j ≠ i := fun h => hbyte (h ▸ rfl)
    simp [bitGet, bitPut, List.getElem?_set_ne (Ne.symm hbyte), hne]

/-- Bits put one after the other are read one after the other (43_bitstream.md R253). -/
theorem bitGet_putBits {buf : List Byte} {pos : Nat} {vs : List Bool} (h : pos + vs.length ≤ 8 * buf.length) (j : Nat) :
    bitGet (putBits buf pos vs) j =
      if pos ≤ j ∧ j < pos + vs.length then vs.getD (j - pos) false else bitGet buf j := by
  induction vs generalizing buf pos with
  | nil => simp [putBits, show ¬ (pos ≤ j ∧ j < pos) by omega]
  | cons v vs ih =>
    rw [List.length_cons] at h ⊢
    rw [putBits, ih (by rw [length_bitPut]; omega), bitGet_bitPut (by omega)]
    obtain hlt | rfl | hgt := Nat.lt_trichotomy j pos
    · rw [if_neg (by omega), if_neg (by omega), if_neg (by omega)]
    · simp
    · obtain ⟨k, rfl⟩ := Nat.exists_eq_add_of_lt hgt
      rw [if_neg (show ¬ pos + k + 1 = pos by omega), show pos + k + 1 - pos = k + 1 by omega, List.getD_cons_succ,
        show pos + k + 1 - (pos + 1) = k by omega]
      exact if_congr (by omega) rfl rfl

theorem bitGet_replicate_zero (n j : Nat) : bitGet (List.replicate n 0#8) j = false := by
  simp only [bitGet, List.getD_eq_getElem?_getD, List.getElem?_replicate]
  split <;> simp

/-- A packed stream holds its bits in order, then pad bits 0 (43_bitstream.md R253, R254). -/
theorem bitGet_packBits (bits : List Bool) (j : Nat) : bitGet (packBits bits) j = bits.getD j false := by
  rw [packBits, bitGet_putBits (by simp [bytesForBits]; omega), bitGet_replicate_zero]
  obtain hj | hj := Nat.lt_or_ge j bits.length
  · simp [hj]
  · rw [if_neg (by omega), List.getD_eq_default _ _ hj]

end Sys2Proof.Machine
end

section
/-! PROOFS. The decoder (42_huffman_codec.md R211, R212): the loop resolves a code at its last bit and not before, so it
inverts the encoder. -/

namespace Sys2Proof.Machine

/-! ### The decode tables -/

/-- What a candidate resolves to, by the tables' definitions (42_huffman_codec.md R211, R212). -/
theorem resolve_decodeTables (lens : List Nat) {L : Nat} (hL : L ≤ maxLen) (cur : Nat) :
    resolve (decodeTables lens) cur L =
      if 0 < blCount lens L ∧ firstCode lens L ≤ cur ∧ cur ≤ firstCode lens L + blCount lens L - 1 then
        some (BitVec.ofNat 8 ((symbolOrder lens).getD (symBase lens L + (cur - firstCode lens L)) 0))
      else none := by
  have hL : L < maxLen + 1 := Nat.lt_succ_of_le hL
  simp [resolve, decodeTables, hL]

/-- A candidate past the codes of its length does not resolve. -/
theorem resolve_eq_none_of_codeEnd_le {lens : List Nat} {L cur : Nat} (hL : L ≤ maxLen) (h : codeEnd lens L ≤ cur) :
    resolve (decodeTables lens) cur L = none := by
  rw [codeEnd] at h
  rw [resolve_decodeTables lens hL, if_neg (by omega)]

theorem take_eq_map_range {lens : List Nat} {n : Nat} (hn : n ≤ lens.length) :
    lens.take n = (List.range n).map fun s => lens.getD s 0 := by
  refine List.ext_getElem (by simpa using hn) fun i hi _ => ?_
  have hi : i < lens.length := by simp at hi; omega
  simp [hi]

/-- A symbol's place among the symbols below `n` with its length is the number of them before it. -/
theorem getElem?_filter_range {p : Nat → Bool} {s n : Nat} (hs : s < n) (hp : p s = true) :
    ((List.range n).filter p)[(List.range s).countP p]? = some s := by
  obtain ⟨k, rfl⟩ := Nat.exists_eq_add_of_lt hs
  rw [Nat.add_assoc, List.range_add, List.filter_append, List.countP_eq_length_filter,
    List.getElem?_append_right (Nat.le_refl _), Nat.sub_self, List.range_succ_eq_map]
  simp [hp]

/-- In the concatenation of the blocks `f 0, f 1, ...` block `k` begins after all blocks before it. -/
theorem getElem?_flatMap_range (f : Nat → List Nat) {k n i : Nat} (hk : k < n) (hi : i < (f k).length) :
    ((List.range n).flatMap f)[((List.range k).map fun j => (f j).length).sum + i]? = (f k)[i]? := by
  obtain ⟨m, rfl⟩ := Nat.exists_eq_add_of_lt hk
  rw [Nat.add_assoc, List.range_add, List.flatMap_append, List.getElem?_append_right (by simp [List.length_flatMap]),
    List.length_flatMap, Nat.add_sub_cancel_left, List.range_succ_eq_map]
  simp [List.getElem?_append_left hi]

/-- `sym_base[L]` counts the symbols of the lengths 1 to `L - 1` (42_huffman_codec.md R211). -/
theorem symBase_succ (lens : List Nat) (k : Nat) :
    symBase lens (k + 1) = ((List.range k).map fun j => lens.count (j + 1)).sum := by
  rw [symBase, List.range_succ_eq_map]
  simp [blCount, Function.comp_def]

/-- `order[]` lists each symbol at the base of its length plus its place among the symbols of that length
(42_huffman_codec.md R211). -/
theorem getD_symbolOrder {lens : List Nat} (hlen : lens.length = alphabet) {s : Nat} (hpos : lens.getD s 0 ≠ 0)
    (hle : lens.getD s 0 ≤ maxLen) :
    (symbolOrder lens).getD (symBase lens (lens.getD s 0) + (lens.take s).count (lens.getD s 0)) 0 = s := by
  have hs : s < alphabet := by
    by_contra h
    exact hpos (List.getD_eq_default _ _ (by omega))
  obtain ⟨k, hk⟩ := Nat.exists_eq_succ_of_ne_zero hpos
  have hcount {n L : Nat} (hn : n ≤ alphabet) :
      (lens.take n).count L = (List.range n).countP fun s => decide (lens.getD s 0 = L) := by
    rw [take_eq_map_range (hlen ▸ hn), List.count_eq_countP, List.countP_map]
    rfl
  have hblock (j : Nat) : lens.count (j + 1) =
      ((List.range alphabet).filter fun s => decide (lens.getD s 0 = j + 1)).length := by
    rw [← List.countP_eq_length_filter, ← hcount (Nat.le_refl _), ← hlen, List.take_length]
  have hplace := getElem?_filter_range (p := fun s => decide (lens.getD s 0 = k + 1)) hs (by simpa using hk)
  obtain ⟨hlt, -⟩ := List.getElem?_eq_some_iff.1 hplace
  rw [hk, symBase_succ, hcount hs.le, List.getD_eq_getElem?_getD, symbolOrder]
  simp only [hblock]
  rw [getElem?_flatMap_range _ (by omega) hlt, hplace, Option.getD_some]

/-- A symbol's code resolves to the symbol (42_huffman_codec.md R212). -/
theorem resolve_code {lens : List Nat} (hlen : lens.length = alphabet) (hfit : ∀ l ∈ lens, l ≤ maxLen) {b : Byte}
    (hpos : lens.getD b.toNat 0 ≠ 0) :
    resolve (decodeTables lens) (canonicalCodeOf lens b) (lens.getD b.toNat 0) = some b := by
  have hle := getD_le_of_forall_le hfit b.toNat
  have hcount := count_take_lt_blCount hpos
  rw [canonicalCodeOf, getD_canonicalCodes hfit hpos, resolve_decodeTables lens hle, if_pos (by omega),
    Nat.add_sub_cancel_left, getD_symbolOrder hlen hpos hle, BitVec.ofNat_toNat, BitVec.setWidth_eq]

/-- `LMAX` is an upper bound of the lengths (42_huffman_codec.md R211). -/
theorem getD_le_maxLength (lens : List Nat) (s : Nat) : lens.getD s 0 ≤ maxLength lens :=
  getD_le_of_forall_le (fun _ hl => le_foldl_max (.inr hl)) s

/-! ### The loop on one code -/

/-- A loop that has read all but the last `r` bits of a code reads the rest, resolves the code at its last bit, and
starts afresh (42_huffman_codec.md R212). -/
theorem decodeFrom_code {t : DecodeTables} {bytes : List Byte} {code len : Nat} {b : Byte}
    (hresolve : resolve t code len = some b)
    (hearly : ∀ r, 0 < r → r < len → resolve t (code / 2 ^ r) (len - r) = none) (hlmax : len ≤ t.lmax)
    {r : Nat} (hr0 : 0 < r) (hr : r ≤ len) {pos : Nat}
    (hbits : ∀ j < r, bitGet bytes (pos + j) = code.testBit (r - 1 - j))
    (left start : Nat) (out : List Byte) :
    decodeFrom t bytes (left + r) pos (code / 2 ^ r) (len - r) start out =
      decodeFrom t bytes left (pos + r) 0 0 (pos + r) (b :: out) := by
  induction r generalizing pos with
  | zero => omega
  | succ r ih =>
    have hbit : bitGet bytes pos = code.testBit r := by simpa using hbits 0 (by omega)
    have hcur : 2 * (code / 2 ^ (r + 1)) + (bitGet bytes pos).toNat = code / 2 ^ r := by
      rw [hbit, Nat.toNat_testBit, Nat.pow_succ, ← Nat.div_div_eq_div_mul]
      omega
    have hlen : len - (r + 1) + 1 = len - r := by omega
    rw [← Nat.add_assoc, decodeFrom]
    simp only [hcur, hlen]
    obtain rfl | hr0 := Nat.eq_zero_or_pos r
    · simp [hresolve]
    · rw [hearly r hr0 hr]
      simp only [if_neg (show ¬ t.lmax ≤ len - r by omega)]
      rw [ih hr0 (by omega) fun j hj => ?_, Nat.add_assoc pos, Nat.add_comm 1]
      rw [Nat.add_assoc pos, Nat.add_comm 1 j, hbits (j + 1) (by omega)]
      congr 1
      omega

theorem getD_codeBits {code len k : Nat} (hk : k < len) :
    (codeBits code len).getD k false = code.testBit (len - 1 - k) := by
  simp [codeBits, hk]

section
variable {lens : List Nat} (hlen : lens.length = alphabet) (hfit : ∀ l ∈ lens, l ≤ maxLen)
  (hover : oversubscribed lens = false)
include hlen hfit hover

/-- The loop decodes the code of one symbol (42_huffman_codec.md R212). -/
theorem decodeFrom_symbol {bytes : List Byte} {b : Byte} (hpos : lens.getD b.toNat 0 ≠ 0) {pos : Nat}
    (hbits : ∀ k < lens.getD b.toNat 0, bitGet bytes (pos + k) =
      (codeBits (canonicalCodeOf lens b) (lens.getD b.toNat 0)).getD k false) (left start : Nat) (out : List Byte) :
    decodeFrom (decodeTables lens) bytes (left + lens.getD b.toNat 0) pos 0 0 start out =
      decodeFrom (decodeTables lens) bytes left (pos + lens.getD b.toNat 0) 0 0 (pos + lens.getD b.toNat 0)
        (b :: out) := by
  have hle := getD_le_of_forall_le hfit b.toNat
  have h := decodeFrom_code (t := decodeTables lens) (resolve_code hlen hfit hpos) (fun r hr0 hr => ?_)
    (getD_le_maxLength lens b.toNat) (Nat.pos_of_ne_zero hpos) (Nat.le_refl _)
    (fun j hj => (hbits j hj).trans (getD_codeBits hj)) left start out
  · have hcode : canonicalCodeOf lens b < 2 ^ lens.getD b.toNat 0 := code_lt_two_pow hfit hover hpos
    rwa [Nat.div_eq_of_lt hcode, Nat.sub_self] at h
  · refine resolve_eq_none_of_codeEnd_le (by omega) ?_
    have hend := codeEnd_le_leadingBits hfit (t := b.toNat) (L := lens.getD b.toNat 0 - r) (by omega)
    rwa [Nat.sub_sub_self hr.le] at hend

/-- The loop decodes the codes of a symbol sequence one after the other (42_huffman_codec.md R212). -/
theorem decodeFrom_encodedBits {bytes symbols : List Byte} (hpresent : ∀ b ∈ symbols, lens.getD b.toNat 0 ≠ 0)
    {pos : Nat} (hbits : ∀ k < bitCount lens symbols, bitGet bytes (pos + k) =
      (encodedBits (canonicalCodeOf lens) lens symbols).getD k false) (out : List Byte) :
    decodeFrom (decodeTables lens) bytes (bitCount lens symbols) pos 0 0 pos out =
      ⟨out.reverse ++ symbols, none⟩ := by
  induction symbols generalizing pos out with
  | nil => simp [bitCount, decodeFrom]
  | cons b symbols ih =>
    have hcount : bitCount lens (b :: symbols) = bitCount lens symbols + lens.getD b.toNat 0 := by
      simp [bitCount, Nat.add_comm]
    have hsplit : encodedBits (canonicalCodeOf lens) lens (b :: symbols) =
        codeBits (canonicalCodeOf lens b) (lens.getD b.toNat 0) ++
          encodedBits (canonicalCodeOf lens) lens symbols := rfl
    rw [hcount, decodeFrom_symbol hlen hfit hover (hpresent b (by simp)) fun k hk => ?_,
      ih (fun c hc => hpresent c (by simp [hc])) fun k hk => ?_]
    · simp
    · rw [Nat.add_assoc, hbits _ (by omega), hsplit, List.getD_append_right _ _ _ _ (by simp)]
      simp
    · rw [hbits _ (by omega), hsplit, List.getD_append _ _ _ _ (by simpa using hk)]

/-- Decoding inverts encoding with canonical codes (42_huffman_codec.md R212, R215). -/
theorem decodeLoop_encodedBits {bytes symbols : List Byte} (hpresent : ∀ b ∈ symbols, lens.getD b.toNat 0 ≠ 0)
    (hbits : ∀ k < bitCount lens symbols, bitGet bytes k =
      (encodedBits (canonicalCodeOf lens) lens symbols).getD k false) :
    decodeLoop lens bytes (bitCount lens symbols) = ⟨symbols, none⟩ :=
  decodeFrom_encodedBits hlen hfit hover hpresent (by simpa using hbits) []

end

/-- Settles O54: the loop on one code, for each symbol in turn. -/
theorem decodingInvertsCanonicalEncoding : Obligations.DecodingInvertsCanonicalEncoding := by
  intro lens symbols bytes hlen hfit hover hpresent bits hbits
  have hcount : bits.length = bitCount lens symbols := length_encodedBits (canonicalCodeOf lens) lens symbols
  rw [hcount] at hbits ⊢
  exact decodeLoop_encodedBits hlen hfit hover hpresent hbits

end Sys2Proof.Machine
end

section
/-! PROOFS. The lengths of a frequency table are the leaf depths of a tree on the present symbols (42_huffman_codec.md
R201 to R203), and the depths of a full tree meet Kraft's inequality with equality (R206). -/

namespace Sys2Proof.Machine

/-! ### Leaf depths -/

/-- The symbols at the leaves, from left to right (42_huffman_codec.md R201). -/
def HuffTree.symbols : HuffTree → List Nat
  | .leaf s => [s]
  | .node l r => l.symbols ++ r.symbols

theorem HuffTree.symbols_pos (t : HuffTree) : 0 < t.symbols.length := by
  induction t with
  | leaf s => simp [symbols]
  | node l r ihl ihr =>
    rw [symbols, List.length_append]
    omega

theorem map_fst_leafDepths (t : HuffTree) (d : Nat) : (leafDepths t d).map Prod.fst = t.symbols := by
  induction t generalizing d with
  | leaf s => rfl
  | node l r ihl ihr => rw [leafDepths, List.map_append, ihl, ihr, HuffTree.symbols]

/-- A leaf lies below the root of its subtree, and no deeper than the subtree has other leaves. -/
theorem leafDepths_bounds {t : HuffTree} {d : Nat} {p : Nat × Nat} (hp : p ∈ leafDepths t d) :
    d ≤ p.2 ∧ p.2 + 1 ≤ d + t.symbols.length := by
  induction t generalizing d with
  | leaf s =>
    obtain rfl := List.mem_singleton.1 hp
    simp [HuffTree.symbols]
  | node l r ihl ihr =>
    have hl := l.symbols_pos
    have hr := r.symbols_pos
    rw [HuffTree.symbols, List.length_append]
    obtain h | h := List.mem_append.1 hp
    · have := ihl h
      omega
    · have := ihr h
      omega

/-- Kraft's equality: each node's weight `2^(B - depth)` is that of its two children together (42_huffman_codec.md
R206). -/
theorem sum_two_pow_leafDepths {t : HuffTree} {d B : Nat} (hB : d + t.symbols.length ≤ B + 1) :
    ((leafDepths t d).map fun p => 2 ^ (B - p.2)).sum = 2 ^ (B - d) := by
  induction t generalizing d with
  | leaf s => simp [leafDepths]
  | node l r ihl ihr =>
    have hl := l.symbols_pos
    have hr := r.symbols_pos
    rw [HuffTree.symbols, List.length_append] at hB
    rw [leafDepths, List.map_append, List.sum_append, ihl (by omega), ihr (by omega), ← Nat.two_mul, ← Nat.pow_succ']
    congr 1
    omega

/-- The length table of a tree (42_huffman_codec.md R203). -/
def HuffTree.lengths (t : HuffTree) : List Nat :=
  (List.range alphabet).map fun s => (List.lookup s (leafDepths t 0)).getD 0

section
variable {t : HuffTree}

theorem HuffTree.getD_lengths {s : Nat} (hs : s < alphabet) :
    t.lengths.getD s 0 = (List.lookup s (leafDepths t 0)).getD 0 := by
  simp [lengths, hs]

/-- A symbol that is at no leaf has no length. -/
theorem HuffTree.getD_lengths_of_not_mem {s : Nat} (hs : s ∉ t.symbols) : t.lengths.getD s 0 = 0 := by
  obtain hlt | hge := Nat.lt_or_ge s alphabet
  · rw [getD_lengths hlt, List.lookup_eq_none_iff.2 fun p hp => ?_, Option.getD_none]
    rw [bne_iff_ne]
    rintro rfl
    exact hs (map_fst_leafDepths t 0 ▸ List.mem_map_of_mem hp)
  · exact List.getD_eq_default _ _ (by simpa [lengths] using hge)

/-- The leaf depths of a tree whose symbols differ, as a table. -/
theorem leafDepths_eq_map_lengths (hnodup : t.symbols.Nodup) (halpha : ∀ s ∈ t.symbols, s < alphabet) :
    leafDepths t 0 = t.symbols.map fun s => (s, t.lengths.getD s 0) := by
  rw [eq_map_lookup (pairs := leafDepths t 0) (by rwa [map_fst_leafDepths]), map_fst_leafDepths]
  exact List.map_congr_left fun s hs => by rw [HuffTree.getD_lengths (halpha s hs)]

/-- Each symbol of a tree with two or more leaves has a length from 1 to their number less 1. -/
theorem HuffTree.lengths_bounds (hnodup : t.symbols.Nodup) (halpha : ∀ s ∈ t.symbols, s < alphabet)
    (h2 : 2 ≤ t.symbols.length) {s : Nat} (hs : s ∈ t.symbols) :
    t.lengths.getD s 0 ≠ 0 ∧ t.lengths.getD s 0 ≤ t.symbols.length - 1 := by
  have hmem : (s, t.lengths.getD s 0) ∈ leafDepths t 0 := by
    rw [leafDepths_eq_map_lengths hnodup halpha]
    exact List.mem_map_of_mem hs
  have hbound := leafDepths_bounds hmem
  refine ⟨?_, by omega⟩
  cases t with
  | leaf a => simp [symbols] at h2
  | node l r =>
    rw [leafDepths] at hmem
    obtain h | h := List.mem_append.1 hmem
    · exact Nat.ne_zero_of_lt (leafDepths_bounds h).1
    · exact Nat.ne_zero_of_lt (leafDepths_bounds h).1

theorem HuffTree.sum_two_pow_lengths (hnodup : t.symbols.Nodup) (halpha : ∀ s ∈ t.symbols, s < alphabet) {B : Nat}
    (hB : t.symbols.length ≤ B + 1) : (t.symbols.map fun s => 2 ^ (B - t.lengths.getD s 0)).sum = 2 ^ B := by
  have h := sum_two_pow_leafDepths (t := t) (d := 0) (B := B) (by omega)
  rwa [leafDepths_eq_map_lengths hnodup halpha, List.map_map] at h

end

/-! ### The queue -/

/-- The symbols of all trees in a queue. -/
def queueSymbols (q : List HuffNode) : List Nat := q.flatMap fun a => a.tree.symbols

theorem insertNode_perm (a : HuffNode) (q : List HuffNode) : (insertNode a q).Perm (a :: q) := by
  induction q with
  | nil => exact List.Perm.refl _
  | cons b q ih =>
    rw [insertNode]
    split
    · exact List.Perm.refl _
    · exact (ih.cons b).trans (List.Perm.swap a b q)

theorem queueSymbols_insertNode (a : HuffNode) (q : List HuffNode) :
    (queueSymbols (insertNode a q)).Perm (a.tree.symbols ++ queueSymbols q) :=
  (insertNode_perm a q).flatMap_right _

theorem length_insertNode (a : HuffNode) (q : List HuffNode) : (insertNode a q).length = q.length + 1 :=
  (insertNode_perm a q).length_eq

/-- The merges keep the symbols and, given the fuel, leave one tree (42_huffman_codec.md R203). -/
theorem mergeNodes_eq_singleton {fuel : Nat} (k : Nat) {q : List HuffNode} (hpos : 0 < q.length)
    (hfuel : q.length ≤ fuel + 1) :
    ∃ root, mergeNodes fuel k q = [root] ∧ root.tree.symbols.Perm (queueSymbols q) := by
  induction fuel generalizing k q with
  | zero =>
    obtain ⟨a, rfl⟩ := List.length_eq_one_iff.1 (show q.length = 1 by omega)
    exact ⟨a, rfl, by simp [queueSymbols]⟩
  | succ fuel ih =>
    match q with
    | [a] => exact ⟨a, rfl, by simp [queueSymbols]⟩
    | a :: b :: q =>
      obtain ⟨root, hroot, hperm⟩ := ih (k + 1)
        (q := insertNode ⟨a.freq + b.freq, 256 + k, .node a.tree b.tree⟩ q)
        (by rw [length_insertNode]; omega) (by rw [length_insertNode]; simpa using hfuel)
      refine ⟨root, hroot, hperm.trans ((queueSymbols_insertNode _ _).trans ?_)⟩
      simp [queueSymbols, HuffTree.symbols]

/-- The queue of the leaves holds one leaf for each present symbol (42_huffman_codec.md R203). -/
theorem leafQueue_perm (freq : List Nat) :
    (leafQueue freq).Perm ((presentSymbols freq).map fun s => ⟨freq.getD s 0, s, .leaf s⟩) := by
  have hfold (symbols : List Nat) (q : List HuffNode) :
      (symbols.foldl (fun q s => insertNode ⟨freq.getD s 0, s, .leaf s⟩ q) q).Perm
        (symbols.map (fun s => ⟨freq.getD s 0, s, .leaf s⟩) ++ q) := by
    induction symbols generalizing q with
    | nil => exact List.Perm.refl _
    | cons s symbols ih =>
      exact (ih _).trans (((insertNode_perm _ q).append_left _).trans List.perm_middle)
  simpa [leafQueue] using hfold (presentSymbols freq) []

theorem length_leafQueue (freq : List Nat) : (leafQueue freq).length = (presentSymbols freq).length := by
  simpa using (leafQueue_perm freq).length_eq

theorem queueSymbols_leafQueue (freq : List Nat) : (queueSymbols (leafQueue freq)).Perm (presentSymbols freq) := by
  simpa [queueSymbols, HuffTree.symbols, List.flatMap_map] using
    (leafQueue_perm freq).flatMap_right fun a => a.tree.symbols

/-! ### The lengths of a frequency table -/

section
variable {freq : List Nat}

theorem mem_presentSymbols {s : Nat} : s ∈ presentSymbols freq ↔ s < alphabet ∧ 0 < freq.getD s 0 := by
  simp [presentSymbols]

theorem nodup_presentSymbols (freq : List Nat) : (presentSymbols freq).Nodup := List.nodup_range.filter _

theorem length_presentSymbols_le (freq : List Nat) : (presentSymbols freq).length ≤ alphabet := by
  simpa [presentSymbols] using List.length_filter_le (fun s => decide (0 < freq.getD s 0)) (List.range alphabet)

theorem huffLengths_of_empty (h : presentSymbols freq = []) : huffLengths freq = List.replicate alphabet 0 := by
  simp [huffLengths, h]

theorem huffLengths_of_singleton {s0 : Nat} (h : presentSymbols freq = [s0]) :
    huffLengths freq = (List.range alphabet).map fun s => if s = s0 then 1 else 0 := by
  simp [huffLengths, h]

/-- With two or more present symbols the lengths are those of a tree on them (42_huffman_codec.md R203). -/
theorem huffLengths_of_two_le (h2 : 2 ≤ (presentSymbols freq).length) :
    ∃ t : HuffTree, t.symbols.Perm (presentSymbols freq) ∧ huffLengths freq = t.lengths := by
  have hlen := length_leafQueue freq
  have hle := length_presentSymbols_le freq
  obtain ⟨root, hroot, hsymbols⟩ := mergeNodes_eq_singleton 0 (fuel := alphabet) (q := leafQueue freq) (by omega)
    (by omega)
  refine ⟨root.tree, hsymbols.trans (queueSymbols_leafQueue freq), ?_⟩
  obtain ⟨a, b, rest, hpresent⟩ : ∃ a b rest, presentSymbols freq = a :: b :: rest := by
    match presentSymbols freq, h2 with
    | a :: b :: rest, _ => exact ⟨a, b, rest, rfl⟩
  simp [huffLengths, hpresent, hroot, HuffTree.lengths]

/-- What the lengths of two or more present symbols are (42_huffman_codec.md R203, R206). -/
theorem huffLengths_full_tree (h2 : 2 ≤ (presentSymbols freq).length) :
    (∀ s ∉ presentSymbols freq, (huffLengths freq).getD s 0 = 0) ∧
    (∀ s ∈ presentSymbols freq,
      (huffLengths freq).getD s 0 ≠ 0 ∧ (huffLengths freq).getD s 0 ≤ (presentSymbols freq).length - 1) ∧
    ((presentSymbols freq).map fun s => 2 ^ (255 - (huffLengths freq).getD s 0)).sum = 2 ^ 255 := by
  obtain ⟨t, hperm, ht⟩ := huffLengths_of_two_le h2
  have hnodup : t.symbols.Nodup := hperm.nodup_iff.2 (nodup_presentSymbols freq)
  have halpha : ∀ s ∈ t.symbols, s < alphabet := fun s hs => (mem_presentSymbols.1 (hperm.mem_iff.1 hs)).1
  have hle : t.symbols.length ≤ 255 + 1 := hperm.length_eq ▸ length_presentSymbols_le freq
  rw [ht, ← hperm.length_eq, ← (hperm.map _).sum_eq]
  rw [← hperm.length_eq] at h2
  refine ⟨fun s hs => HuffTree.getD_lengths_of_not_mem (mt hperm.mem_iff.1 hs), fun s hs => ?_,
    HuffTree.sum_two_pow_lengths hnodup halpha hle⟩
  exact HuffTree.lengths_bounds hnodup halpha h2 (hperm.mem_iff.2 hs)

/-- A symbol has a length exactly if it is present (42_huffman_codec.md R203). -/
theorem getD_huffLengths_ne_zero_iff {s : Nat} : (huffLengths freq).getD s 0 ≠ 0 ↔ s ∈ presentSymbols freq := by
  match hpresent : presentSymbols freq with
  | [] =>
    simp only [huffLengths_of_empty hpresent, List.getD_eq_getElem?_getD, List.getElem?_replicate]
    split <;> simp
  | [s0] =>
    have hs0 : s0 < alphabet := (mem_presentSymbols.1 (hpresent ▸ List.mem_singleton_self s0)).1
    obtain hs | hs := Nat.lt_or_ge s alphabet
    · simp [huffLengths_of_singleton hpresent, hs]
    · simp [huffLengths_of_singleton hpresent, hs, (hs0.trans_le hs).ne']
  | a :: b :: rest =>
    obtain ⟨habsent, hbounds, -⟩ := huffLengths_full_tree (freq := freq) (by simp [hpresent])
    rw [← hpresent]
    exact ⟨fun h => by_contra fun hs => h (habsent s hs), fun hs => (hbounds s hs).1⟩

end

/-- Settles O39: two or more present symbols are the leaves of a full tree; one has length 1. -/
theorem huffmanLengthsFormAFullTree : Obligations.HuffmanLengthsFormAFullTree := by
  intro freq _ lens present
  refine ⟨length_huffLengths freq, fun s hs => ?_, fun h1 s hs => ?_, fun h2 => ?_⟩
  · exact getD_huffLengths_ne_zero_iff.trans (mem_presentSymbols.trans (and_iff_right hs))
  · obtain ⟨s0, hs0⟩ := List.length_eq_one_iff.1 h1
    obtain rfl : s = s0 := by simpa [hs0] using hs
    have hlt : s < alphabet := (mem_presentSymbols.1 hs).1
    simp [lens, huffLengths_of_singleton (freq := freq) hs0, hlt]
  · obtain ⟨-, hbounds, hkraft⟩ := huffLengths_full_tree (freq := freq) h2
    exact ⟨fun s hs => (hbounds s hs).2, hkraft⟩

/-- Lengths that fit are not over-subscribed: the Kraft sum of a full tree is exactly `2^MAXLEN` (42_huffman_codec.md
R206). -/
theorem oversubscribed_huffLengths {freq : List Nat} (hfit : ∀ l ∈ huffLengths freq, l ≤ maxLen) :
    oversubscribed (huffLengths freq) = false := by
  have hsum : kraftSum (huffLengths freq) =
      ((presentSymbols freq).map fun s => 2 ^ (maxLen - (huffLengths freq).getD s 0)).sum := by
    have hall := take_eq_map_range (lens := huffLengths freq) (n := alphabet) (by simp)
    rw [← length_huffLengths freq, List.take_length, length_huffLengths] at hall
    have hfilter : presentSymbols freq =
        (List.range alphabet).filter fun s => decide ((huffLengths freq).getD s 0 ≠ 0) := by
      refine List.filter_congr fun s hs => decide_eq_decide.2 ?_
      rw [getD_huffLengths_ne_zero_iff, mem_presentSymbols, and_iff_right (List.mem_range.1 hs)]
    rw [kraftSum, hfilter]
    conv_lhs => rw [hall]
    rw [List.filter_map, List.map_map]
    rfl
  rw [oversubscribed_eq_false_iff, hsum]
  match hpresent : presentSymbols freq with
  | [] => simp
  | [s0] => simpa using Nat.pow_le_pow_right (n := 2) (by decide) (Nat.sub_le _ _)
  | a :: b :: rest =>
    obtain ⟨-, -, hkraft⟩ := huffLengths_full_tree (freq := freq) (by simp [hpresent])
    have hscale (s : Nat) : 2 ^ (255 - (huffLengths freq).getD s 0) =
        2 ^ (maxLen - (huffLengths freq).getD s 0) * 2 ^ 223 := by
      have hle := getD_le_of_forall_le hfit s
      rw [← Nat.pow_add]
      congr 1
      simp only [maxLen] at hle ⊢
      omega
    simp only [hscale, List.sum_map_mul_right] at hkraft
    rw [← hpresent]
    exact (Nat.eq_of_mul_eq_mul_right (Nat.two_pow_pos 223) (hkraft.trans (by decide))).le

end Sys2Proof.Machine
end

section
/-! PROOFS. The commands of the Huffman codec: how each completes and its faults in their order (42_huffman_codec.md
R208 to R214; 60_exceptions.md R264, R265, R267, R269, R271), and the round trip (R215). -/

namespace Sys2Proof.Machine

/-! ### A command by its ending -/

section
variable {i : Instr} {s : State}

/-- A completion stores and leaves the rest (70_reset_and_hazards.md R304; 20_memory.md R70). -/
theorem exists_completed_stores {stores : List Store} {r0 r1 : Nat} (hr0 : r0 < 2 ^ 32) (hr1 : r1 < 2 ^ 32)
    (h : endingOf i s = .completes stores (toWord r0) (toWord r1)) :
    ∃ t, exec i s = .next t ∧ t.mem = storeAll s.mem stores ∧ completedWith s t r0 r1 ∧ sameOutside s t ∧
      memoryKeptOutside (outputRegions i s) s t := by
  have hexec : exec i s = .next (completeWith (storeAll s.mem stores) (toWord r0) (toWord r1) s) := by
    rw [exec_eq_conclude_endingOf, h, conclude_completes]
  have hdone := completeWith_completedWith (storeAll s.mem stores) (toWord r0) (toWord r1) s
  rw [toNat_toWord hr0, toNat_toWord hr1] at hdone
  exact ⟨_, hexec, rfl, hdone, completeWith_sameOutside _ _ _ s, commandsWriteOnlyTheirOutputRegions i s _ hexec⟩

/-- `TruncatedStream` stores the partial output and leaves the rest (60_exceptions.md R265, R271). -/
theorem exists_truncated {stores : List Store} {cnt start : Word} (h : endingOf i s = .truncates stores cnt start) :
    ∃ t, exec i s = .next t ∧ faultedWith s t 4#4 start cnt start ∧ sameOutside s t ∧ t.mem = storeAll s.mem stores ∧
      memoryKeptOutside (outputRegions i s) s t := by
  have hexec : exec i s =
      .next (raiseFault .truncatedStream start cnt start { s with mem := storeAll s.mem stores }) := by
    rw [exec_eq_conclude_endingOf, h, conclude_truncates]
  exact ⟨_, hexec, raiseFault_faultedWith .truncatedStream start cnt start _ s,
    raiseFault_sameOutside .truncatedStream start cnt start _ s, rfl, commandsWriteOnlyTheirOutputRegions i s _ hexec⟩

theorem onBacked_eq_completes {rs : List Region} {e : Ending} {stores : List Store} {r0 r1 : Word}
    (h : onBacked s rs e = .completes stores r0 r1) :
    backing s.platform rs = .memory ∧ e = .completes stores r0 r1 := by
  obtain ⟨hb, he⟩ | ⟨-, he⟩ | ⟨-, he⟩ := onBacked_cases s rs e <;> rw [he] at h
  · exact ⟨hb, h⟩
  · cases h
  · cases h

end

/-- Plain memory under a set of regions is plain memory under each part of it (20_memory.md R64, R69). -/
theorem backing_memory_mono {p : Platform} {rs qs : List Region} (hsub : rs ⊆ qs) (h : backing p qs = .memory) :
    backing p rs = .memory := by
  have hmem (xs : List Region) :
      backing p xs = .memory ↔ ¬ touchesAny p.devices xs = true ∧ ¬ touchesAny p.unbacked xs = true := by
    rw [backing]
    split
    · simp_all
    · split <;> simp_all
  rw [hmem] at h ⊢
  exact ⟨mt (touchesAny_mono hsub) h.1, mt (touchesAny_mono hsub) h.2⟩

/-- Part (a) of the region check, for the inputs (20_memory.md R67). -/
theorem inputs_in_range_of_regionCheck {ins outs : List Region} (h : regionCheck ins outs = true) :
    ∀ r ∈ ins, r.base + r.size ≤ 2 ^ 32 := fun r hr =>
  (inRange_iff r).1 (((regionCheck_iff ins outs).1 h).1 r (List.mem_append_left _ hr))

theorem all_inRange_iff (rs : List Region) : rs.all inRange = true ↔ ∀ r ∈ rs, r.base + r.size ≤ 2 ^ 32 := by
  simp only [List.all_eq_true, inRange_iff, memorySize]

theorem all_inRange_eq_false {rs : List Region} (h : ∃ r ∈ rs, r.base + r.size > 2 ^ 32) : rs.all inRange = false := by
  obtain ⟨r, hr, hlt⟩ := h
  rw [Bool.eq_false_iff, ne_eq, all_inRange_iff]
  exact fun hall => Nat.not_le_of_gt hlt (hall r hr)

/-! ### Stores read back -/

/-- A stored array of words reads back as the low 32 bits of each (20_memory.md R62, R66). -/
theorem Memory.readWords_writeBytes_mod {m : Memory} (hm : m.wf = true) {base : Nat} {ws : List Nat}
    (h : base + 4 * ws.length ≤ memorySize) :
    (m.writeBytes base (bytesOfWords ws)).readWords base ws.length = ws.map (· % 2 ^ 32) := by
  refine List.ext_getElem (by simp) fun i h1 _ => ?_
  simp only [Memory.readWords, List.getElem_map, List.getElem_range]
  exact Memory.readWord_writeBytes_bytesOfWords hm h (by simpa using h1)

/-- A store leaves the bytes of a region that it does not overlap (20_memory.md R65). -/
theorem Memory.readBytes_writeBytes_of_disjoint {m : Memory} {base base' n : Nat} {bs : List Byte}
    (h : overlaps ⟨base', n⟩ ⟨base, bs.length⟩ = false) :
    (m.writeBytes base bs).readBytes base' n = m.readBytes base' n := by
  refine Memory.readBytes_congr fun i hi => Memory.read_writeBytes_outside m base bs ?_
  rw [← inRegion_eq_false_iff ⟨base, bs.length⟩, Bool.eq_false_iff]
  exact fun hin => (overlaps_eq_false_iff _ _).1 h (base' + i) ⟨(inRegion_iff _ _).2 (by simpa using hi), hin⟩

/-! ### Length tables -/

section
variable {lens : List Nat}

/-- The length check stops at the smallest symbol whose length is too large (42_huffman_codec.md R204). -/
theorem lenChecked_of_overflow {sym : Nat} (hlong : maxLen < lens.getD sym 0)
    (hfirst : ∀ r < sym, lens.getD r 0 ≤ maxLen) (e : Ending) :
    lenChecked lens e = .faults .codeLengthOverflow (toWord sym) := by
  have hsym : sym < lens.length := by
    by_contra h
    rw [List.getD_eq_default _ _ (Nat.le_of_not_lt h)] at hlong
    omega
  have hover : lengthOverflow lens = some sym := by
    rw [lengthOverflow, List.findIdx?_eq_some_iff_getElem]
    refine ⟨hsym, by simpa [hsym] using hlong, fun r hr => ?_⟩
    simpa [hr.trans hsym] using hfirst r hr
  rw [lenChecked, hover]

theorem lenChecked_of_fit (hfit : ∀ l ∈ lens, l ≤ maxLen) (e : Ending) : lenChecked lens e = e :=
  lenChecked_none ((lengthOverflow_eq_none_iff lens).2 hfit) e

theorem lenChecked_eq_completes {e : Ending} {stores : List Store} {r0 r1 : Word}
    (h : lenChecked lens e = .completes stores r0 r1) : (∀ l ∈ lens, l ≤ maxLen) ∧ e = .completes stores r0 r1 := by
  obtain ⟨hfit, he⟩ | ⟨sym, -, he⟩ := lenChecked_cases lens e <;> rw [he] at h
  · exact ⟨(lengthOverflow_eq_none_iff lens).1 hfit, h⟩
  · cases h

/-- A length table in memory holds lengths that fit a byte as they are (20_memory.md R68). -/
theorem map_toNat_lengthBytes (hfit : ∀ l ∈ lens, l ≤ maxLen) : (lengthBytes lens).map BitVec.toNat = lens := by
  rw [lengthBytes, List.map_map]
  refine (List.map_congr_left fun l hl => ?_).trans (List.map_id lens)
  have := hfit l hl
  simp only [maxLen] at this
  exact Nat.mod_eq_of_lt (by omega)

theorem maxLength_le (hfit : ∀ l ∈ lens, l ≤ maxLen) : maxLength lens ≤ maxLen := by
  obtain h | h := foldl_max_mem (l := lens) (a := 0)
  · exact h.trans_le (Nat.zero_le _)
  · exact hfit _ h

theorem maxLength_lt (hfit : ∀ l ∈ lens, l ≤ maxLen) : maxLength lens < 2 ^ 32 :=
  (maxLength_le hfit).trans_lt (by decide)

theorem presentCount_lt (hlen : lens.length = alphabet) : presentCount lens < 2 ^ 32 :=
  (hlen ▸ List.countP_le_length : presentCount lens ≤ alphabet).trans_lt (by decide)

theorem presentCount_eq (lens : List Nat) : presentCount lens = (lens.filter fun l => decide (l ≠ 0)).length :=
  List.countP_eq_length_filter

end

/-! ### `HUF.BUILD` -/

section
variable {s : State}

theorem buildEnding_of_region (hr : regionCheck [buildIn s] [buildOutLengths s, buildOutCodes s] = false) :
    endingOf .hufBuild s = .faults .badOperand 0#32 := by
  obtain ⟨-, he⟩ | ⟨hr', -⟩ := buildEnding_cases s
  · exact he
  · simp [hr] at hr'

/-- The procedure past its region check: the length check decides (42_huffman_codec.md R208). -/
theorem buildEnding_of_checks (hr : regionCheck [buildIn s] [buildOutLengths s, buildOutCodes s] = true)
    (hb : backing s.platform [buildIn s, buildOutLengths s, buildOutCodes s] = .memory) :
    endingOf .hufBuild s = lenChecked (huffLengths (freqOf s))
      (.completes [⟨s.operand 2, lengthBytes (huffLengths (freqOf s))⟩,
          ⟨s.operand 3, bytesOfWords (canonicalCodes (huffLengths (freqOf s)))⟩]
        (toWord (presentCount (huffLengths (freqOf s)))) (toWord (maxLength (huffLengths (freqOf s))))) := by
  obtain ⟨hr', -⟩ | ⟨-, he⟩ := buildEnding_cases s
  · simp [hr] at hr'
  · exact he.trans (onBacked_memory hb _)

end

/-- Settles O42: the region check, then the length check at its first symbol. -/
theorem hufBuildFaultsInOrder : Obligations.HufBuildFaultsInOrder := fun _ =>
  ⟨fun hr => exists_faulted (buildEnding_of_region hr), fun _ _ hr hb hlong hfirst =>
    exists_faulted ((buildEnding_of_checks hr hb).trans (lenChecked_of_overflow hlong hfirst _))⟩

/-- Settles O41: the code table is stored after the length table and does not overlap it. -/
theorem hufBuildCompletes : Obligations.HufBuildCompletes := by
  intro s hm hr hb hfit lens
  have hlen : lens.length = 256 := length_huffLengths _
  have hend := (buildEnding_of_checks hr hb).trans (lenChecked_of_fit hfit _)
  obtain ⟨t, hexec, hmem, hdone, hsame, hkept⟩ :=
    exists_completed_stores (presentCount_lt hlen) (maxLength_lt hfit) hend
  have hlens : s.operand 2 + 256 ≤ memorySize :=
    (inRange_iff _).1 (inRange_of_regionCheck hr (r := buildOutLengths s) (by simp))
  have hcodes : s.operand 3 + 1024 ≤ memorySize :=
    (inRange_iff _).1 (inRange_of_regionCheck hr (r := buildOutCodes s) (by simp))
  have hapart : overlaps ⟨s.operand 2, 256⟩ ⟨s.operand 3, 1024⟩ = false := by
    obtain ⟨-, -, hpair⟩ := (regionCheck_iff _ _).1 hr
    exact List.rel_of_pairwise_cons hpair (List.mem_singleton_self (buildOutCodes s))
  simp only [storeAll_cons, storeAll_nil] at hmem
  refine ⟨t, hexec, ?_, ?_, presentCount_eq lens ▸ hdone, hsame, hkept⟩
  · have hread := Memory.readBytes_writeBytes hm (base := s.operand 2) (bs := lengthBytes lens)
      (by simpa [hlen] using hlens)
    rw [length_lengthBytes, hlen] at hread
    rw [hmem, Memory.readBytes_writeBytes_of_disjoint (by simpa [alphabet] using hapart), hread,
      map_toNat_lengthBytes hfit]
  · have hread := Memory.readWords_writeBytes_mod (base := s.operand 3) (ws := canonicalCodes lens)
      (Memory.wf_writeBytes hm (base := s.operand 2) (bs := lengthBytes lens) (by simpa [hlen] using hlens))
      (by simpa [hlen] using hcodes)
    rwa [length_canonicalCodes, hlen, ← hmem] at hread

/-! ### `HUF.CANON` -/

section
variable {s : State}

theorem canonEnding_of_region (hr : regionCheck [canonIn s] [canonOut s] = false) :
    endingOf .hufCanon s = .faults .badOperand 0#32 := by
  obtain ⟨-, he⟩ | ⟨hr', -⟩ := canonEnding_cases s
  · exact he
  · simp [hr] at hr'

/-- The procedure past its region check: the length check and the Kraft check decide (42_huffman_codec.md R209). -/
theorem canonEnding_of_checks (hr : regionCheck [canonIn s] [canonOut s] = true)
    (hb : backing s.platform [canonIn s, canonOut s] = .memory) :
    endingOf .hufCanon s = lenChecked (lengthTableAt s (s.operand 0))
      (if oversubscribed (lengthTableAt s (s.operand 0)) then invalidData 8
       else .completes [⟨s.operand 2, bytesOfWords (canonicalCodes (lengthTableAt s (s.operand 0)))⟩]
        (toWord (presentCount (lengthTableAt s (s.operand 0))))
        (toWord (maxLength (lengthTableAt s (s.operand 0))))) := by
  obtain ⟨hr', -⟩ | ⟨-, he⟩ := canonEnding_cases s
  · simp [hr] at hr'
  · exact he.trans (onBacked_memory hb _)

end

/-- Settles O43: past its checks the procedure stores the canonical codes. -/
theorem hufCanonCompletes : Obligations.HufCanonCompletes := by
  intro s hm hr hb hfit hover lens
  have hlen : lens.length = 256 := length_lengthTableAt s _
  have hend := (canonEnding_of_checks hr hb).trans (lenChecked_of_fit hfit _)
  rw [hover, if_neg Bool.false_ne_true] at hend
  obtain ⟨t, hexec, hmem, hdone, hsame, hkept⟩ :=
    exists_completed_stores (presentCount_lt hlen) (maxLength_lt hfit) hend
  have hcodes : s.operand 2 + 1024 ≤ memorySize :=
    (inRange_iff _).1 (inRange_of_regionCheck hr (List.mem_singleton_self (canonOut s)))
  have hread := Memory.readWords_writeBytes_mod hm (base := s.operand 2) (ws := canonicalCodes lens)
    (by simpa [hlen] using hcodes)
  rw [length_canonicalCodes, hlen] at hread
  exact ⟨t, hexec, by rw [hmem]; exact hread, presentCount_eq lens ▸ hdone, hsame, hkept⟩

/-- Settles O44: the region check, the length check at its first symbol, the Kraft check. -/
theorem hufCanonFaultsInOrder : Obligations.HufCanonFaultsInOrder := by
  refine fun s => ⟨fun hr => exists_faulted (canonEnding_of_region hr), fun hr hb =>
    ⟨fun sym _ hlong hfirst => ?_, fun hfit hkraft => ?_⟩⟩
  · exact exists_faulted ((canonEnding_of_checks hr hb).trans (lenChecked_of_overflow hlong hfirst _))
  · have hover : oversubscribed (lengthTableAt s (s.operand 0)) = true :=
      (oversubscribed_iff _).2 ((kraftSum_eq _).symm ▸ hkraft)
    have hend := (canonEnding_of_checks hr hb).trans (lenChecked_of_fit hfit _)
    exact exists_faulted (hend.trans (if_pos hover))

/-! ### `HUF.ENC` -/

theorem someAbsent_eq_true_iff (lens : List Nat) (symbols : List Byte) :
    someAbsent lens symbols = true ↔ ∃ b ∈ symbols, lens.getD b.toNat 0 = 0 := by
  simp [someAbsent]

theorem someAbsent_eq_false_iff (lens : List Nat) (symbols : List Byte) :
    someAbsent lens symbols = false ↔ ∀ b ∈ symbols, lens.getD b.toNat 0 ≠ 0 := by
  simp [someAbsent]

section
variable {s : State}

theorem encEnding_of_range (h : ∃ r ∈ encIns s, r.base + r.size > 2 ^ 32) :
    endingOf .hufEnc s = .faults .badOperand 0#32 := by
  obtain ⟨-, he⟩ | ⟨hr, -⟩ := encEnding_cases s
  · exact he
  · simp [all_inRange_eq_false h] at hr

/-- The procedure past the check of its input regions (42_huffman_codec.md R210). -/
theorem encEnding_of_inputs (hr : ∀ r ∈ encIns s, r.base + r.size ≤ 2 ^ 32)
    (hb : backing s.platform (encIns s) = .memory) :
    endingOf .hufEnc s = lenChecked (lengthsOf s) (encData s) := by
  obtain ⟨hr', -⟩ | ⟨-, he⟩ := encEnding_cases s
  · simp [(all_inRange_iff _).2 hr] at hr'
  · exact he.trans (onBacked_memory hb _)

theorem encData_of_absent (h : ∃ b ∈ symbolsOf s, (lengthsOf s).getD b.toNat 0 = 0) : encData s = invalidData 7 :=
  if_pos ((someAbsent_eq_true_iff _ _).2 h)

section
variable (hpresent : ∀ b ∈ symbolsOf s, (lengthsOf s).getD b.toNat 0 ≠ 0)
include hpresent

theorem encData_of_long (hlong : 2 ^ 32 ≤ bitCount (lengthsOf s) (symbolsOf s)) :
    encData s = .faults .badOperand 0#32 := by
  rw [encData, (someAbsent_eq_false_iff _ _).2 hpresent, if_neg Bool.false_ne_true, if_pos (by omega)]

theorem encData_of_present (hshort : bitCount (lengthsOf s) (symbolsOf s) < 2 ^ 32) :
    encData s = encWrite s (bitCount (lengthsOf s) (symbolsOf s)) := by
  rw [encData, (someAbsent_eq_false_iff _ _).2 hpresent, if_neg Bool.false_ne_true, if_neg (by omega)]

end

/-- How an encode past its checks completes (42_huffman_codec.md R210). -/
theorem hufEnc_completes (hm : s.mem.wf = true)
    (hr : regionCheck (encIns s) [encOut s (bitCount (lengthsOf s) (symbolsOf s))] = true)
    (hb : backing s.platform (encIns s) = .memory)
    (hbo : backing s.platform [encOut s (bitCount (lengthsOf s) (symbolsOf s))] = .memory)
    (hfit : ∀ l ∈ lengthsOf s, l ≤ maxLen) (hpresent : ∀ b ∈ symbolsOf s, (lengthsOf s).getD b.toNat 0 ≠ 0)
    (hshort : bitCount (lengthsOf s) (symbolsOf s) < 2 ^ 32) :
    ∃ t, exec .hufEnc s = .next t ∧
      t.mem.readBytes (s.operand 2) (bytesForBits (bitCount (lengthsOf s) (symbolsOf s))) =
        packBits (encodedBits (encCode s) (lengthsOf s) (symbolsOf s)) ∧
      completedWith s t (bitCount (lengthsOf s) (symbolsOf s))
        (bytesForBits (bitCount (lengthsOf s) (symbolsOf s))) ∧ sameOutside s t ∧
      memoryKeptOutside [encOut s (bitCount (lengthsOf s) (symbolsOf s))] s t := by
  have hins := inputs_in_range_of_regionCheck hr
  have hout : outputRegions .hufEnc s = [encOut s (bitCount (lengthsOf s) (symbolsOf s))] :=
    if_pos ⟨(all_inRange_iff _).2 hins, (lengthOverflow_eq_none_iff _).2 hfit, (someAbsent_eq_false_iff _ _).2 hpresent⟩
  have hend := ((encEnding_of_inputs hins hb).trans (lenChecked_of_fit hfit _)).trans
    (encData_of_present hpresent hshort)
  obtain ⟨hr', -⟩ | ⟨-, he⟩ := encWrite_cases s (bitCount (lengthsOf s) (symbolsOf s))
  · simp [hr] at hr'
  · have h := exists_completed hm hshort (by rw [bytesForBits]; omega) (hend.trans (he.trans (onBacked_memory hbo _)))
    rwa [length_packBits, length_encodedBits, hout] at h

end

/-- Settles O45: the stored bytes are the packed bits of the symbols' codes. -/
theorem hufEncCompletes : Obligations.HufEncCompletes := by
  intro s hm lens m hr hb hbo hfit hpresent hshort
  obtain ⟨t, hexec, hread, hdone, hsame, hkept⟩ := hufEnc_completes hm hr hb hbo hfit hpresent hshort
  have hbit (k : Nat) : bitGet (t.mem.readBytes (s.operand 2) ((m + 7) / 8)) k =
      (encodedBits (encCode s) lens (symbolsOf s)).getD k false :=
    (congrArg (bitGet · k) hread).trans (bitGet_packBits _ k)
  refine ⟨t, hexec, fun k _ => hbit k, fun k _ hk => ?_, hdone, hsame, hkept⟩
  rw [hbit, List.getD_eq_default _ _ (by rw [length_encodedBits]; exact hk)]

/-- Settles O46: each check of the procedure in its order, the output region's the last. -/
theorem hufEncFaultsInOrder : Obligations.HufEncFaultsInOrder := by
  intro s lens m fails
  refine ⟨fun hout => exists_faulted (encEnding_of_range hout), fun hr hb =>
    ⟨fun sym _ hlong hfirst => ?_, fun hfit => ?_⟩⟩
  · exact exists_faulted ((encEnding_of_inputs hr hb).trans (lenChecked_of_overflow hlong hfirst _))
  · have hend : endingOf .hufEnc s = encData s := (encEnding_of_inputs hr hb).trans (lenChecked_of_fit hfit _)
    refine ⟨fun habsent => exists_faulted (hend.trans (encData_of_absent habsent)),
      fun hpresent hlong => exists_faulted (hend.trans (encData_of_long hpresent hlong)),
      fun hpresent hshort hregion => ?_⟩
    obtain ⟨-, he⟩ | ⟨hregion', -⟩ := encWrite_cases s m
    · exact exists_faulted (hend.trans ((encData_of_present hpresent hshort).trans he))
    · simp [hregion] at hregion'

/-! ### `HUF.DEC` and `HUF.LEN` -/

/-- Each resolved symbol has taken a bit or more (42_huffman_codec.md R212). -/
theorem length_decodeFrom_le (t : DecodeTables) (bytes : List Byte) (left pos cur clen start : Nat) (out : List Byte) :
    (decodeFrom t bytes left pos cur clen start out).symbols.length ≤ out.length + left := by
  induction left generalizing pos cur clen start out with
  | zero => simp [decodeFrom]
  | succ left ih =>
    simp only [decodeFrom]
    split
    · exact (ih _ _ _ _ _).trans (by rw [List.length_cons]; omega)
    · split
      · simp
      · exact (ih _ _ _ _ _).trans (by omega)

theorem length_decodedOf_lt (s : State) : (decodedOf s).symbols.length < 2 ^ 32 := by
  have h := length_decodeFrom_le (decodeTables (lengthsOf s)) (streamOf s) (s.operand 1) 0 0 0 0 []
  rw [List.length_nil, Nat.zero_add] at h
  exact h.trans_lt (operand_lt s 1)

section
variable {s : State}

theorem decChecked_of_range (h : ∃ r ∈ decIns s, r.base + r.size > 2 ^ 32) (e : Ending) :
    decChecked s e = .faults .badOperand 0#32 := by
  obtain ⟨-, he⟩ | ⟨hr, -⟩ | ⟨hr, -⟩ := decChecked_cases s e
  · exact he
  · simp [all_inRange_eq_false h] at hr
  · simp [all_inRange_eq_false h] at hr

section
variable (hr : ∀ r ∈ decIns s, r.base + r.size ≤ 2 ^ 32) (hb : backing s.platform (decIns s) = .memory)
include hr hb

/-- The shared checks past the input regions: the length check and the Kraft check decide (42_huffman_codec.md R213,
R214). -/
theorem decChecked_of_inputs (e : Ending) :
    decChecked s e = lenChecked (lengthsOf s) (if oversubscribed (lengthsOf s) then invalidData 8 else e) := by
  obtain ⟨hr', -⟩ | ⟨-, ho, he⟩ | ⟨-, ho, he⟩ := decChecked_cases s e
  · simp [(all_inRange_iff _).2 hr] at hr'
  · rw [he, onBacked_memory hb, ho, if_pos rfl]
  · rw [he, onBacked_memory hb, ho, if_neg Bool.false_ne_true]

variable (hfit : ∀ l ∈ lengthsOf s, l ≤ maxLen)
include hfit

theorem decChecked_of_oversubscribed (hover : oversubscribed (lengthsOf s) = true) (e : Ending) :
    decChecked s e = invalidData 8 := by
  rw [decChecked_of_inputs hr hb, lenChecked_of_fit hfit, if_pos hover]

theorem decChecked_of_checks (hover : oversubscribed (lengthsOf s) = false) (e : Ending) : decChecked s e = e := by
  rw [decChecked_of_inputs hr hb, lenChecked_of_fit hfit, hover, if_neg Bool.false_ne_true]

end

theorem decEnd_of_resolved {d : Decoded} (h : d.truncatedAt = none) (stores : List Store) :
    decEnd s d stores = .completes stores (toWord d.symbols.length) (toWord (s.operand 1)) := by
  have hx : toWord (s.operand 1) = s.x[1] := ((x_eq_toWord_iff 1 (operand_lt s 1)).2 rfl).symm
  rw [decEnd, h, hx]

theorem decEnd_of_truncated {d : Decoded} {start : Nat} (h : d.truncatedAt = some start) (stores : List Store) :
    decEnd s d stores = .truncates stores (toWord d.symbols.length) (toWord start) := by
  rw [decEnd, h]

theorem decWrite_of_region {d : Decoded} (hr : regionCheck (decIns s) [decOut s d.symbols.length] = false) :
    decWrite s d = .faults .badOperand 0#32 := by
  obtain ⟨-, he⟩ | ⟨hr', -⟩ := decWrite_cases s d
  · exact he
  · simp [hr] at hr'

theorem decWrite_of_checks {d : Decoded} (hr : regionCheck (decIns s) [decOut s d.symbols.length] = true)
    (hb : backing s.platform [decOut s d.symbols.length] = .memory) :
    decWrite s d = decEnd s d [⟨s.operand 2, d.symbols⟩] := by
  obtain ⟨hr', -⟩ | ⟨-, he⟩ := decWrite_cases s d
  · simp [hr] at hr'
  · rw [he, onBacked_memory hb]

theorem outputRegions_hufDec_of_checks (hr : ∀ r ∈ decIns s, r.base + r.size ≤ 2 ^ 32)
    (hfit : ∀ l ∈ lengthsOf s, l ≤ maxLen) (hover : oversubscribed (lengthsOf s) = false) :
    outputRegions .hufDec s = [decOut s (decodedOf s).symbols.length] :=
  if_pos ⟨(all_inRange_iff _).2 hr, (lengthOverflow_eq_none_iff _).2 hfit, hover⟩

end

/-- Settles O47: past the checks the procedure stores what the loop resolved. -/
theorem hufDecCompletes : Obligations.HufDecCompletes := by
  intro s hm d hr hb hbo hfit hover hresolved
  have hins := inputs_in_range_of_regionCheck hr
  have hend := ((decChecked_of_checks hins hb hfit hover (decWrite s d)).trans (decWrite_of_checks hr hbo)).trans
    (decEnd_of_resolved hresolved _)
  have h := exists_completed (i := .hufDec) hm (length_decodedOf_lt s) (operand_lt s 1) hend
  rwa [outputRegions_hufDec_of_checks hins hfit hover] at h

/-- Settles O48: past the checks the procedure counts what the loop resolved. -/
theorem hufLenCompletes : Obligations.HufLenCompletes := by
  intro s hr hb hfit hover hresolved
  have hend := (decChecked_of_checks hr hb hfit hover (decEnd s (decodedOf s) [])).trans
    (decEnd_of_resolved hresolved _)
  obtain ⟨t, hexec, hmem, hdone, hsame, -⟩ :=
    exists_completed_stores (i := .hufLen) (length_decodedOf_lt s) (operand_lt s 1) hend
  exact ⟨t, hexec, hdone, hsame, hmem⟩

/-- Settles O49: both procedures end in `TruncatedStream` at the loop's verdict, `HUF.DEC` with the resolved symbols
stored. -/
theorem truncatedStreamReportsPartialOutput : Obligations.TruncatedStreamReportsPartialOutput := by
  intro s start hm d hr hb hfit hover htrunc
  refine ⟨?_, fun hregion hbo => ?_⟩
  · have hend := (decChecked_of_checks hr hb hfit hover (decEnd s d [])).trans (decEnd_of_truncated htrunc _)
    obtain ⟨t, hexec, hfault, hsame, hmem, -⟩ := exists_truncated (i := .hufLen) hend
    exact ⟨t, hexec, hfault, hsame, hmem⟩
  · have hend := ((decChecked_of_checks hr hb hfit hover (decWrite s d)).trans (decWrite_of_checks hregion hbo)).trans
      (decEnd_of_truncated htrunc _)
    obtain ⟨t, hexec, hfault, hsame, hmem, hkept⟩ := exists_truncated (i := .hufDec) hend
    have hfits : s.operand 2 + d.symbols.length ≤ memorySize :=
      (inRange_iff _).1 (inRange_of_regionCheck hregion (List.mem_singleton_self (decOut s d.symbols.length)))
    rw [outputRegions_hufDec_of_checks hr hfit hover] at hkept
    exact ⟨t, hexec, hfault, hsame, hmem ▸ Memory.readBytes_writeBytes hm hfits, hkept⟩

/-- Settles O50: the two procedures share their checks, and the output region's comes before the loop's verdict. -/
theorem hufDecodeFaultsInOrder : Obligations.HufDecodeFaultsInOrder := by
  intro s lens fails
  refine ⟨fun i hi => ?_, fun hr hb hfit hover hregion => ?_⟩
  · obtain ⟨e, hending⟩ : ∃ e, endingOf i s = decChecked s e := by
      simp only [List.mem_cons, List.not_mem_nil, or_false] at hi
      obtain rfl | rfl := hi
      · exact ⟨decWrite s (decodedOf s), rfl⟩
      · exact ⟨decEnd s (decodedOf s) [], rfl⟩
    refine ⟨fun hout => exists_faulted (hending.trans (decChecked_of_range hout e)), fun hr hb =>
      ⟨fun sym _ hlong hfirst => ?_, fun hfit hover => ?_⟩⟩
    · exact exists_faulted
        (hending.trans ((decChecked_of_inputs hr hb e).trans (lenChecked_of_overflow hlong hfirst _)))
    · exact exists_faulted (hending.trans (decChecked_of_oversubscribed hr hb hfit hover e))
  · have hend := (decChecked_of_checks hr hb hfit hover (decWrite s (decodedOf s))).trans (decWrite_of_region hregion)
    exact exists_faulted (i := .hufDec) hend

/-- On backed inputs the shared checks fault, whatever follows them, or have all passed (42_huffman_codec.md R213,
R214). -/
theorem decChecked_fault_or_pass {s : State} (hb : backing s.platform (decIns s) = .memory) :
    (∃ c info, ∀ e, decChecked s e = .faults c info) ∨
    ((∀ r ∈ decIns s, r.base + r.size ≤ 2 ^ 32) ∧ (∀ l ∈ lengthsOf s, l ≤ maxLen) ∧
      oversubscribed (lengthsOf s) = false) := by
  by_cases hr : ∀ r ∈ decIns s, r.base + r.size ≤ 2 ^ 32
  · cases hl : lengthOverflow (lengthsOf s) with
    | some sym =>
      exact .inl ⟨_, _, fun e => (decChecked_of_inputs hr hb e).trans (by rw [lenChecked, hl])⟩
    | none =>
      have hfit := (lengthOverflow_eq_none_iff _).1 hl
      cases hover : oversubscribed (lengthsOf s) with
      | true => exact .inl ⟨_, _, decChecked_of_oversubscribed hr hb hfit hover⟩
      | false => exact .inr ⟨hr, hfit, rfl⟩
  · refine .inl ⟨_, _, decChecked_of_range ?_⟩
    simpa using hr

/-- Settles O51: the two procedures share their checks and the verdict of the loop. -/
theorem lengthProbeAgreesWithDecode : Obligations.LengthProbeAgreesWithDecode := by
  intro s hp
  have hdec : exec .hufDec s = conclude s (decChecked s (decWrite s (decodedOf s))) := rfl
  have hlen : exec .hufLen s = conclude s (decChecked s (decEnd s (decodedOf s) [])) := rfl
  obtain ⟨c, info, hfault⟩ | ⟨hr, hfit, hover⟩ := decChecked_fault_or_pass (backing_of_allMemory hp (decIns s))
  · rw [hdec, hlen, hfault, hfault]
    exact ⟨_, _, rfl, rfl, rfl, fun _ => ⟨rfl, rfl, rfl, rfl⟩⟩
  · have hpass := decChecked_of_checks hr (backing_of_allMemory hp _) hfit hover
    rw [hdec, hlen, hpass, hpass]
    cases hregion : regionCheck (decIns s) [decOut s (decodedOf s).symbols.length] with
    | false =>
      rw [decWrite_of_region hregion]
      obtain ⟨-, he⟩ | ⟨start, -, he⟩ := decEnd_cases s (decodedOf s) [] <;> rw [he]
      · exact ⟨_, _, rfl, rfl, rfl, fun h => absurd (h hr hfit hover) Bool.false_ne_true⟩
      · exact ⟨_, _, rfl, rfl, rfl, fun h => absurd (h hr hfit hover) Bool.false_ne_true⟩
    | true =>
      rw [decWrite_of_checks hregion (backing_of_allMemory hp _)]
      cases hverdict : (decodedOf s).truncatedAt with
      | none =>
        rw [decEnd_of_resolved hverdict, decEnd_of_resolved hverdict]
        exact ⟨_, _, rfl, rfl, rfl, fun _ => ⟨rfl, rfl, rfl, rfl⟩⟩
      | some start =>
        rw [decEnd_of_truncated hverdict, decEnd_of_truncated hverdict]
        exact ⟨_, _, rfl, rfl, rfl, fun _ => ⟨rfl, rfl, rfl, rfl⟩⟩

/-! ### The round trip -/

/-- A completion of `HUF.ENC` has passed every check (42_huffman_codec.md R210). -/
theorem checks_of_encEnding_completes {s : State} {stores : List Store} {r0 r1 : Word}
    (h : endingOf .hufEnc s = .completes stores r0 r1) :
    regionCheck (encIns s) [encOut s (bitCount (lengthsOf s) (symbolsOf s))] = true ∧
      backing s.platform (encIns s) = .memory ∧
      backing s.platform [encOut s (bitCount (lengthsOf s) (symbolsOf s))] = .memory ∧
      (∀ l ∈ lengthsOf s, l ≤ maxLen) ∧ (∀ b ∈ symbolsOf s, (lengthsOf s).getD b.toNat 0 ≠ 0) ∧
      bitCount (lengthsOf s) (symbolsOf s) < 2 ^ 32 := by
  obtain ⟨-, he⟩ | ⟨-, he⟩ := encEnding_cases s
  · cases he.symm.trans h
  · obtain ⟨hb, h⟩ := onBacked_eq_completes (he.symm.trans h)
    obtain ⟨hfit, h⟩ := lenChecked_eq_completes h
    obtain ⟨-, he⟩ | ⟨-, -, he⟩ | ⟨habsent, hshort, he⟩ := encData_cases s
    · cases he.symm.trans h
    · cases he.symm.trans h
    · obtain ⟨-, he'⟩ | ⟨hr, he'⟩ := encWrite_cases s (bitCount (lengthsOf s) (symbolsOf s))
      · cases (he.trans he').symm.trans h
      · obtain ⟨hbo, -⟩ := onBacked_eq_completes ((he.trans he').symm.trans h)
        exact ⟨hr, hb, hbo, hfit, (someAbsent_eq_false_iff _ _).1 habsent, by omega⟩

theorem encodedBits_congr {code code' : Byte → Nat} {symbols : List Byte} (h : ∀ b ∈ symbols, code b = code' b)
    (lens : List Nat) : encodedBits code lens symbols = encodedBits code' lens symbols :=
  List.flatMap_congr fun b hb => by rw [h b hb]

/-- Settles O55: the stream that the encode stored is the canonical encoding, which the loop inverts. -/
theorem huffmanRoundTrip : Obligations.HuffmanRoundTrip := by
  intro s t u hm hum hlens hcode hs hexec ht hnbits hstream hlensu hregion hbacked
  obtain ⟨stores, r0, r1, hend, -⟩ := completes_of_done hexec hs ht
  obtain ⟨hr, hb, hbo, hfit, hpresent, hshort⟩ := checks_of_encEnding_completes hend
  obtain ⟨t', hexec', hread, ⟨hres0, -⟩, -⟩ := hufEnc_completes hm hr hb hbo hfit hpresent hshort
  obtain rfl : t = t' := by rw [hexec] at hexec'; injection hexec'
  have hover : oversubscribed (lengthsOf s) = false := by
    rw [hlens] at hfit ⊢
    exact oversubscribed_huffLengths hfit
  have hbits : u.operand 1 = bitCount (lengthsOf s) (symbolsOf s) :=
    (congrArg BitVec.toNat hnbits).trans hres0
  have hdecoded : decodedOf u = ⟨symbolsOf s, none⟩ := by
    rw [decodedOf, hlensu, hbits, hstream, hres0, hread, encodedBits_congr hcode]
    exact decodeLoop_encodedBits (length_lengthTableAt s _) hfit hover hpresent fun k _ => bitGet_packBits _ k
  have hcount : (decodedOf u).symbols.length = s.operand 1 := by rw [hdecoded, length_symbolsOf]
  have hbin := backing_memory_mono (List.subset_append_left _ _) hbacked
  have hbout := backing_memory_mono (List.subset_append_right _ _) hbacked
  rw [← hcount] at hregion hbout
  rw [← hlensu] at hfit hover
  obtain ⟨v, hv, hvread, ⟨hvcount, -, -, -, hvdone, -⟩, -⟩ :=
    hufDecCompletes u hum hregion hbin hbout hfit hover (by rw [hdecoded])
  obtain ⟨w, hw, ⟨hwcount, -, -, -, hwdone, -⟩, -⟩ :=
    hufLenCompletes u (inputs_in_range_of_regionCheck hregion) hbin hfit hover (by rw [hdecoded])
  rw [hcount] at hvread hvcount hwcount
  exact ⟨⟨v, hv, hvdone, hvcount, by rw [hvread, hdecoded]⟩, w, hw, hwdone, hwcount⟩

end Sys2Proof.Machine
end

section
/-! PROOFS. The bit stream as a whole (43_bitstream.md R255, R256): a packed stream reads back, and a decode reads no bit
from `nbits` on. -/

namespace Sys2Proof.Machine

/-- Settles O52: a packed stream holds its bits in order, and past the last of them only pad bits 0. -/
theorem bitPackingRoundTrip : Obligations.BitPackingRoundTrip := by
  refine fun bits => ⟨length_packBits bits, fun k _ => bitGet_packBits bits k, fun k _ hpad => ?_⟩
  rw [bitGet_packBits, List.getD_eq_default _ _ hpad]

/-- The loop with `left` bits to go reads the `left` bits from its position on and no others (42_huffman_codec.md R212,
43_bitstream.md R255). -/
theorem decodeFrom_congr {t : DecodeTables} {bytes bytes' : List Byte} {left pos : Nat}
    (h : ∀ k < left, bitGet bytes (pos + k) = bitGet bytes' (pos + k)) (cur clen start : Nat) (out : List Byte) :
    decodeFrom t bytes left pos cur clen start out = decodeFrom t bytes' left pos cur clen start out := by
  induction left generalizing pos cur clen start out with
  | zero => rfl
  | succ left ih =>
    have hbit : bitGet bytes pos = bitGet bytes' pos := h 0 (Nat.succ_pos left)
    have hrest (k : Nat) (hk : k < left) : bitGet bytes (pos + 1 + k) = bitGet bytes' (pos + 1 + k) := by
      rw [Nat.add_right_comm]
      exact h (k + 1) (Nat.succ_lt_succ hk)
    simp only [decodeFrom, hbit, ih hrest]

/-- Settles O53: the loop starts at position 0 with `nbits` bits to go. -/
theorem decodingIgnoresPadBits : Obligations.DecodingIgnoresPadBits := by
  intro lens bytes bytes' nbits h
  exact decodeFrom_congr (fun k hk => by simpa using h k hk) 0 0 0 []

end Sys2Proof.Machine
end

section
/-! PROOFS. The interrupt line when an accepted word ends (60_exceptions.md R274; 10_state.md R24, R33). -/

namespace Sys2Proof.Machine

/-- Completion sets `DONE`, so `DIE` decides the line unless a fault is pending (60_exceptions.md R274). -/
theorem irq_completeWith (m : Memory) (r0 r1 : Word) {s : State} (hf : s.status.fault = false) :
    irq (completeWith m r0 r1 s) = s.ctrl.die := by
  simp [irq, flagsCompleted, hf]

/-- Fault entry sets `FAULT`, so `FIE` decides the line unless a `DONE` is pending (60_exceptions.md R274). -/
theorem irq_raiseFault (c : Cause) (info r0 r1 : Word) {s : State} (hd : s.status.done = false) :
    irq (raiseFault c info r0 r1 s) = s.ctrl.fie := by
  simp [irq, flagsFaulted, hd]

/-- Settles O12: `BUSY` excludes an older `DONE` or `FAULT`, so the flag that the ending raises is the only one set; an
engine that is stuck has not ended its word. -/
theorem interruptLineAtCommandEnd : Obligations.InterruptLineAtCommandEnd := by
  intro s t hi hb h ht
  obtain ⟨hflags, -⟩ := (State.inv_iff s).1 hi
  obtain ⟨hfault, hdone⟩ := ((Status.consistent_iff _).1 hflags).1 hb
  obtain ⟨stores, r0, r1, -, rfl⟩ | ⟨stores, c, info, r0, r1, -, rfl⟩ | rfl := engineStep_next h
  · rw [irq_completeWith _ r0 r1 hfault]
    simp [flagsCompleted, hfault]
  · rw [irq_raiseFault c info r0 r1 (s := { s with mem := storeAll s.mem stores }) hdone]
    simp [flagsFaulted]
  · simp [hb] at ht

end Sys2Proof.Machine
end

section
/-! PROOFS. A step with a command running and a host action pending (70_reset_and_hazards.md R305; 20_memory.md R69). -/

namespace Sys2Proof.Machine

/-- With a pending action that does not wait, the free choice says whether a BUSY engine comes before it
(70_reset_and_hazards.md R305). -/
theorem step_of_pending {s : State} {a : HostAction} {rest : List HostAction} (hb : s.status.busy = true)
    (hs : s.script = a :: rest) (hwait : a ≠ .wait) (hend : a ≠ .awaitEnd) :
    step s = if Config.engineFirst s.fresh then engineBeforeHost a rest s else hostTurn a rest s := by
  cases a with
  | wait => exact absurd rfl hwait
  | awaitEnd => exact absurd rfl hend
  | regWrite | regRead | memStore | memLoad | hardReset => simp [step, stepBody, hs, hostOrEngine, hb]

/-- An engine that does not stay BUSY takes its turn before the host's action, whatever its step answers. -/
theorem engineBeforeHost_of_not_stuck {s : State} (a : HostAction) (rest : List HostAction)
    (h : ∀ t, engineStep (tick s) = .next t → t.status.busy = false) :
    engineBeforeHost a rest s = engineStep (tick s) := by
  cases he : engineStep (tick s) with
  | next t => simp [engineBeforeHost, he, h t he]
  | fault | refused => simp [engineBeforeHost, he]

/-- A stuck engine ends no command, and the host's action happens instead (20_memory.md R69). -/
theorem engineBeforeHost_of_stuck {s t : State} (a : HostAction) (rest : List HostAction)
    (h : engineStep (tick s) = .next t) (ht : t.status.busy = true) : engineBeforeHost a rest s = hostTurn a rest s := by
  simp [engineBeforeHost, h, ht]

/-- Settles O5: the free choice is between the engine and the host, and with a stuck engine both choices are the host's
turn. -/
theorem pendingHostActionComesBeforeOrAfter : Obligations.PendingHostActionComesBeforeOrAfter := by
  intro s a rest hb hs hwait hend
  have hstep := step_of_pending hb hs hwait hend
  constructor
  · intro hends
    rwa [engineBeforeHost_of_not_stuck a rest hends] at hstep
  · rintro ⟨t, ht, hstuck⟩
    rwa [engineBeforeHost_of_stuck a rest ht hstuck, ite_self] at hstep

end Sys2Proof.Machine
end
